-- ==== Sys2Proof/Word.lean ====
section
/-! DEFINITION. The word types of the Chirp Biquad Filter Unit (BFU): bytes, 32-bit fields, 72-bit command and response
words (spec/30_encoding.md R40, R44; spec/00_scope.md R4 fields W_CMD and W_RSP). -/

namespace Sys2Proof

/-- One byte of a serialised word (spec/20_memory.md R32). -/
abbrev Byte := BitVec 8

/-- A whole 32-bit field: a tag, a channel, an index, or the pattern of a value of `F` (R41, R43). -/
abbrev Word32 := BitVec 32

/-- A command word, 72 bits (R40). -/
abbrev CmdWord := BitVec 72

/-- A response word, 72 bits (R44). -/
abbrev RspWord := BitVec 72

end Sys2Proof
end

