-- ==== Sys2Proof/Syntax.lean ====
section
/-! DEFINITION. The BFU command set as syntax: one constructor of `Instr` per row of spec/opcode_table.json
(spec/30_encoding.md R45). Operand fields stand as the 32 bits the command word carries (R43); the two operands with a
closed set of legal values, the channel of STEP (R51) and the index of RDREG (R50), are names. -/

namespace Sys2Proof

/-- The two `BiquadFilter` instances (spec/43_evaluation.md R92): channel 0 is left, 1 is right. -/
inductive Channel where
  | left
  | right
  deriving DecidableEq, Repr

/-- The 21 names of the readback index space (spec/10_state.md R26). -/
inductive Reg where
  | status | cut | q | cutmod | qmod | ecut | eq
  | b0 | b1 | b2 | a0 | a1 | a2
  | xl1 | xl2 | yl1 | yl2 | xr1 | xr2 | yr1 | yr2
  deriving DecidableEq, Repr

/-- The BFU command set (R45). A `Word32` operand that is a value of `F` is read with `f32` by the instruction's
meaning (R43), so every pattern is an operand and no bit of a command word is lost here. -/
inductive Instr where
  /-- NOP, opcode 0x00, format Z (spec/44_housekeeping.md R95). -/
  | nop
  /-- INIT t, opcode 0x01, format T: filter-type tag (spec/40_construction_parameters.md R60). -/
  | init (tag : Word32)
  /-- SETCUT v, opcode 0x10, format V (R61). -/
  | setcut (v : Word32)
  /-- SETQ v, opcode 0x11, format V (R62). -/
  | setq (v : Word32)
  /-- MOD.CUT v, opcode 0x20 with tag 0, format TV (spec/41_modulation.md R70). -/
  | modCut (v : Word32)
  /-- MOD.Q v, opcode 0x20 with tag 1, format TV (R71). -/
  | modQ (v : Word32)
  /-- MOD.FWD t, v, opcode 0x20 with tag 2 or above, format TV (R72). -/
  | modFwd (tag v : Word32)
  /-- CLRMOD, opcode 0x21, format Z (R73). -/
  | clrmod
  /-- PROC l, r, opcode 0x30, format VV (spec/43_evaluation.md R91). -/
  | proc (l r : Word32)
  /-- STEP c, x, opcode 0x31, format TV (R92). -/
  | step (c : Channel) (x : Word32)
  /-- RDREG i, opcode 0x40, format T (spec/44_housekeeping.md R96). -/
  | rdreg (i : Reg)
  deriving DecidableEq, Repr

end Sys2Proof
end

