-- ==== Sys2Proof/WellFormed.lean ====
section
/-! DEFINITION. Which terms of `Instr` the decoder can produce. The one operand whose type admits more than its
encoding is the tag of MOD.FWD: tags 0 and 1 of opcode 0x20 select MOD.CUT and MOD.Q (spec/30_encoding.md R45, R52). -/

namespace Sys2Proof

/-- The tag of a MOD.FWD is 2 or above, read as an unsigned number (R45's extra constraint `a >= 2`). -/
def fwdTagOk (tag : Word32) : Bool := decide (2 ≤ tag.toNat)

/-- A well-formed instruction: one that some command word decodes to. -/
def Instr.wf : Instr → Bool
  | .nop => true
  | .init _ => true
  | .setcut _ => true
  | .setq _ => true
  | .modCut _ => true
  | .modQ _ => true
  | .modFwd tag _ => fwdTagOk tag
  | .clrmod => true
  | .proc _ _ => true
  | .step _ _ => true
  | .rdreg _ => true

end Sys2Proof
end

