-- ==== Sys2Proof/Decode.lean ====
section
/-! DEFINITION. Decoding a command word and encoding an instruction, from spec/30_encoding.md R41 to R52, and the byte
form of a word, spec/20_memory.md R32. Decoding is total and reads no state (R46). -/

namespace Sys2Proof

/-! ### Fields of a command word (R41) -/

/-- `op`, bits 71:64. -/
def opField (w : CmdWord) : BitVec 8 := w.extractLsb' 64 8

/-- `a`, bits 63:32. -/
def aField (w : CmdWord) : Word32 := w.extractLsb' 32 32

/-- `b`, bits 31:0. -/
def bField (w : CmdWord) : Word32 := w.extractLsb' 0 32

/-- The word `op ++ a ++ b` (R7, R41). -/
def assembleWord (op : BitVec 8) (a b : Word32) : CmdWord := op ++ a ++ b

/-! ### Opcodes (R45, R47) -/

/-- The nine opcodes that are not reserved; 0x20 carries the three MOD instructions. -/
inductive Opcode where
  | nop | init | setcut | setq | mod | clrmod | proc | step | rdreg
  deriving DecidableEq, Repr

/-- The opcode byte (R45, column `op`). -/
def opcodeByte : Opcode → BitVec 8
  | .nop => 0x00
  | .init => 0x01
  | .setcut => 0x10
  | .setq => 0x11
  | .mod => 0x20
  | .clrmod => 0x21
  | .proc => 0x30
  | .step => 0x31
  | .rdreg => 0x40

/-- Reading an opcode byte; every byte other than the nine is reserved (R47). -/
def opcodeOf (op : BitVec 8) : Option Opcode :=
  if op = 0x00 then some .nop
  else if op = 0x01 then some .init
  else if op = 0x10 then some .setcut
  else if op = 0x11 then some .setq
  else if op = 0x20 then some .mod
  else if op = 0x21 then some .clrmod
  else if op = 0x30 then some .proc
  else if op = 0x31 then some .step
  else if op = 0x40 then some .rdreg
  else none

/-! ### Closed operand sets -/

/-- The readback index of a register (spec/10_state.md R26). -/
def regIndex : Reg → Word32
  | .status => 0x00
  | .cut => 0x01
  | .q => 0x02
  | .cutmod => 0x03
  | .qmod => 0x04
  | .ecut => 0x05
  | .eq => 0x06
  | .b0 => 0x08
  | .b1 => 0x09
  | .b2 => 0x0A
  | .a0 => 0x0B
  | .a1 => 0x0C
  | .a2 => 0x0D
  | .xl1 => 0x10
  | .xl2 => 0x11
  | .yl1 => 0x12
  | .yl2 => 0x13
  | .xr1 => 0x14
  | .xr2 => 0x15
  | .yr1 => 0x16
  | .yr2 => 0x17

/-- The register with a readback index: 21 indices are defined and every other is not (R26, R31, R50). -/
def regOf (i : Word32) : Option Reg :=
  if i = 0x00 then some .status
  else if i = 0x01 then some .cut
  else if i = 0x02 then some .q
  else if i = 0x03 then some .cutmod
  else if i = 0x04 then some .qmod
  else if i = 0x05 then some .ecut
  else if i = 0x06 then some .eq
  else if i = 0x08 then some .b0
  else if i = 0x09 then some .b1
  else if i = 0x0A then some .b2
  else if i = 0x0B then some .a0
  else if i = 0x0C then some .a1
  else if i = 0x0D then some .a2
  else if i = 0x10 then some .xl1
  else if i = 0x11 then some .xl2
  else if i = 0x12 then some .yl1
  else if i = 0x13 then some .yl2
  else if i = 0x14 then some .xr1
  else if i = 0x15 then some .xr2
  else if i = 0x16 then some .yr1
  else if i = 0x17 then some .yr2
  else none

/-- The channel number (R92): 0 left, 1 right. -/
def channelCode : Channel → Word32
  | .left => 0
  | .right => 1

/-- Reading a channel number; 2 and above name no channel (R51). -/
def channelOf (c : Word32) : Option Channel :=
  if c = 0 then some .left
  else if c = 1 then some .right
  else none

/-! ### Decoding (R46) -/

/-- Why a word is illegal. The unit takes the same fault for each (R102); the names serve the reader. -/
inductive Illegal where
  /-- The opcode is none of the nine (R47). -/
  | reservedOpcode
  /-- A must-be-zero field is not zero (R48). -/
  | mustBeZero
  /-- RDREG with an undefined index (R50). -/
  | undefinedIndex
  /-- STEP with a channel of 2 or above (R51). -/
  | undefinedChannel
  deriving DecidableEq, Repr

/-- `Instr + Illegal` of R46. -/
inductive Decoded where
  | ok (i : Instr)
  | illegal (why : Illegal)
  deriving DecidableEq, Repr

/-- The instruction where decoding gives one. -/
def decodedInstr : Decoded → Option Instr
  | .ok i => some i
  | .illegal _ => none

/-- Accept `d` when the must-be-zero field `z` is zero (R48). -/
def whenZero (z : Word32) (d : Decoded) : Decoded :=
  if z = 0 then d else .illegal .mustBeZero

/-- The tag of opcode 0x20 selects the instruction (R46, R52). -/
def decodeMod (tag v : Word32) : Decoded :=
  if tag = 0 then .ok (.modCut v)
  else if tag = 1 then .ok (.modQ v)
  else .ok (.modFwd tag v)

/-- STEP's operand constraint (R51). -/
def decodeStep (c x : Word32) : Decoded :=
  match channelOf c with
  | some ch => .ok (.step ch x)
  | none => .illegal .undefinedChannel

/-- RDREG's operand constraint (R50). -/
def decodeRdreg (i : Word32) : Decoded :=
  match regOf i with
  | some r => .ok (.rdreg r)
  | none => .illegal .undefinedIndex

/-- The operands of an opcode: the format's must-be-zero fields first, then STEP's and RDREG's constraints (R46). -/
def decodeOperands (op : Opcode) (a b : Word32) : Decoded :=
  match op with
  | .nop => whenZero a (whenZero b (.ok .nop))
  | .init => whenZero b (.ok (.init a))
  | .setcut => whenZero b (.ok (.setcut a))
  | .setq => whenZero b (.ok (.setq a))
  | .mod => decodeMod a b
  | .clrmod => whenZero a (whenZero b (.ok .clrmod))
  | .proc => .ok (.proc a b)
  | .step => decodeStep a b
  | .rdreg => whenZero b (decodeRdreg a)

/-- `decode : BitVec 72 -> Instr + Illegal` (R46). -/
def decode (w : CmdWord) : Decoded :=
  match opcodeOf (opField w) with
  | some op => decodeOperands op (aField w) (bField w)
  | none => .illegal .reservedOpcode

/-! ### Encoding (R45, R54) -/

/-- The opcode of an instruction. -/
def instrOpcode : Instr → Opcode
  | .nop => .nop
  | .init _ => .init
  | .setcut _ => .setcut
  | .setq _ => .setq
  | .modCut _ => .mod
  | .modQ _ => .mod
  | .modFwd _ _ => .mod
  | .clrmod => .clrmod
  | .proc _ _ => .proc
  | .step _ _ => .step
  | .rdreg _ => .rdreg

/-- Field `a` of an instruction. -/
def instrA : Instr → Word32
  | .nop => 0
  | .init tag => tag
  | .setcut v => v
  | .setq v => v
  | .modCut _ => 0
  | .modQ _ => 1
  | .modFwd tag _ => tag
  | .clrmod => 0
  | .proc l _ => l
  | .step c _ => channelCode c
  | .rdreg i => regIndex i

/-- Field `b` of an instruction. -/
def instrB : Instr → Word32
  | .nop => 0
  | .init _ => 0
  | .setcut _ => 0
  | .setq _ => 0
  | .modCut v => v
  | .modQ v => v
  | .modFwd _ v => v
  | .clrmod => 0
  | .proc _ r => r
  | .step _ x => x
  | .rdreg _ => 0

/-- The command word of an instruction (the table of R54). -/
def encode (i : Instr) : CmdWord :=
  assembleWord (opcodeByte (instrOpcode i)) (instrA i) (instrB i)

/-! ### The opcode map's rows (R45): match and mask over the 72-bit word -/

/-- The `mask` column of R45. -/
def rowMask : Instr → CmdWord
  | .nop => 0xFFFFFFFFFFFFFFFFFF
  | .init _ => 0xFF00000000FFFFFFFF
  | .setcut _ => 0xFF00000000FFFFFFFF
  | .setq _ => 0xFF00000000FFFFFFFF
  | .modCut _ => 0xFFFFFFFFFF00000000
  | .modQ _ => 0xFFFFFFFFFF00000000
  | .modFwd _ _ => 0xFF0000000000000000
  | .clrmod => 0xFFFFFFFFFFFFFFFFFF
  | .proc _ _ => 0xFF0000000000000000
  | .step _ _ => 0xFFFFFFFFFE00000000
  | .rdreg _ => 0xFF00000000FFFFFFFF

/-- The `match` column of R45. -/
def rowMatch : Instr → CmdWord
  | .nop => 0x000000000000000000
  | .init _ => 0x010000000000000000
  | .setcut _ => 0x100000000000000000
  | .setq _ => 0x110000000000000000
  | .modCut _ => 0x200000000000000000
  | .modQ _ => 0x200000000100000000
  | .modFwd _ _ => 0x200000000000000000
  | .clrmod => 0x210000000000000000
  | .proc _ _ => 0x300000000000000000
  | .step _ _ => 0x310000000000000000
  | .rdreg _ => 0x400000000000000000

/-! ### The byte form of a word (spec/20_memory.md R32): nine bytes, most significant first -/

/-- The nine bytes of a word: byte 0 is bits 71:64. -/
def bytesOfWord (w : BitVec 72) : List Byte :=
  [w.extractLsb' 64 8, w.extractLsb' 56 8, w.extractLsb' 48 8, w.extractLsb' 40 8, w.extractLsb' 32 8,
   w.extractLsb' 24 8, w.extractLsb' 16 8, w.extractLsb' 8 8, w.extractLsb' 0 8]

/-- The word of the first nine bytes and the bytes after them; none when fewer than nine stand there. -/
def wordOfBytes : List Byte → Option (BitVec 72 × List Byte)
  | b0 :: b1 :: b2 :: b3 :: b4 :: b5 :: b6 :: b7 :: b8 :: rest =>
    some (b0 ++ b1 ++ b2 ++ b3 ++ b4 ++ b5 ++ b6 ++ b7 ++ b8, rest)
  | _ => none

/-- Decoding bytes: a command is nine bytes and nothing else decides its length (R40, R32); none when they are not
all there. -/
def decodeBytes (bs : List Byte) : Option (Decoded × List Byte) :=
  match wordOfBytes bs with
  | some (w, rest) => some (decode w, rest)
  | none => none

/-! ### The host's numbering of a table row's bits -/

/-- The command word of a table row's bits: a command is ONE word, and the table's bit n is the word's bit n; bits above
`nbits` are 0. -/
def tableWord (nbits w : Nat) : CmdWord := BitVec.ofNat 72 (w % 2 ^ nbits)

/-- The instruction the decoder reads from a table row's bits, laid out as the nine bytes of R32. -/
def decodeTableWord (nbits w : Nat) : Option Instr :=
  match decodeBytes (bytesOfWord (tableWord nbits w)) with
  | some (d, _) => decodedInstr d
  | none => none

end Sys2Proof
end

