-- ==== Sys2Proof/Machine/Float.lean ====
section
/-! DEFINITION. Floating-point formats and their arithmetic: IEEE 754 binary formats of any width, round to nearest with ties
to even on every operation, subnormals kept, no fused operation, no exception flag (spec/00_scope.md R5; the format is a
parameter, R5 and spec/93_implementation_defined.md U2). A value is held as a value, not as a pattern. Every finite value of a
format is a whole multiple of its unit, so the exact result of an operation is an integer or a fraction of integers, rounded
once by `roundNearest`. -/

namespace Sys2Proof

/-- A binary floating-point format: its exponent bits and its fraction bits. -/
structure Format where
  expBits : Nat
  fracBits : Nat
  deriving DecidableEq, Repr

/-- The greatest biased exponent of a finite value: one below all ones. -/
def Format.expTop (k : Format) : Nat := 2 ^ k.expBits - 2

/-- The unit: every finite value is a whole multiple of two to the minus this. -/
def Format.unit (k : Format) : Nat := 2 ^ (k.expBits - 1) + k.fracBits - 2

/-- IEEE 754 binary32, the default format: 1 sign bit, 8 exponent bits, 23 fraction bits (R5). Its unit is 2^-149. -/
abbrev binary32 : Format where
  expBits := 8
  fracBits := 23

/-- IEEE 754 binary64, the other format R5 names. Its unit is 2^-1074. -/
abbrev binary64 : Format where
  expBits := 11
  fracBits := 52

/-- A value of a format. `fin neg e m` is the finite value with sign `neg`, biased exponent `e` and fraction `m`. There is one
NaN: the spec gives a NaN no other identity (R7, spec/93_implementation_defined.md U7). -/
inductive Flt (k : Format) where
  | nan
  | inf (neg : Bool)
  | fin (neg : Bool) (e : Fin (k.expTop + 1)) (m : BitVec k.fracBits)
  deriving DecidableEq, Repr

/-- The default `F` (R5): binary32. -/
abbrev F := Flt binary32

namespace Machine

variable {k : Format}

/-! ### Exact values -/

/-- The significand with its hidden bit; a subnormal has none. -/
def significand (e : Fin (k.expTop + 1)) (m : BitVec k.fracBits) : Nat :=
  if e.val = 0 then m.toNat else 2 ^ k.fracBits + m.toNat

/-- The magnitude of a finite value in units of the format, exact. -/
def magnitude (e : Fin (k.expTop + 1)) (m : BitVec k.fracBits) : Nat := significand e m * 2 ^ (e.val - 1)

/-- The integer with a sign and a magnitude. -/
def signedInt (neg : Bool) (n : Nat) : Int := if neg then -(n : Int) else n

/-- The place of a value in the order: a finite value in units of the format, the infinities beyond every finite one, a NaN
none. -/
def rank : Flt k → Option Int
  | .nan => none
  | .inf neg => some (signedInt neg (2 ^ (k.expTop + k.fracBits)))
  | .fin neg e m => some (signedInt neg (magnitude e m))

/-- The comparison `<`, false whenever an operand is a NaN (R5). -/
def fltLt (a b : Flt k) : Bool :=
  match rank a, rank b with
  | some x, some y => decide (x < y)
  | _, _ => false

/-- A finite value. -/
def fltFinite : Flt k → Bool
  | .fin _ _ _ => true
  | .inf _ => false
  | .nan => false

/-! ### Rounding -/

/-- The value with a sign and the exponent and fraction fields read as one number; from the pattern with an exponent field of
all ones on the value is an infinity (overflow). -/
def pack (neg : Bool) (n : Nat) : Flt k :=
  if n < (k.expTop + 1) * 2 ^ k.fracBits then
    .fin neg (Fin.ofNat (k.expTop + 1) (n / 2 ^ k.fracBits)) (BitVec.ofNat k.fracBits n)
  else .inf neg

/-- How far a whole number of units must be scaled down to leave `f` bits after the leading one. -/
def excess (f q : Nat) : Nat := q.log2 - f

/-- `num / den` to the nearest integer, a tie to the even one. -/
def nearestEven (num den : Nat) : Nat :=
  let q := num / den
  let r := num % den
  if 2 * r > den || (2 * r == den && q % 2 == 1) then q + 1 else q

/-- The exponent and fraction fields, read as one number, of the exact magnitude `num / den` (in units) rounded to the nearest
value with `f` fraction bits, ties to even (R5): the rounded significand added to the exponent's multiple of 2^f. A significand
that rounds up to 2^(f+1) carries into the exponent there. -/
def roundPattern (f num den : Nat) : Nat :=
  let x := excess f (num / den)
  x * 2 ^ f + nearestEven num (den * 2 ^ x)

/-- The exact magnitude `num / den` in units, with its sign, rounded once (R5). -/
def roundNearest (neg : Bool) (num den : Nat) : Flt k := pack neg (roundPattern k.fracBits num den)

/-- An exact integer in units, rounded; a zero takes the sign `zeroNeg`. -/
def roundInt (zeroNeg : Bool) (z : Int) : Flt k :=
  if z = 0 then .fin zeroNeg 0 0 else roundNearest (decide (z < 0)) z.natAbs 1

/-! ### Arithmetic (R5) -/

/-- A zero with a sign. -/
def zeroOf (neg : Bool) : Flt k := .fin neg 0 0

/-- Addition. An exact sum of zero is +0 unless both operands are negative zeros. -/
def fltAdd : Flt k → Flt k → Flt k
  | .nan, _ => .nan
  | .inf _, .nan => .nan
  | .inf n, .inf h => if n = h then .inf n else .nan
  | .inf n, .fin _ _ _ => .inf n
  | .fin _ _ _, .nan => .nan
  | .fin _ _ _, .inf h => .inf h
  | .fin n e m, .fin h e' m' =>
    roundInt (n && h) (signedInt n (magnitude e m) + signedInt h (magnitude e' m'))

/-- `fneg`: the sign flipped, exact. -/
def fltNeg : Flt k → Flt k
  | .nan => .nan
  | .inf n => .inf (!n)
  | .fin n e m => .fin (!n) e m

/-- Subtraction: the sum with the negated second operand. -/
def fltSub (a b : Flt k) : Flt k := fltAdd a (fltNeg b)

/-- Multiplication; the exact product of two finite values is in units squared. -/
def fltMul : Flt k → Flt k → Flt k
  | .nan, _ => .nan
  | .inf _, .nan => .nan
  | .inf n, .inf h => .inf (n != h)
  | .inf n, .fin h e m => if magnitude e m = 0 then .nan else .inf (n != h)
  | .fin _ _ _, .nan => .nan
  | .fin n e m, .inf h => if magnitude e m = 0 then .nan else .inf (n != h)
  | .fin n e m, .fin h e' m' => roundNearest (n != h) (magnitude e m * magnitude e' m') (2 ^ k.unit)

/-- Division; a non-zero finite value over a zero is an infinity, zero over zero a NaN. -/
def fltDiv : Flt k → Flt k → Flt k
  | .nan, _ => .nan
  | .inf _, .nan => .nan
  | .inf _, .inf _ => .nan
  | .inf n, .fin h _ _ => .inf (n != h)
  | .fin _ _ _, .nan => .nan
  | .fin n _ _, .inf h => zeroOf (n != h)
  | .fin n e m, .fin h e' m' =>
    if magnitude e' m' = 0 then (if magnitude e m = 0 then .nan else .inf (n != h))
    else roundNearest (n != h) (magnitude e m * 2 ^ k.unit) (magnitude e' m')

/-! ### Between formats -/

/-- A value of one format as a value of another: exact where the other has it, else rounded once. -/
def convert (k' : Format) : Flt k → Flt k'
  | .nan => .nan
  | .inf neg => .inf neg
  | .fin neg e m => roundNearest neg (magnitude e m * 2 ^ k'.unit) (2 ^ k.unit)

/-- The value of a format nearest to a non-negative fraction. -/
def nearestTo (num den : Nat) : Flt k := roundNearest false (num * 2 ^ k.unit) den

end Machine

end Sys2Proof
end

