-- ==== Sys2Proof/Machine/Binary32.lean ====
section
/-! DEFINITION. Patterns of binary32, the default `F` (spec/00_scope.md R5, R7): `f32` reads a pattern as a value and `bits32`
gives one back. -/

namespace Sys2Proof.Machine

/-- Bit 31: the sign. -/
def signBit (u : Word32) : Bool := u.getLsbD 31

/-- Bits 30:23: the biased exponent. -/
def expField (u : Word32) : BitVec 8 := u.extractLsb' 23 8

/-- Bits 22:0: the fraction. -/
def fracField (u : Word32) : BitVec 23 := u.extractLsb' 0 23

/-- A NaN pattern: exponent field all ones, fraction not zero (U7). -/
def isNanPattern (u : Word32) : Bool := expField u == 0xFF && fracField u != 0

/-- `f32(u)`: the value of a 32-bit pattern (R7); every pattern has one (R43). -/
def f32 (u : Word32) : F :=
  if h : (expField u).toNat < 255 then .fin (signBit u) ⟨(expField u).toNat, h⟩ (fracField u)
  else if fracField u = 0 then .inf (signBit u)
  else .nan

/-- The sign as one bit. -/
def signField (neg : Bool) : BitVec 1 := if neg then 1 else 0

/-- A NaN pattern made of any pattern: the pattern itself where it is one (so that every NaN pattern can come out),
else one of them. -/
def nanPattern (u : Word32) : Word32 := if isNanPattern u then u else 0x7FC00000

/-- `bits32(v)`: the inverse of `f32`; for a NaN any NaN pattern, picked by the free value `free` (R7, U7). -/
def bits32 (free : Word32) : F → Word32
  | .nan => nanPattern free
  | .inf neg => signField neg ++ (0xFF : BitVec 8) ++ (0 : BitVec 23)
  | .fin neg e m => signField neg ++ BitVec.ofNat 8 e.val ++ m

end Sys2Proof.Machine
end

