-- ==== Sys2Proof/Machine/Elementary.lean ====
section
/-! DEFINITION. The elementary functions of the default `NUM`, for binary32, correctly rounded (spec/00_scope.md R6): sine and cosine of an argument
in radians, and two to the power of the argument. Each is computed as an ENCLOSURE, two integers over a power of two with
the exact real result between them, and both ends are rounded by the one rounding of R5: where they round alike (the exact
result is then rounded alike too) that is the answer. Where an enclosure of 2^-280 or narrower does not tell two neighbours apart,
the answer is one of the two, by a free choice `tie` (assumption log 7). -/

namespace Sys2Proof

/-- The elementary functions, as a name for the free choice's argument. -/
inductive Elem where
  | sin | cos | exp2
  deriving DecidableEq, Repr

namespace Machine

/-- An enclosure: some real number `r` with `lo ≤ r · 2^p ≤ hi`. -/
structure Enclosure where
  lo : Int
  hi : Int
  p : Nat
  deriving DecidableEq, Repr

/-- `z / 2^p` rounded to a value of `F`. -/
def roundScaled (z : Int) (p : Nat) : F :=
  if z = 0 then zeroOf false else roundNearest (decide (z < 0)) (z.natAbs * 2 ^ 149) (2 ^ p)

/-- The value of `F` an enclosure names. -/
def roundEnclosure (tie : Bool) (d : Enclosure) : F :=
  let below := roundScaled d.lo d.p
  let above := roundScaled d.hi d.p
  if below = above then below else if tie then above else below

/-! ### Power series with `p` binary places -/

/-- The terms `y^j / j!` scaled by 2^p, each cut down to an integer, for `n` terms from the `j`-th, `t` being the `j`-th.
`y` stands scaled by 2^p too. -/
def seriesTerms (y p : Nat) : Nat → Nat → Nat → List Nat
  | 0, _, _ => []
  | n + 1, j, t => t :: seriesTerms y p n (j + 1) (t * y / (2 ^ p * (j + 1)))

/-- The sum of the terms: the exponential. -/
def sumTerms : List Nat → Nat
  | [] => 0
  | t :: ts => t + sumTerms ts

/-- The terms taken with the signs of the powers of the imaginary unit: cosine (terms 0, 2, ...) and sine (terms
1, 3, ...). -/
def turnTerms : List Nat → Int × Int
  | [] => (0, 0)
  | t :: ts =>
    let r := turnTerms ts
    ((t : Int) - r.2, r.1)

/-- How many terms are taken: the rest is below 2^-400 for an argument below 1. -/
def termCount : Nat := 96

/-! ### Two to the power (R6) -/

/-- Binary places of `exp2`'s enclosure. -/
def exp2Places : Nat := 320

/-- The natural logarithm of 2 in `exp2Places` binary places, cut down: the sum of 1/(i·2^i), `n` terms from the `i`-th,
each cut down. -/
def ln2Sum : Nat → Nat → Nat
  | 0, _ => 0
  | n + 1, i => 2 ^ exp2Places / (i * 2 ^ i) + ln2Sum n (i + 1)

/-- ln 2, within 2^-310. -/
def ln2 : Nat := ln2Sum 330 1

/-- The enclosure of 2^(fr/2^149) for `fr` below 2^149: the series at fr·ln 2, with all that the cutting down can lose
allowed for above. -/
def exp2Frac (fr : Nat) : Enclosure :=
  let a := sumTerms (seriesTerms (fr * ln2 / 2 ^ 149) exp2Places termCount 0 (2 ^ exp2Places))
  { lo := a, hi := a + 2 ^ 12, p := exp2Places }

/-- An enclosure times 2^k. -/
def scaleEnclosure (k : Int) (d : Enclosure) : Enclosure :=
  { lo := d.lo * 2 ^ k.toNat, hi := d.hi * 2 ^ k.toNat, p := d.p + (-k).toNat }

/-- 2^x for `x = n · 2^-149`: whole part `k` and the rest. Below -150 the result is less than half the least subnormal
and rounds to +0; from 128 it exceeds the largest finite value by more than its last place and rounds to an infinity. A
whole exponent has an exact result. -/
def exp2Int (tie : Bool) (n : Int) : F :=
  let k := n / 2 ^ 149
  let fr := (n % 2 ^ 149).toNat
  if k < -150 then zeroOf false
  else if 128 ≤ k then .inf false
  else if fr = 0 then roundNearest false (2 ^ (k + 150).toNat) 2
  else roundEnclosure tie (scaleEnclosure k (exp2Frac fr))

/-- `fexp2`: +Inf on overflow, a subnormal or +0 on underflow, NaN for a NaN (R6). -/
def fltExp2 (tie : Bool) : F → F
  | .nan => .nan
  | .inf true => zeroOf false
  | .inf false => .inf false
  | .fin neg e m => exp2Int tie (signedInt neg (magnitude e m))

/-! ### Sine and cosine (R6) -/

/-- How often the argument `n · 2^-149` is halved to bring it below 1/8. -/
def halvings (n : Nat) : Nat := n.log2 + 1 - 146

/-- Binary places carried for `h` halvings: each doubling of the angle costs two. -/
def anglePlaces (h : Nat) : Nat := 300 + 2 * h

/-- Cosine and sine of an angle from those of its half, `h` times: cos 2y = 2 cos² y - 1, sin 2y = 2 sin y cos y. -/
def doubleAngle (p : Nat) : Nat → Int × Int → Int × Int
  | 0, cs => cs
  | h + 1, cs => doubleAngle p h (2 * cs.1 * cs.1 / 2 ^ p - 2 ^ p, 2 * cs.2 * cs.1 / 2 ^ p)

/-- Cosine and sine of `n · 2^-149`, each scaled by 2^p with `p` its places. -/
def cosSin (n : Nat) : Int × Int :=
  let h := halvings n
  let p := anglePlaces h
  doubleAngle p h (turnTerms (seriesTerms (n * 2 ^ (p - 149 - h)) p termCount 0 (2 ^ p)))

/-- The enclosure about a computed value, with what the cutting down can lose allowed for on both sides, and cut to
[-1, 1], where every sine and cosine lies. -/
def unitEnclosure (h : Nat) (a : Int) : Enclosure :=
  let p := anglePlaces h
  { lo := max (-2 ^ p) (a - 2 ^ (2 * h + 12)), hi := min (2 ^ p) (a + 2 ^ (2 * h + 12)), p := p }

/-- The sign turned where asked. -/
def signedF (neg : Bool) (a : F) : F := if neg then fltNeg a else a

/-- `fsin`: NaN for an infinity or a NaN (R6); the sine of a zero is that zero. -/
def fltSin (tie : Bool) : F → F
  | .nan => .nan
  | .inf _ => .nan
  | .fin neg e m =>
    let n := magnitude e m
    if n = 0 then zeroOf neg
    else signedF neg (roundEnclosure tie (unitEnclosure (halvings n) (cosSin n).2))

/-- `fcos`: NaN for an infinity or a NaN (R6); the cosine of a zero is exactly 1. -/
def fltCos (tie : Bool) : F → F
  | .nan => .nan
  | .inf _ => .nan
  | .fin _ e m =>
    let n := magnitude e m
    if n = 0 then pack false (127 * 2 ^ 23)
    else roundEnclosure tie (unitEnclosure (halvings n) (cosSin n).1)

end Machine

end Sys2Proof
end

