-- ==== Sys2Proof/Machine/State.lean ====
section
/-! DEFINITION. The state of the machine: the BFU's sixteen fields (spec/10_state.md R10), the port it is driven through
(spec/00_scope.md R8, spec/30_encoding.md R44), the reasons a step could stop, and the state after reset (R28,
spec/70_reset_and_hazards.md R120). -/

namespace Sys2Proof.Machine

/-- `FT`, the filter type (R14): 0 selects the low-pass design, 1 the high-pass design. -/
inductive FilterType where
  | lowPass
  | highPass
  deriving DecidableEq, Repr

/-- The complete architectural state of the BFU (R10): exactly these sixteen fields. `V` is the number format
`F` of the configuration (spec/00_scope.md R5), whose values twelve of them hold. -/
structure BfuOf (V : Type) where
  /-- `CFG`: constructed by a successful INIT (R12). -/
  cfg : Bool
  /-- `FLT`: a fault has been taken; sticky (R13). -/
  flt : Bool
  /-- `FT`: the filter type (R14). -/
  ft : FilterType
  /-- `CAUSE`: the code of the first fault taken, else 0 (R13). -/
  cause : BitVec 8
  /-- `CUT`: base cutoff in hertz (R15). -/
  cut : V
  /-- `Q`: base Q (R16). -/
  q : V
  /-- `CUTMOD`: accumulated cutoff modulation in semitones (R17). -/
  cutmod : V
  /-- `QMOD`: accumulated Q modulation (R18). -/
  qmod : V
  /-- `XL1`: left channel, the most recent input (R19). -/
  xl1 : V
  /-- `XL2`: left channel, the input before it (R19). -/
  xl2 : V
  /-- `YL1`: left channel, the most recent output (R19). -/
  yl1 : V
  /-- `YL2`: left channel, the output before it (R19). -/
  yl2 : V
  /-- `XR1`: right channel, the most recent input (R20). -/
  xr1 : V
  /-- `XR2`: right channel, the input before it (R20). -/
  xr2 : V
  /-- `YR1`: right channel, the most recent output (R20). -/
  yr1 : V
  /-- `YR2`: right channel, the output before it (R20). -/
  yr2 : V
  deriving DecidableEq, Repr

/-- The unit of the machine, under the default format. -/
abbrev Bfu := BfuOf F

/-- What the host does to the unit: issue a command word, or reset it, an event outside the command stream (R8, R120,
R134). -/
inductive HostAct where
  | command (w : CmdWord)
  | reset
  deriving DecidableEq, Repr

/-- The port (DESIGN CHOICE, assumption log 1): the host's acts still to come, oldest first (the list of command words of
R27 and R124), and the response words produced, newest first (R44). Neither is BFU state. -/
structure Port where
  pending : List HostAct
  responses : List RspWord
  deriving DecidableEq, Repr

/-- The machine: the unit and its port. -/
structure State where
  bfu : Bfu
  port : Port
  deriving DecidableEq, Repr

/-- Why the machine would stop without a next state. -/
inductive Fault where
  /-- No state lacks a successor (spec/60_exceptions.md R112: "There is no stuck outcome and no hang"). NOBODY raises
  this: the three faults of R100 are NEXT states (fault entry, R106). Safe. -/
  | stuck
  deriving DecidableEq, Repr

/-- Why an instruction would be given no meaning. -/
inductive Refusal where
  /-- An arm of `exec` that has no meaning yet would raise this; no arm does. The refused RESPONSE of R107 is a NEXT state.
  Safe. -/
  | notModelled (mnemonic : String)
  deriving DecidableEq, Repr

/-- The value `+0.0` of every `F` register after reset (R28). -/
def posZero : F := .fin false 0 0

/-- The unit after reset (R28, R120), `zero` being the format's `+0.0`. -/
def BfuOf.reset {V : Type} (zero : V) : BfuOf V where
  cfg := false
  flt := false
  ft := .lowPass
  cause := 0
  cut := zero
  q := zero
  cutmod := zero
  qmod := zero
  xl1 := zero
  xl2 := zero
  yl1 := zero
  yl2 := zero
  xr1 := zero
  xr2 := zero
  yr1 := zero
  yr2 := zero

/-- The machine's unit after reset. -/
def Bfu.reset : Bfu := BfuOf.reset posZero

/-- The machine right after reset, nothing issued to it and nothing answered (R120; assumption log 1). -/
def State.reset : State where
  bfu := Bfu.reset
  port := { pending := [], responses := [] }

end Sys2Proof.Machine
end

