-- ==== Sys2Proof/Config.lean ====
section
/-! DEFINITION. The configuration record CFG_BFU with its numeric configuration NUM (spec/00_scope.md R4, R5, R6), fixed
during a run and no part of the state (spec/10_state.md R29), and the free values of the model. `V` is the number format `F`,
a parameter like the rest (R5, spec/93_implementation_defined.md U2). The default values stand in Machine/Defaults.lean. -/

namespace Sys2Proof.Config

/-- `NUM` (R5, R6): a number format, the type `V` of its values, with its operations. -/
structure Num (V : Type) where
  /-- `f32(u)`: the value of a 32-bit pattern (R7). -/
  f32 : Word32 → V
  /-- `bits32(v)`, its inverse; the first argument is the pattern it may answer where the spec leaves one open (R7, U7). -/
  bits32 : Word32 → V → Word32
  fadd : V → V → V
  fsub : V → V → V
  fmul : V → V → V
  fdiv : V → V → V
  /-- Sign flip, exact. -/
  fneg : V → V
  /-- The comparison `<`, false on a NaN. -/
  lt : V → V → Bool
  fsin : V → V
  fcos : V → V
  fexp2 : V → V
  /-- Neither an infinity nor a NaN. -/
  finite : V → Bool
  /-- `ZERO`, +0.0 (R7), which reset and INIT write. -/
  zero : V
  /-- `ONE`, 1.0. -/
  one : V
  /-- `TWO`, 2.0. -/
  two : V
  /-- `NEG_TWO`, -2.0. -/
  negTwo : V
  /-- `TWELVE`, 12.0. -/
  twelve : V
  /-- `TWO_PI`, the value of the format nearest to 2π. -/
  twoPi : V

/-- `CFG_BFU` (R4). -/
structure Cfg (V : Type) where
  num : Num V
  /-- `FS`, the sample rate in hertz. -/
  fs : V
  /-- `F_LO`, the lower cutoff clamp. -/
  fLo : V
  /-- `F_HI`, the upper cutoff clamp. -/
  fHi : V
  /-- `Q_MIN`, the lower Q clamp. -/
  qMin : V
  /-- `Q_MAX`, the upper Q clamp. -/
  qMax : V
  /-- `CUT_INIT`, the base cutoff after INIT. -/
  cutInit : V
  /-- `Q_INIT`, the base Q after INIT. -/
  qInit : V

variable {V : Type}

/-- `a <= b` for finite values. -/
def atMost (n : Num V) (a b : V) : Bool := n.finite a && n.finite b && !n.lt b a

/-- The constraints of R4's table, premises of every rule that uses the field: `FS` finite with `FS/2 > F_HI`;
`0 < Q_MIN <= Q_MAX`, finite; `CUT_INIT` and `Q_INIT` inside their clamps. -/
def admitted (c : Cfg V) : Bool :=
  c.num.finite c.fs && c.num.lt c.fHi (c.num.fdiv c.fs c.num.two) &&
  c.num.lt c.num.zero c.qMin && atMost c.num c.qMin c.qMax &&
  atMost c.num c.fLo c.cutInit && atMost c.num c.cutInit c.fHi &&
  atMost c.num c.qMin c.qInit && atMost c.num c.qInit c.qMax

/-- Which result field of a response word a value is for. -/
inductive Result where
  | ra | rb
  deriving DecidableEq, Repr

/-- FREE VALUE (assumption log 4): the pattern a result is answered with where the spec leaves one open: for a NaN any NaN
pattern ("bits32 may return any NaN pattern", spec/00_scope.md R7, spec/93_implementation_defined.md U7; `nanPattern` makes it
one), and under binary64 for a value that no 32-bit pattern reads as, any (assumption log 16). The response is a function of the state and the command (R8, spec/43_evaluation.md R93), so it is free in those and in
the result field, and in nothing else. -/
opaque freeNan {V : Type} : Machine.BfuOf V → Instr → Result → Word32

/-- FREE VALUE (assumption log 7): which of two neighbouring values an elementary function answers at an operand where its
enclosure does not tell them apart. The functions depend "on their operand alone" (R6). -/
opaque freeTie : Elem → F → Bool

end Sys2Proof.Config
end

