-- ==== Sys2Proof/Machine/Defaults.lean ====
section
/-! DEFINITION. The default configuration (spec/00_scope.md R4 to R6): binary32 with correctly rounded elementary
functions, FS = 44100, the cutoff clamp [5, 20000], the Q clamp [0.1, 20], CUT_INIT = 1000, Q_INIT = 0.707. The machine
runs under this record; another configuration is another value of `cfg`, or another argument of the operations that take one. -/

namespace Sys2Proof.Machine

/-- The `NUM` of a format (R5) from what the format alone does not give: how a pattern is read and a value written (R7), the
value nearest to 2π, and the elementary functions, which are configuration functions (R6). -/
def numOf (k : Format) (read : Word32 → Flt k) (write : Word32 → Flt k → Word32) (twoPi : Flt k)
    (fsin fcos fexp2 : Flt k → Flt k) : Config.Num (Flt k) where
  f32 := read
  bits32 := write
  fadd := fltAdd
  fsub := fltSub
  fmul := fltMul
  fdiv := fltDiv
  fneg := fltNeg
  lt := fltLt
  fsin := fsin
  fcos := fcos
  fexp2 := fexp2
  finite := fltFinite
  zero := read 0x00000000
  one := read 0x3F800000
  two := read 0x40000000
  negTwo := read 0xC0000000
  twelve := read 0x41400000
  twoPi := twoPi

/-- The default `NUM` (R5, R6). -/
def num32 : Config.Num F :=
  numOf binary32 f32 bits32 (f32 0x40C90FDB) (fun x => fltSin (Config.freeTie .sin x) x)
    (fun x => fltCos (Config.freeTie .cos x) x) (fun x => fltExp2 (Config.freeTie .exp2 x) x)

/-- The default `CFG_BFU` (R4), each value by the pattern the table of R4 gives. -/
def cfg : Config.Cfg F where
  num := num32
  fs := f32 0x472C4400
  fLo := f32 0x40A00000
  fHi := f32 0x469C4000
  qMin := f32 0x3DCCCCCD
  qMax := f32 0x41A00000
  cutInit := f32 0x447A0000
  qInit := f32 0x3F34FDF4

end Sys2Proof.Machine
end

