-- ==== Sys2Proof/Machine/Ops.lean ====
section
/-! DEFINITION. The operations every instruction is written over: the reply of a command (its response and the unit it leaves),
fault entry and refusal (spec/60_exceptions.md R105 to R107), the two channels' registers, the port (fetching the next act of
the host, delivering a reply), and reset (spec/70_reset_and_hazards.md R120). A command is a function of the configuration, the
unit and the command word to a reply (spec/00_scope.md R8), for any number format `V`; the machine delivers the reply. -/

namespace Sys2Proof.Machine

variable {V : Type}

/-- The outcome of one step; every outcome the spec has (R112: Ok, Fault, Refused) is a next state with its response. -/
abbrev Out := Host.Outcome State Fault Refusal

/-! ### Replies (spec/00_scope.md R8, spec/30_encoding.md R44) -/

/-- `State x ResponseWord`, what the step function of R8 answers: the unit a command leaves and its one response word. -/
structure Reply (V : Type) where
  bfu : BfuOf V
  word : RspWord
  deriving DecidableEq, Repr

/-- Status `OK`. -/
def statusOk : BitVec 8 := 0x00

/-- Status `REFUSED`. -/
def statusRefused : BitVec 8 := 0xFF

/-- `st ++ ra ++ rb`. -/
def responseWord (st : BitVec 8) (ra rb : Word32) : RspWord := st ++ ra ++ rb

/-- `respond(st, ra, rb)` (R7) by a command that leaves the unit as `b`. -/
def respond (st : BitVec 8) (ra rb : Word32) (b : BfuOf V) : Reply V := { bfu := b, word := responseWord st ra rb }

/-- The end of a command that succeeds: the unit becomes `b`, the response is OK with the two results. -/
def complete (b : BfuOf V) (ra rb : Word32) : Reply V := respond statusOk ra rb b

/-! ### Faults (R100, R106, R107) -/

/-- The three synchronous faults (R100). -/
inductive Cause where
  | configError
  | illegalCommand
  | notConfigured
  deriving DecidableEq, Repr

/-- The cause code (R100), which is the response's status too (R44). -/
def causeCode : Cause → BitVec 8
  | .configError => 1
  | .illegalCommand => 2
  | .notConfigured => 3

/-- FAULT ENTRY, `raise <Fault>(code)` (R106): FLT and CAUSE are written and nothing else; the response carries the code. -/
def raise (k : Cause) (b : BfuOf V) : Reply V :=
  respond (causeCode k) 0 0 { b with flt := true, cause := causeCode k }

/-- A command refused by a faulted unit (R107): no state change, response `0xFF`, `zext_32(CAUSE)`, 0. -/
def refuse (b : BfuOf V) : Reply V := respond statusRefused (b.cause.setWidth 32) 0 b

/-! ### The common check sequence (R105), steps 2 to 4 -/

/-- Step 2, for every command but NOP and RDREG: a faulted unit refuses it. -/
def whenUnfaulted (b : BfuOf V) (run : Reply V) : Reply V :=
  if b.flt then refuse b else run

/-- Steps 2 and 4, for the eight commands that need a constructed unit (R103). -/
def whenConfigured (b : BfuOf V) (run : Reply V) : Reply V :=
  whenUnfaulted b (if b.cfg then run else raise .notConfigured b)

/-- Steps 2 and 3, for a word that decodes to `Illegal` (R102). -/
def illegalWord (b : BfuOf V) : Reply V := whenUnfaulted b (raise .illegalCommand b)

/-! ### The two channels' registers (spec/10_state.md R19, R20) -/

/-- One channel's state `(x1, x2, y1, y2)`. -/
structure Delay (V : Type) where
  x1 : V
  x2 : V
  y1 : V
  y2 : V
  deriving DecidableEq, Repr

/-- The four registers of a channel. -/
def getDelay (b : BfuOf V) : Channel → Delay V
  | .left => { x1 := b.xl1, x2 := b.xl2, y1 := b.yl1, y2 := b.yl2 }
  | .right => { x1 := b.xr1, x2 := b.xr2, y1 := b.yr1, y2 := b.yr2 }

/-- The four registers of a channel, written together. -/
def setDelay (b : BfuOf V) (d : Delay V) : Channel → BfuOf V
  | .left => { b with xl1 := d.x1, xl2 := d.x2, yl1 := d.y1, yl2 := d.y2 }
  | .right => { b with xr1 := d.x1, xr2 := d.x2, yr1 := d.y1, yr2 := d.y2 }

/-- A channel at rest: `+0.0` in its four registers. -/
def restDelay (zero : V) : Delay V := { x1 := zero, x2 := zero, y1 := zero, y2 := zero }

/-! ### The port and reset of the machine -/

/-- A reply delivered: the machine's unit is what the command left, and its response is put on the port. -/
def deliver (s : State) (r : Reply F) : Out :=
  .next { bfu := r.bfu, port := { s.port with responses := r.word :: s.port.responses } }

/-- The host's next act and the machine with it taken; none while the host has issued nothing, when the unit is idle
(spec/60_exceptions.md R109). -/
def fetch (s : State) : Option (HostAct × State) :=
  match s.port.pending with
  | [] => none
  | act :: rest => some (act, { s with port := { s.port with pending := rest } })

/-- A word put on the port as the host's next act. -/
def issue (w : CmdWord) (s : State) : State :=
  { s with port := { s.port with pending := .command w :: s.port.pending } }

/-- Reset (R120): every piece of BFU state takes its reset value. It is no command, so it has no response, and it leaves the
port's words where they are. -/
def resetUnit (s : State) : State := { s with bfu := Bfu.reset }

end Sys2Proof.Machine
end

