-- ==== Sys2Proof/Machine/Flags.lean ====
section
/-! DEFINITION. The status register (spec/10_state.md R11): a 32-bit read-only view assembled from the flags and the cause
code. The BFU has no arithmetic flag: no instruction computes one (R104). -/

namespace Sys2Proof.Machine

/-- A flag as one bit. -/
def flagBit (f : Bool) : BitVec 1 := if f then 1 else 0

/-- `FT` as one bit (R14). -/
def filterBit : FilterType → BitVec 1
  | .lowPass => 0
  | .highPass => 1

/-- `STATUS`: CFG in bit 0, FLT in bit 1, FT in bit 2, CAUSE in bits 15:8, the reserved bits 7:3 and 31:16 zero (R11). -/
def statusWord {V : Type} (b : BfuOf V) : Word32 :=
  (0 : BitVec 16) ++ b.cause ++ (0 : BitVec 5) ++ filterBit b.ft ++ flagBit b.flt ++ flagBit b.cfg

end Sys2Proof.Machine
end

