-- ==== Sys2Proof/Machine/Operands.lean ====
section
/-! DEFINITION. Operand forms: a value operand is read with the format's `f32` (spec/00_scope.md R7), a filter-type tag is 0 or 1
(spec/40_construction_parameters.md R60), and a result value goes out through `bits32` (spec/00_scope.md R7). -/

namespace Sys2Proof.Machine

/-- The filter type of INIT's tag: 0 low-pass, 1 high-pass, and no other (R60, R101). -/
def filterOf (tag : Word32) : Option FilterType :=
  if tag = 0 then some .lowPass
  else if tag = 1 then some .highPass
  else none

/-- `bits32(v)` for result field `k` of the response to instruction `i` of the unit `b`; a NaN's pattern is free (U7). -/
def resultBits {V : Type} (c : Config.Cfg V) (b : BfuOf V) (i : Instr) (k : Config.Result) (v : V) : Word32 :=
  c.num.bits32 (Config.freeNan b i k) v

end Sys2Proof.Machine
end

