-- ==== Sys2Proof/Machine/Design.lean ====
section
/-! DEFINITION. The functions between the registers and the coefficients: `clamp` and `fmin_ny` (spec/00_scope.md R7), the
effective cutoff and Q (spec/41_modulation.md R74, R75) and the coefficient design (spec/42_coefficient_design.md R80 to
R82), each by exactly the operations the rule lists, in its order, for any configuration `c` of any number format `V`. -/

namespace Sys2Proof.Machine

open Sys2Proof.Config (Cfg)

variable {V : Type}

/-! ### Clamps (R7) -/

/-- `clamp(v, lo, hi)`; a NaN passes both comparisons and comes out. -/
def clamp (c : Cfg V) (v lo hi : V) : V :=
  if c.num.lt v lo then lo else if c.num.lt hi v then hi else v

/-- `fmin_ny(f, ny)`. -/
def minNyquist (c : Cfg V) (f ny : V) : V :=
  if c.num.lt ny f then ny else f

/-! ### Effective parameters -/

/-- `EffCut(CUT, CUTMOD)` (R74). -/
def effCut (c : Cfg V) (cut cutmod : V) : V :=
  let e := c.num.fdiv cutmod c.num.twelve
  let g := c.num.fexp2 e
  let f := c.num.fmul cut g
  let ny := c.num.fdiv c.fs c.num.two
  let fn := minNyquist c f ny
  clamp c fn c.fLo c.fHi

/-- `EffQ(Q, QMOD)` (R75). -/
def effQ (c : Cfg V) (q qmod : V) : V :=
  clamp c (c.num.fadd q qmod) c.qMin c.qMax

/-! ### Coefficients -/

/-- The five normalised coefficients; `a0` is 1 (R80, R83). -/
structure Coeffs (V : Type) where
  b0 : V
  b1 : V
  b2 : V
  a1 : V
  a2 : V
  deriving DecidableEq, Repr

/-- The numerator's `t`: `1 - cos w0` for the low-pass (R81), `1 + cos w0` for the high-pass (R82). -/
def numeratorBase (c : Cfg V) (ft : FilterType) (cw : V) : V :=
  match ft with
  | .lowPass => c.num.fsub c.num.one cw
  | .highPass => c.num.fadd c.num.one cw

/-- The numerator's `b1` before it is normalised: `t` for the low-pass (R81), `-t` for the high-pass (R82). -/
def numeratorMid (c : Cfg V) (ft : FilterType) (t : V) : V :=
  match ft with
  | .lowPass => t
  | .highPass => c.num.fneg t

/-- `Design(ft, fc, q)` (R80, with the numerator of R81 or R82). -/
def design (c : Cfg V) (ft : FilterType) (fc q : V) : Coeffs V :=
  let w0 := c.num.fdiv (c.num.fmul c.num.twoPi fc) c.fs
  let cw := c.num.fcos w0
  let sw := c.num.fsin w0
  let alpha := c.num.fdiv sw (c.num.fmul c.num.two q)
  let a0u := c.num.fadd c.num.one alpha
  let a1 := c.num.fdiv (c.num.fmul c.num.negTwo cw) a0u
  let a2 := c.num.fdiv (c.num.fsub c.num.one alpha) a0u
  let t := numeratorBase c ft cw
  let b1 := c.num.fdiv (numeratorMid c ft t) a0u
  let b0 := c.num.fdiv (c.num.fdiv t c.num.two) a0u
  { b0 := b0, b1 := b1, b2 := b0, a1 := a1, a2 := a2 }

/-! ### Derived registers (spec/10_state.md R22 to R25) -/

/-- `ECUT` (R22). -/
def ecutOf (c : Cfg V) (b : BfuOf V) : V := effCut c b.cut b.cutmod

/-- `EQ` (R23). -/
def eqOf (c : Cfg V) (b : BfuOf V) : V := effQ c b.q b.qmod

/-- `B0, B1, B2, A1, A2` (R24): the design at the registers as they stand, for both channels. -/
def coeffsOf (c : Cfg V) (b : BfuOf V) : Coeffs V := design c b.ft (ecutOf c b) (eqOf c b)

end Sys2Proof.Machine
end

