-- ==== Sys2Proof/Machine/Construction.lean ====
section
/-! DEFINITION. Construction and base parameters: INIT, SETCUT, SETQ (spec/40_construction_parameters.md R60 to R62), each
first on a unit under any configuration (spec/10_state.md R29), then on the machine under its own. -/

namespace Sys2Proof.Machine

open Sys2Proof.Config (Cfg)

variable {V : Type}

/-- The unit constructed afresh as filter type `t` (R60): defaults in the parameters, `+0.0` in the accumulators and in the
filter state, CFG set. -/
def construct (c : Cfg V) (t : FilterType) (b : BfuOf V) : BfuOf V :=
  setDelay (setDelay
    { b with ft := t, cut := c.cutInit, q := c.qInit, cutmod := c.num.zero, qmod := c.num.zero, cfg := true }
    (restDelay c.num.zero) .left) (restDelay c.num.zero) .right

/-- INIT t under any configuration (R60): needs no configured unit; an unknown tag takes ConfigError before any register is
written (R101). -/
def initUnder (c : Cfg V) (tag : Word32) (b : BfuOf V) : Reply V :=
  whenUnfaulted b
    (match filterOf tag with
    | some t => complete (construct c t b) 0 0
    | none => raise .configError b)

/-- SETCUT v under any configuration (R61): CUT takes the clamped operand. -/
def setcutUnder (c : Cfg V) (v : Word32) (b : BfuOf V) : Reply V :=
  whenConfigured b (complete { b with cut := clamp c (c.num.f32 v) c.fLo c.fHi } 0 0)

/-- SETQ v under any configuration (R62): Q takes the clamped operand. -/
def setqUnder (c : Cfg V) (v : Word32) (b : BfuOf V) : Reply V :=
  whenConfigured b (complete { b with q := clamp c (c.num.f32 v) c.qMin c.qMax } 0 0)

/-- INIT t. -/
def execInit (tag : Word32) (s : State) : Out := deliver s (initUnder cfg tag s.bfu)

/-- SETCUT v. -/
def execSetcut (v : Word32) (s : State) : Out := deliver s (setcutUnder cfg v s.bfu)

/-- SETQ v. -/
def execSetq (v : Word32) (s : State) : Out := deliver s (setqUnder cfg v s.bfu)

end Sys2Proof.Machine
end

