-- ==== Sys2Proof/Machine/Evaluation.lean ====
section
/-! DEFINITION. Per-sample evaluation: the function BiquadStep and the commands PROC and STEP (spec/43_evaluation.md R90 to
R92), each command first on a unit under any configuration (spec/10_state.md R29), then on the machine under its own. -/

namespace Sys2Proof.Machine

open Sys2Proof.Config (Cfg)

variable {V : Type}

/-- `BiquadStep(c, s, x)` (R90): the output sample and the channel's new state, Direct Form I, nine roundings in this
order. DESIGN CHOICE (assumption log 17): R91's corner case says that after an infinite input every later output is NaN, and
the operations of R90 do not give that always (some later outputs are infinities); R90 is followed. -/
def biquadStep (c : Cfg V) (k : Coeffs V) (d : Delay V) (x : V) : V × Delay V :=
  let p0 := c.num.fmul k.b0 x
  let p1 := c.num.fmul k.b1 d.x1
  let p2 := c.num.fmul k.b2 d.x2
  let p3 := c.num.fmul k.a1 d.y1
  let p4 := c.num.fmul k.a2 d.y2
  let acc1 := c.num.fadd p0 p1
  let acc2 := c.num.fadd acc1 p2
  let acc3 := c.num.fsub acc2 p3
  let y := c.num.fsub acc3 p4
  (y, { x1 := x, x2 := d.x1, y1 := y, y2 := d.y1 })

/-- One channel of the unit stepped with its current coefficients. -/
def stepChannel (c : Cfg V) (b : BfuOf V) (ch : Channel) (x : V) : V × Delay V :=
  biquadStep c (coeffsOf c b) (getDelay b ch) x

/-- PROC l, r under any configuration (R91): each channel's biquad stepped, with the same coefficients; the eight state
registers are written together. -/
def procUnder (c : Cfg V) (l r : Word32) (b : BfuOf V) : Reply V :=
  whenConfigured b
    (let yl := stepChannel c b .left (c.num.f32 l)
     let yr := stepChannel c b .right (c.num.f32 r)
     complete (setDelay (setDelay b yl.2 .left) yr.2 .right)
       (resultBits c b (.proc l r) .ra yl.1) (resultBits c b (.proc l r) .rb yr.1))

/-- STEP c, x under any configuration (R92): one channel's biquad stepped; the other channel is unchanged. -/
def stepUnder (c : Cfg V) (ch : Channel) (x : Word32) (b : BfuOf V) : Reply V :=
  whenConfigured b
    (let y := stepChannel c b ch (c.num.f32 x)
     complete (setDelay b y.2 ch) (resultBits c b (.step ch x) .ra y.1) 0)

/-- PROC l, r. -/
def execProc (l r : Word32) (s : State) : Out := deliver s (procUnder cfg l r s.bfu)

/-- STEP c, x. -/
def execStep (ch : Channel) (x : Word32) (s : State) : Out := deliver s (stepUnder cfg ch x s.bfu)

end Sys2Proof.Machine
end

