-- ==== Sys2Proof/Machine/Housekeeping.lean ====
section
/-! DEFINITION. Housekeeping: NOP and RDREG (spec/44_housekeeping.md R95, R96), with the readback index space
(spec/10_state.md R26, spec/20_memory.md R30). Both run on a faulted unit too (spec/60_exceptions.md R107). Each
stands first on a unit under any configuration (spec/10_state.md R29), then on the machine under its own. -/

namespace Sys2Proof.Machine

open Sys2Proof.Config (Cfg)

variable {V : Type}

/-- The value of a register or derived register on a constructed unit (R26, column `CFG = 1`); `free` is the pattern a NaN
is read as. -/
def configuredReg (c : Cfg V) (free : Word32) (b : BfuOf V) : Reg → Word32
  | .status => statusWord b
  | .cut => c.num.bits32 free b.cut
  | .q => c.num.bits32 free b.q
  | .cutmod => c.num.bits32 free b.cutmod
  | .qmod => c.num.bits32 free b.qmod
  | .ecut => c.num.bits32 free (ecutOf c b)
  | .eq => c.num.bits32 free (eqOf c b)
  | .b0 => c.num.bits32 free (coeffsOf c b).b0
  | .b1 => c.num.bits32 free (coeffsOf c b).b1
  | .b2 => c.num.bits32 free (coeffsOf c b).b2
  | .a0 => 0x3F800000
  | .a1 => c.num.bits32 free (coeffsOf c b).a1
  | .a2 => c.num.bits32 free (coeffsOf c b).a2
  | .xl1 => c.num.bits32 free b.xl1
  | .xl2 => c.num.bits32 free b.xl2
  | .yl1 => c.num.bits32 free b.yl1
  | .yl2 => c.num.bits32 free b.yl2
  | .xr1 => c.num.bits32 free b.xr1
  | .xr2 => c.num.bits32 free b.xr2
  | .yr1 => c.num.bits32 free b.yr1
  | .yr2 => c.num.bits32 free b.yr2

/-- `RegRead(i) = REG[i]` (R96): STATUS always; every other index reads zero while CFG = 0. -/
def regRead (c : Cfg V) (free : Word32) (b : BfuOf V) (i : Reg) : Word32 :=
  if i = .status then statusWord b
  else if b.cfg then configuredReg c free b i
  else 0

/-- NOP under any configuration (R95): responds OK in every state and does nothing. -/
def nopUnder (_c : Cfg V) (b : BfuOf V) : Reply V := complete b 0 0

/-- RDREG i under any configuration (R96): responds the register's value, in every state, and changes nothing. -/
def rdregUnder (c : Cfg V) (i : Reg) (b : BfuOf V) : Reply V :=
  complete b (regRead c (Config.freeNan b (.rdreg i) .ra) b i) 0

/-- NOP. -/
def execNop (s : State) : Out := deliver s (nopUnder cfg s.bfu)

/-- RDREG i. -/
def execRdreg (i : Reg) (s : State) : Out := deliver s (rdregUnder cfg i s.bfu)

end Sys2Proof.Machine
end

