-- ==== Sys2Proof/Machine/Modulation.lean ====
section
/-! DEFINITION. Modulation: MOD.CUT, MOD.Q, MOD.FWD, CLRMOD (spec/41_modulation.md R70 to R73), each first on a unit under any
configuration (spec/10_state.md R29), then on the machine under its own. -/

namespace Sys2Proof.Machine

open Sys2Proof.Config (Cfg)

variable {V : Type}

/-- MOD.CUT v under any configuration (R70): CUTMOD accumulates, one rounding per command. -/
def modCutUnder (c : Cfg V) (v : Word32) (b : BfuOf V) : Reply V :=
  whenConfigured b (complete { b with cutmod := c.num.fadd b.cutmod (c.num.f32 v) } 0 0)

/-- MOD.Q v under any configuration (R71): QMOD accumulates. -/
def modQUnder (c : Cfg V) (v : Word32) (b : BfuOf V) : Reply V :=
  whenConfigured b (complete { b with qmod := c.num.fadd b.qmod (c.num.f32 v) } 0 0)

/-- MOD.FWD t, v under any configuration (R72): a request of a type the BFU does not own; no register is read or written. -/
def modFwdUnder (_c : Cfg V) (_tag _v : Word32) (b : BfuOf V) : Reply V := whenConfigured b (complete b 0 0)

/-- CLRMOD under any configuration (R73): both accumulators cleared. -/
def clrmodUnder (c : Cfg V) (b : BfuOf V) : Reply V :=
  whenConfigured b (complete { b with cutmod := c.num.zero, qmod := c.num.zero } 0 0)

/-- MOD.CUT v. -/
def execModCut (v : Word32) (s : State) : Out := deliver s (modCutUnder cfg v s.bfu)

/-- MOD.Q v. -/
def execModQ (v : Word32) (s : State) : Out := deliver s (modQUnder cfg v s.bfu)

/-- MOD.FWD t, v. -/
def execModFwd (tag v : Word32) (s : State) : Out := deliver s (modFwdUnder cfg tag v s.bfu)

/-- CLRMOD. -/
def execClrmod (s : State) : Out := deliver s (clrmodUnder cfg s.bfu)

end Sys2Proof.Machine
end

