-- ==== Sys2Proof/Machine/Dispatch.lean ====
section
/-! DEFINITION. `exec`: one arm per constructor of `Instr`, each one call of that instruction's meaning. -/

namespace Sys2Proof.Machine

def exec (i : Instr) (s : State) : Host.Outcome State Fault Refusal :=
  match i with
  | .nop => Sys2Proof.Machine.execNop s
  | .init tag => Sys2Proof.Machine.execInit tag s
  | .setcut v => Sys2Proof.Machine.execSetcut v s
  | .setq v => Sys2Proof.Machine.execSetq v s
  | .modCut v => Sys2Proof.Machine.execModCut v s
  | .modQ v => Sys2Proof.Machine.execModQ v s
  | .modFwd tag v => Sys2Proof.Machine.execModFwd tag v s
  | .clrmod => Sys2Proof.Machine.execClrmod s
  | .proc l r => Sys2Proof.Machine.execProc l r s
  | .step c x => Sys2Proof.Machine.execStep c x s
  | .rdreg r => Sys2Proof.Machine.execRdreg r s

end Sys2Proof.Machine
end

