-- ==== Sys2Proof/Machine/Command.lean ====
section
/-! DEFINITION. One act of the host, taken whole (spec/00_scope.md R8): a command word is decoded and handled by the check
sequence of spec/60_exceptions.md R105; a reset is taken (spec/70_reset_and_hazards.md R120). -/

namespace Sys2Proof.Machine

open Sys2Proof.Config (Cfg)

/-- An instruction on a unit under any configuration: `exec` is this under the machine's, delivered (spec/10_state.md R29: the
configuration is a parameter of the step function). -/
def instrUnder {V : Type} (c : Cfg V) (i : Instr) (b : BfuOf V) : Reply V :=
  match i with
  | .nop => nopUnder c b
  | .init tag => initUnder c tag b
  | .setcut v => setcutUnder c v b
  | .setq v => setqUnder c v b
  | .modCut v => modCutUnder c v b
  | .modQ v => modQUnder c v b
  | .modFwd tag v => modFwdUnder c tag v b
  | .clrmod => clrmodUnder c b
  | .proc l r => procUnder c l r b
  | .step ch x => stepUnder c ch x b
  | .rdreg r => rdregUnder c r b

/-- The function `step : CFG_BFU x State x CommandWord -> State x ResponseWord` of R8. -/
def commandUnder {V : Type} (c : Cfg V) (w : CmdWord) (b : BfuOf V) : Reply V :=
  match decode w with
  | .ok i => instrUnder c i b
  | .illegal _ => illegalWord b

/-- A command word handled by the machine: an illegal one by the common checks, a legal one by its instruction, whose meaning
makes the checks of R105 that concern it. -/
def runCommand (w : CmdWord) (s : State) : Out :=
  match decode w with
  | .ok i => exec i s
  | .illegal _ => deliver s (illegalWord s.bfu)

/-- One act of the host. -/
def runAct (act : HostAct) (s : State) : Out :=
  match act with
  | .command w => runCommand w s
  | .reset => .next (resetUnit s)

/-- The next act of the host, if it has issued one; else the unit is idle and keeps all its state (spec/60_exceptions.md
R109, R111). -/
def runNext (s : State) : Out :=
  match fetch s with
  | some (act, s') => runAct act s'
  | none => .next s

end Sys2Proof.Machine
end

