-- ==== Sys2Proof/Safety.lean ====
section
/-! DEFINITION. What counts as a safe run and a well-driven one, in the terms claims use: the states a unit can be in, the
commands that cannot fault a constructed unit (spec/60_exceptions.md R104), and the host's duties (spec/70_reset_and_hazards.md
R121 to R124, R129, R131, R134), which the BFU does not check. -/

namespace Sys2Proof.Safety

open Sys2Proof.Machine (Bfu BfuOf Delay State FilterType f32 fltLt fltFinite magnitude signedInt posZero)

/-- The unit is constructed and has taken no fault. -/
def ready (s : State) : Prop := s.bfu.cfg = true ∧ s.bfu.flt = false

/-- A command that cannot fault a constructed, unfaulted unit: every well-formed one but an INIT with an unknown filter-type
tag (R101, R104). -/
def harmless : Instr → Bool
  | .init tag => tag == 0 || tag == 1
  | .modFwd tag v => (Instr.modFwd tag v).wf
  | .nop => true
  | .setcut _ => true
  | .setq _ => true
  | .modCut _ => true
  | .modQ _ => true
  | .clrmod => true
  | .proc _ _ => true
  | .step _ _ => true
  | .rdreg _ => true

/-- A pattern of a finite value. -/
def finiteWord (u : Word32) : Bool := fltFinite (f32 u)

/-- Every value operand that the instruction uses is finite: the premise of spec/93_implementation_defined.md U1 for claims
about audio. DESIGN CHOICE (assumption log 18): the value of MOD.FWD, which the unit ignores (R72), may be any pattern; U1 says
"a `MOD` amount" and "every operand word", R131 names only the values that enter a register. -/
def finiteOperands : Instr → Bool
  | .setcut v => finiteWord v
  | .setq v => finiteWord v
  | .modCut v => finiteWord v
  | .modQ v => finiteWord v
  | .proc l r => finiteWord l && finiteWord r
  | .step _ x => finiteWord x
  | .modFwd _ _ => true
  | .nop => true
  | .init _ => true
  | .clrmod => true
  | .rdreg _ => true

/-- A value not outside `[lo, hi]`; a NaN is outside nothing (R15, R16: "and the operand was not NaN"). -/
def within (lo hi v : F) : Bool := !fltLt v lo && !fltLt hi v

/-- The cause code is 0 without a fault and one of the three codes with one (spec/10_state.md R13). -/
def causeLegal (b : Bfu) : Bool :=
  if b.flt then b.cause == 1 || b.cause == 2 || b.cause == 3 else b.cause == 0

/-- The twelve `F` registers of a unit, in the order of R10. -/
def registers (b : Bfu) : List F :=
  [b.cut, b.q, b.cutmod, b.qmod, b.xl1, b.xl2, b.yl1, b.yl2, b.xr1, b.xr2, b.yr1, b.yr2]

/-- Before construction every register still holds what reset wrote (spec/10_state.md R26, R28). -/
def unbuiltClean (b : Bfu) : Bool :=
  b.cfg || (b.ft == .lowPass && (registers b).all (· == posZero))

/-- After construction the base parameters are inside their clamps, unless a NaN was written (R15, R16). -/
def parametersLegal (b : Bfu) : Bool :=
  !b.cfg || (within (f32 0x40A00000) (f32 0x469C4000) b.cut && within (f32 0x3DCCCCCD) (f32 0x41A00000) b.q)

/-- The invariant of the unit. -/
def legal (b : Bfu) : Bool := causeLegal b && unbuiltClean b && parametersLegal b

/-! ### Exact values, as claims about the arithmetic say them (spec/00_scope.md R5) -/

/-- A NaN. -/
def isNan (v : F) : Bool := v == .nan

/-- A NaN or an infinity. -/
def nonFinite (v : F) : Bool := !fltFinite v

/-- The rational number a finite value is; 0 for the others, of which nothing is claimed by it. -/
def exactValue {k : Format} : Flt k → ℚ
  | .fin neg e m => signedInt neg (magnitude e m) / 2 ^ k.unit
  | .inf _ => 0
  | .nan => 0

/-- `r` is the number `x`, not zero, rounded once to the nearest value of binary32, a tie to the even fraction, and to an
infinity from half a last place above the greatest finite value on; it has the sign of `x`. -/
def RoundsTo (x : ℚ) (r : F) : Prop :=
  if 2 ^ 128 - 2 ^ 103 ≤ |x| then r = .inf (decide (x < 0))
  else ∃ e m, r = .fin (decide (x < 0)) e m ∧ ∀ v : F, fltFinite v = true →
    |x - exactValue r| ≤ |x - exactValue v| ∧
    (|x - exactValue r| = |x - exactValue v| → exactValue v ≠ exactValue r → m.toNat % 2 = 0)

/-- A biquad step's input or one of the four registers of its channel has a property. -/
def stepReads (p : F → Bool) (x : F) (d : Delay F) : Bool := p x || p d.x1 || p d.x2 || p d.y1 || p d.y2

/-! ### What a command leaves, as claims say it -/

/-- The machine after a command that leaves the unit as `b` and answers `st ++ ra ++ rb` (R44): one response more, and the
host's acts still to come as they were. -/
def after (s : State) (b : Bfu) (st : BitVec 8) (ra rb : Word32) : State :=
  { bfu := b, port := { pending := s.port.pending, responses := (st ++ ra ++ rb) :: s.port.responses } }

/-- Status of a response, bits 71:64 (R44). -/
def statusOf (r : RspWord) : BitVec 8 := r.extractLsb' 64 8

/-- First result of a response, bits 63:32 (R44). -/
def raOf (r : RspWord) : Word32 := r.extractLsb' 32 32

/-- Second result of a response, bits 31:0 (R44). -/
def rbOf (r : RspWord) : Word32 := r.extractLsb' 0 32

/-- The same pattern, or two patterns of NaN, which the spec does not tell apart (spec/93_implementation_defined.md U7). -/
def samePattern (u v : Word32) : Prop :=
  u = v ∨ (Machine.isNanPattern u = true ∧ Machine.isNanPattern v = true)

/-- A list of instructions executed in order, stopping at the first that has no next state. -/
def execAll : List Instr → State → Machine.Out
  | [], s => .next s
  | i :: is, s =>
    match Machine.exec i s with
    | .next t => execAll is t
    | .fault f => .fault f
    | .refused r => .refused r

/-! ### The host's per-sample protocol (R121 to R124) -/

/-- Where the host is in a run. -/
inductive Phase where
  /-- Nothing constructed yet (R121). -/
  | start
  /-- Before a buffer's first sample, nothing of the buffer issued (R123). -/
  | buffer
  /-- The buffer's SETCUT has been issued. -/
  | cutSet
  /-- The buffer's SETQ has been issued. -/
  | qSet
  /-- Inside a sample: CLRMOD issued, routes may follow (R122). -/
  | routes
  /-- The sample's PROC has been issued: at most one a sample (R129). -/
  | processed
  deriving DecidableEq, Repr

/-- The next phase when the host keeps its order; none where it does not. NOP and RDREG change nothing and may stand
anywhere. SETCUT comes before SETQ in a buffer, as R124 lists them. DESIGN CHOICE (assumption log 13), where R124's run lists a
command nowhere: a re-INIT, which R134 counts among the host's liberties, may stand anywhere after the first INIT and begins a
run anew; a STEP keeps no phase, since R122's sample is processed by PROC and no rule gives STEP a place in it, so a stream with
a STEP is not well driven although the unit runs it. DESIGN CHOICE too, where R124 leaves a buffer's frame count to the backend:
a buffer with a parameter command has at least one frame, so a second SETCUT or SETQ, or a SETCUT after a SETQ, keeps no phase
before the next CLRMOD. -/
def follow : Phase → Instr → Option Phase
  | p, .nop => some p
  | p, .rdreg _ => some p
  | _, .init tag => if tag == 0 || tag == 1 then some .buffer else none
  | .buffer, .setcut _ => some .cutSet
  | .buffer, .setq _ => some .qSet
  | .buffer, .clrmod => some .routes
  | .cutSet, .setq _ => some .qSet
  | .cutSet, .clrmod => some .routes
  | .qSet, .clrmod => some .routes
  | .routes, .modCut _ => some .routes
  | .routes, .modQ _ => some .routes
  | .routes, .modFwd tag v => if (Instr.modFwd tag v).wf then some .routes else none
  | .routes, .proc _ _ => some .processed
  | .routes, .clrmod => some .routes
  | .routes, .setcut _ => some .cutSet
  | .routes, .setq _ => some .qSet
  | .processed, .clrmod => some .routes
  | .processed, .setcut _ => some .cutSet
  | .processed, .setq _ => some .qSet
  | _, _ => none

/-- A stream of commands that keeps the protocol from a phase on (R124; where the rules leave it open, assumption log 13). -/
def keepsProtocol : Phase → List Instr → Bool
  | _, [] => true
  | p, i :: is =>
    match follow p i with
    | some p' => keepsProtocol p' is
    | none => false

/-- A stream that keeps all of the host's checked-by-nobody duties (R134): the protocol, as `follow` reads it (assumption
log 13), and finite operands, as `finiteOperands` reads them (assumption log 18). -/
def wellDriven (is : List Instr) : Bool := keepsProtocol .start is && is.all finiteOperands

end Sys2Proof.Safety
end

