-- ==== Sys2Proof/Certificates/Slice0/Obligations.lean ====
section
/-! DEFINITION. The statements for the provers. Each docstring names the rule of spec/ it formalises. `Safety.after s b st ra
rb` is the state `s` with the unit become `b` and the response `st ++ ra ++ rb` given, the host's pending acts unchanged. -/

open Sys2Proof Sys2Proof.Machine Sys2Proof.Safety

/-! ### Encoding -/

/-- R45, R46, R54: every well-formed instruction's word decodes to it, with every operand at every value. -/
def Obligations.DecodeInvertsEncode : Prop :=
  ∀ i : Instr, i.wf = true → decode (encode i) = .ok i

/-- R46, R48: a word that decodes has that one meaning, and the instruction is well-formed. -/
def Obligations.EncodeInvertsDecode : Prop :=
  ∀ (w : CmdWord) (i : Instr), decode w = .ok i → encode i = w ∧ i.wf = true

/-- spec/95_test_vectors.md section 2.6: the spec's own words, read by the decoder. -/
def Obligations.SpecWordsDecode : Prop :=
  decode 0x000000000000000000 = .ok .nop ∧
  decode 0x010000000100000000 = .ok (.init 1) ∧
  decode 0x1043DC000000000000 = .ok (.setcut 0x43DC0000) ∧
  decode 0x200000000041400000 = .ok (.modCut 0x41400000) ∧
  decode 0x20000000013F000000 = .ok (.modQ 0x3F000000) ∧
  decode 0x20000000023E99999A = .ok (.modFwd 2 0x3E99999A) ∧
  decode 0x20FFFFFFFF00000000 = .ok (.modFwd 0xFFFFFFFF 0) ∧
  decode 0x307FC000003F800000 = .ok (.proc 0x7FC00000 0x3F800000) ∧
  decode 0x3100000001BF800000 = .ok (.step .right 0xBF800000) ∧
  decode 0x400000000C00000000 = .ok (.rdreg .a1) ∧
  decodedInstr (decode 0x31000000023F800000) = none ∧
  decodedInstr (decode 0x400000000E00000000) = none ∧
  decodedInstr (decode 0x400000000000000001) = none ∧
  decodedInstr (decode 0x210000000000000001) = none ∧
  decodedInstr (decode 0x7E0000000000000000) = none

/-- R46, R47, R48, R50, R51: the illegal words are exactly those with a reserved opcode, a must-be-zero field that is not
zero, a STEP channel of 2 or above, or an RDREG index outside the 21. -/
def Obligations.IllegalWordsExactly : Prop :=
  ∀ (op : BitVec 8) (a b : Word32),
    decodedInstr (decode (assembleWord op a b)) = none ↔
      op ∉ ([0x00, 0x01, 0x10, 0x11, 0x20, 0x21, 0x30, 0x31, 0x40] : List (BitVec 8)) ∨
      ((op = 0x00 ∨ op = 0x21) ∧ (a ≠ 0 ∨ b ≠ 0)) ∨
      ((op = 0x01 ∨ op = 0x10 ∨ op = 0x11 ∨ op = 0x40) ∧ b ≠ 0) ∨
      (op = 0x31 ∧ 2 ≤ a.toNat) ∨
      (op = 0x40 ∧ ¬ (a.toNat ≤ 0x06 ∨ (0x08 ≤ a.toNat ∧ a.toNat ≤ 0x0D) ∨ (0x10 ≤ a.toNat ∧ a.toNat ≤ 0x17)))

/-- R32: a word is nine bytes, most significant first, and comes back from them with the bytes after it untouched. -/
def Obligations.WordBytesRoundTrip : Prop :=
  ∀ (op : BitVec 8) (a b : Word32) (rest : List Byte),
    wordOfBytes (bytesOfWord (assembleWord op a b) ++ rest) = some (assembleWord op a b, rest) ∧
    bytesOfWord (assembleWord op a b) =
      [op, a.extractLsb' 24 8, a.extractLsb' 16 8, a.extractLsb' 8 8, a.extractLsb' 0 8,
       b.extractLsb' 24 8, b.extractLsb' 16 8, b.extractLsb' 8 8, b.extractLsb' 0 8]

/-- R45: a word that decodes to an instruction selects that instruction's row, its `match` under its `mask` with the row's
extra constraint, and the rows are disjoint: two rows that one word selects are the same row. -/
def Obligations.RowsAreDisjoint : Prop :=
  let selects := fun (w : CmdWord) (i : Instr) =>
    w &&& rowMask i = rowMatch i ∧ (∀ g v, i = .modFwd g v → 2 ≤ (aField w).toNat) ∧
      (∀ r, i = .rdreg r → ∃ r', aField w = regIndex r')
  (∀ (w : CmdWord) (i : Instr), decode w = .ok i → selects w i) ∧
  (∀ (w : CmdWord) (i j : Instr), selects w i → selects w j → rowMask i = rowMask j ∧ rowMatch i = rowMatch j)

/-! ### The step -/

/-- R8, R105: the step runs the instruction the host's next word decodes to, on the machine with that word taken. -/
def Obligations.StepRunsDecodedInstruction : Prop :=
  ∀ (s : State) (w : CmdWord) (i : Instr) (rest : List HostAct),
    s.port.pending = .command w :: rest → decode w = .ok i →
      step s = exec i { s with port := { s.port with pending := rest } }

/-- R109 (and, for a step without a command, the model's choice of assumption log 1): the idle unit keeps everything. -/
def Obligations.IdleStepChangesNothing : Prop :=
  ∀ s : State, s.port.pending = [] → step s = .next s

/-- R120: reset writes every field to its reset value, whatever it was, so that STATUS and every readback are zero; that it
gives no response and leaves the rest of the host's stream is the model's choice (assumption log 2). -/
def Obligations.ResetActClearsTheUnit : Prop :=
  ∀ (s : State) (rest : List HostAct), s.port.pending = .reset :: rest →
    ∃ t, step s = .next t ∧ t.port.pending = rest ∧ t.port.responses = s.port.responses ∧
      t.bfu.cfg = false ∧ t.bfu.flt = false ∧ t.bfu.ft = .lowPass ∧ t.bfu.cause = 0 ∧
      (∀ r ∈ registers t.bfu, r = f32 0x00000000) ∧
      (∀ (i : Reg) (free : Word32), regRead cfg free t.bfu i = 0)

/-- R28, R120: State.reset is the reset column. -/
def Obligations.ResetStateIsAllZero : Prop :=
  State.reset.bfu.cfg = false ∧ State.reset.bfu.flt = false ∧ State.reset.bfu.ft = .lowPass ∧
  State.reset.bfu.cause = 0 ∧ (∀ r ∈ registers State.reset.bfu, r = f32 0x00000000) ∧
  statusWord State.reset.bfu = 0

/-- R112, R44, R134: from every state, every command word is taken and answered by exactly one response, with status OK and
no fault flag changed, or with a fault taken by an unfaulted unit (FLT and CAUSE written, nothing else), or with REFUSED by a
faulted one (nothing changed). No other status, no stop. -/
def Obligations.EveryCommandAnswersOnce : Prop :=
  ∀ (s : State) (w : CmdWord) (rest : List HostAct), s.port.pending = .command w :: rest →
    ∃ t r, step s = .next t ∧ t.port.pending = rest ∧ t.port.responses = r :: s.port.responses ∧
      ((statusOf r = 0x00 ∧ t.bfu.flt = s.bfu.flt ∧ t.bfu.cause = s.bfu.cause) ∨
       ((statusOf r = 0x01 ∨ statusOf r = 0x02 ∨ statusOf r = 0x03) ∧ s.bfu.flt = false ∧ raOf r = 0 ∧ rbOf r = 0 ∧
         t.bfu = { s.bfu with flt := true, cause := statusOf r }) ∨
       (statusOf r = 0xFF ∧ s.bfu.flt = true ∧ raOf r = s.bfu.cause.setWidth 32 ∧ rbOf r = 0 ∧ t.bfu = s.bfu))

/-! ### Faults -/

/-- R107: while FLT = 1, NOP and well-formed RDREG execute and respond OK; every other word, well-formed or not, is refused
and changes nothing. The pattern a NaN is read as by the RDREG is the free value of assumption log 4, the model's choice. -/
def Obligations.FaultedUnitRefuses : Prop :=
  ∀ (s : State) (w : CmdWord) (rest : List HostAct), s.port.pending = .command w :: rest → s.bfu.flt = true →
    let s' := { s with port := { s.port with pending := rest } }
    (decode w = .ok .nop → step s = .next (after s' s.bfu 0x00 0 0)) ∧
    (∀ i, decode w = .ok (.rdreg i) →
      step s = .next (after s' s.bfu 0x00 (regRead cfg (Config.freeNan s.bfu (.rdreg i) .ra) s.bfu i) 0)) ∧
    (decode w ≠ .ok .nop → (∀ i, decode w ≠ .ok (.rdreg i)) →
      step s = .next (after s' s.bfu 0xFF (s.bfu.cause.setWidth 32) 0))

/-- R102: an unfaulted unit that receives a word that decode maps to Illegal takes IllegalCommand. -/
def Obligations.IllegalWordTakesFault : Prop :=
  ∀ (s : State) (w : CmdWord) (why : Illegal) (rest : List HostAct),
    s.port.pending = .command w :: rest → decode w = .illegal why → s.bfu.flt = false →
      step s = .next (after { s with port := { s.port with pending := rest } }
        { s.bfu with flt := true, cause := 2 } 0x02 0 0)

/-- R103: an unfaulted unit with CFG = 0 takes NotConfigured on every command but NOP, INIT and RDREG. -/
def Obligations.UnbuiltUnitTakesNotConfigured : Prop :=
  ∀ (s : State) (i : Instr), s.bfu.flt = false → s.bfu.cfg = false →
    i ≠ .nop → (∀ tag, i ≠ .init tag) → (∀ r, i ≠ .rdreg r) →
      exec i s = .next (after s { s.bfu with flt := true, cause := 3 } 0x03 0 0)

/-- R101: INIT with a tag that is neither 0 nor 1 takes ConfigError before any register is written. -/
def Obligations.UnknownFilterTagTakesConfigError : Prop :=
  ∀ (s : State) (tag : Word32), s.bfu.flt = false → tag ≠ 0 → tag ≠ 1 →
    exec (.init tag) s = .next (after s { s.bfu with flt := true, cause := 1 } 0x01 0 0)

/-- R13, R107, R108: with FLT set, only a reset changes anything: every other step leaves all sixteen fields, so CAUSE keeps
the first fault's code. -/
def Obligations.FaultIsStickyUntilReset : Prop :=
  ∀ s t : State, s.bfu.flt = true → (∀ rest, s.port.pending ≠ .reset :: rest) → step s = .next t → t.bfu = s.bfu

/-- R12: no command writes CFG to 0. -/
def Obligations.ConfiguredFlagIsKept : Prop :=
  ∀ s t : State, s.bfu.cfg = true → (∀ rest, s.port.pending ≠ .reset :: rest) → step s = .next t → t.bfu.cfg = true

/-- R104: on a constructed, unfaulted unit a whole run of well-formed commands, none of them an INIT with an unknown tag,
takes no fault: every step goes on, every response is OK, and there is one for each command. -/
def Obligations.ReadyRunNeverFaults : Prop :=
  ∀ (ws : List CmdWord) (s : State), ready s → s.port.pending = ws.map .command →
    (∀ w ∈ ws, ∃ i, decode w = .ok i ∧ harmless i = true) →
      ∃ (t : State) (rs : List RspWord), Host.Core.run Sys2Proof.core ws.length s = .next t ∧ ready t ∧ t.port.pending = [] ∧
        t.port.responses = rs ++ s.port.responses ∧ rs.length = ws.length ∧ ∀ r ∈ rs, statusOf r = 0x00

/-- R104, R8, R29, R5: under ANY configuration, whatever its number format, numbers and functions, a harmless command keeps a
constructed, unfaulted unit ready and answers OK; the machine's own steps are those under its configuration, delivered. -/
def Obligations.ReadyUnderAnyConfiguration : Prop :=
  (∀ (V : Type) (c : Config.Cfg V) (b : BfuOf V) (w : CmdWord) (i : Instr), b.cfg = true → b.flt = false →
    decode w = .ok i → harmless i = true →
      (commandUnder c w b).bfu.cfg = true ∧ (commandUnder c w b).bfu.flt = false ∧
      (commandUnder c w b).bfu.cause = b.cause ∧ statusOf (commandUnder c w b).word = 0x00) ∧
  (∀ (s : State) (w : CmdWord) (rest : List HostAct), s.port.pending = .command w :: rest →
    step s = .next { bfu := (commandUnder cfg w s.bfu).bfu,
                     port := { pending := rest, responses := (commandUnder cfg w s.bfu).word :: s.port.responses } })

/-! ### Results of the instructions, which are their completion statements -/

/-- R95: NOP responds OK in every state, faulted or not, and does nothing. -/
def Obligations.NopAnswersOk : Prop :=
  ∀ s : State, exec .nop s = .next (after s s.bfu 0x00 0 0)

/-- R60, R28: INIT 0 and INIT 1 on an unfaulted unit construct the filter afresh, constructed before or not. -/
def Obligations.InitConstructsAfresh : Prop :=
  ∀ (s : State) (tag : Word32), s.bfu.flt = false → (tag = 0 ∨ tag = 1) →
    exec (.init tag) s = .next (after s
      { cfg := true, flt := false, ft := if tag = 0 then .lowPass else .highPass, cause := s.bfu.cause,
        cut := f32 0x447A0000, q := f32 0x3F34FDF4, cutmod := f32 0x00000000, qmod := f32 0x00000000,
        xl1 := f32 0x00000000, xl2 := f32 0x00000000, yl1 := f32 0x00000000, yl2 := f32 0x00000000,
        xr1 := f32 0x00000000, xr2 := f32 0x00000000, yr1 := f32 0x00000000, yr2 := f32 0x00000000 } 0x00 0 0)

/-- R61: SETCUT on a ready unit clamps the operand to [5, 20000] (a NaN passes both comparisons) and writes CUT alone. -/
def Obligations.SetcutClampsBase : Prop :=
  ∀ (s : State) (v : Word32), ready s →
    exec (.setcut v) s = .next (after s
      { s.bfu with cut := if fltLt (f32 v) (f32 0x40A00000) then f32 0x40A00000
                          else if fltLt (f32 0x469C4000) (f32 v) then f32 0x469C4000 else f32 v } 0x00 0 0)

/-- R62: SETQ on a ready unit clamps the operand to [0.1, 20] and writes Q alone. -/
def Obligations.SetqClampsBase : Prop :=
  ∀ (s : State) (v : Word32), ready s →
    exec (.setq v) s = .next (after s
      { s.bfu with q := if fltLt (f32 v) (f32 0x3DCCCCCD) then f32 0x3DCCCCCD
                        else if fltLt (f32 0x41A00000) (f32 v) then f32 0x41A00000 else f32 v } 0x00 0 0)

/-- R70: MOD.CUT on a ready unit adds its operand to CUTMOD by the format's one addition (ArithmeticIsRoundedOnce says what that
is: the exact sum rounded once). -/
def Obligations.ModCutAccumulates : Prop :=
  ∀ (s : State) (v : Word32), ready s →
    exec (.modCut v) s = .next (after s { s.bfu with cutmod := fltAdd s.bfu.cutmod (f32 v) } 0x00 0 0)

/-- R71: MOD.Q on a ready unit adds its operand to QMOD by the format's one addition (ArithmeticIsRoundedOnce). -/
def Obligations.ModQAccumulates : Prop :=
  ∀ (s : State) (v : Word32), ready s →
    exec (.modQ v) s = .next (after s { s.bfu with qmod := fltAdd s.bfu.qmod (f32 v) } 0x00 0 0)

/-- R72: MOD.FWD on a ready unit responds OK for every tag and value and changes no field of the unit. -/
def Obligations.ModFwdChangesNothing : Prop :=
  ∀ (s : State) (tag v : Word32), ready s → exec (.modFwd tag v) s = .next (after s s.bfu 0x00 0 0)

/-- R73: CLRMOD on a ready unit writes +0.0 to both accumulators and nothing else. -/
def Obligations.ClrmodClearsAccumulators : Prop :=
  ∀ s : State, ready s →
    exec .clrmod s = .next (after s { s.bfu with cutmod := f32 0x00000000, qmod := f32 0x00000000 } 0x00 0 0)

/-- R91 with R74, R75, R80, R81, R82, R90: PROC on a ready unit, every operation written out in the rules' order, for both
channels with the same coefficients. The pattern of a NaN result is the free value of assumption log 4. Where an operand or a
filter-state register is infinite, R91's corner case says that the later outputs are NaN; the outputs stated are those of R90's operations,
the model's choice (assumption log 17). -/
def Obligations.ProcStepsBothChannels : Prop :=
  ∀ (s : State) (l r : Word32), ready s →
    let n := cfg.num
    let b := s.bfu
    let f := fltMul b.cut (n.fexp2 (fltDiv b.cutmod (f32 0x41400000)))
    let ny := fltDiv (f32 0x472C4400) (f32 0x40000000)
    let fn := if fltLt ny f then ny else f
    let ecut := if fltLt fn (f32 0x40A00000) then f32 0x40A00000
                else if fltLt (f32 0x469C4000) fn then f32 0x469C4000 else fn
    let qq := fltAdd b.q b.qmod
    let eq := if fltLt qq (f32 0x3DCCCCCD) then f32 0x3DCCCCCD
              else if fltLt (f32 0x41A00000) qq then f32 0x41A00000 else qq
    let w0 := fltDiv (fltMul (f32 0x40C90FDB) ecut) (f32 0x472C4400)
    let alpha := fltDiv (n.fsin w0) (fltMul (f32 0x40000000) eq)
    let a0u := fltAdd (f32 0x3F800000) alpha
    let a1 := fltDiv (fltMul (f32 0xC0000000) (n.fcos w0)) a0u
    let a2 := fltDiv (fltSub (f32 0x3F800000) alpha) a0u
    let t := if b.ft = .lowPass then fltSub (f32 0x3F800000) (n.fcos w0) else fltAdd (f32 0x3F800000) (n.fcos w0)
    let b1 := fltDiv (if b.ft = .lowPass then t else fltNeg t) a0u
    let b0 := fltDiv (fltDiv t (f32 0x40000000)) a0u
    let biquad := fun x x1 x2 y1 y2 : F =>
      fltSub (fltSub (fltAdd (fltAdd (fltMul b0 x) (fltMul b1 x1)) (fltMul b0 x2)) (fltMul a1 y1)) (fltMul a2 y2)
    let yl := biquad (f32 l) b.xl1 b.xl2 b.yl1 b.yl2
    let yr := biquad (f32 r) b.xr1 b.xr2 b.yr1 b.yr2
    exec (.proc l r) s = .next (after s
      { b with xl1 := f32 l, xl2 := b.xl1, yl1 := yl, yl2 := b.yl1,
               xr1 := f32 r, xr2 := b.xr1, yr1 := yr, yr2 := b.yr1 } 0x00
      (bits32 (Config.freeNan b (.proc l r) .ra) yl) (bits32 (Config.freeNan b (.proc l r) .rb) yr))

/-- R92 with R90: STEP on a ready unit steps the selected channel with the current coefficients and leaves the other
channel's registers. The pattern of a NaN result is the free value of assumption log 4. Where the operand or a filter-state
register is infinite, the output stated is that of R90's operations and not R91's NaN, the model's choice (assumption log 17). -/
def Obligations.StepStepsOneChannel : Prop :=
  ∀ (s : State) (x : Word32), ready s →
    let b := s.bfu
    let k := coeffsOf cfg b
    let biquad := fun x x1 x2 y1 y2 : F =>
      fltSub (fltSub (fltAdd (fltAdd (fltMul k.b0 x) (fltMul k.b1 x1)) (fltMul k.b2 x2)) (fltMul k.a1 y1))
        (fltMul k.a2 y2)
    let yl := biquad (f32 x) b.xl1 b.xl2 b.yl1 b.yl2
    let yr := biquad (f32 x) b.xr1 b.xr2 b.yr1 b.yr2
    exec (.step .left x) s = .next (after s { b with xl1 := f32 x, xl2 := b.xl1, yl1 := yl, yl2 := b.yl1 } 0x00
      (bits32 (Config.freeNan b (.step .left x) .ra) yl) 0) ∧
    exec (.step .right x) s = .next (after s { b with xr1 := f32 x, xr2 := b.xr1, yr1 := yr, yr2 := b.yr1 } 0x00
      (bits32 (Config.freeNan b (.step .right x) .ra) yr) 0)

/-- R96, R26, R11: RDREG answers in every state and changes no field: STATUS always, zero for every other index while
CFG = 0, and the named register or derived value while CFG = 1. The pattern a NaN is read as is the free value of assumption
log 4. -/
def Obligations.RdregAnswersRegister : Prop :=
  ∀ (s : State) (i : Reg),
    let b := s.bfu
    let out := fun v : F => bits32 (Config.freeNan b (.rdreg i) .ra) v
    let k := coeffsOf cfg b
    let built : Word32 := match i with
      | .status => statusWord b
      | .cut => out b.cut
      | .q => out b.q
      | .cutmod => out b.cutmod
      | .qmod => out b.qmod
      | .ecut => out (effCut cfg b.cut b.cutmod)
      | .eq => out (effQ cfg b.q b.qmod)
      | .b0 => out k.b0
      | .b1 => out k.b1
      | .b2 => out k.b2
      | .a0 => 0x3F800000
      | .a1 => out k.a1
      | .a2 => out k.a2
      | .xl1 => out b.xl1
      | .xl2 => out b.xl2
      | .yl1 => out b.yl1
      | .yl2 => out b.yl2
      | .xr1 => out b.xr1
      | .xr2 => out b.xr2
      | .yr1 => out b.yr1
      | .yr2 => out b.yr2
    exec (.rdreg i) s =
      .next (after s b 0x00 (if i = .status then statusWord b else if b.cfg = true then built else 0) 0)

/-- R34: a RDREG has no side effect and two successive reads of one index return the same pattern, a NaN's too. -/
def Obligations.RdregIsIdempotent : Prop :=
  ∀ (s : State) (i : Reg), ∃ t r, execAll [.rdreg i, .rdreg i] s = .next t ∧ t.bfu = s.bfu ∧
    t.port.responses = r :: r :: s.port.responses

/-- R11: the layout of STATUS, reserved bits zero. -/
def Obligations.StatusWordLayout : Prop :=
  ∀ b : Bfu,
    (statusWord b).getLsbD 0 = b.cfg ∧ (statusWord b).getLsbD 1 = b.flt ∧
    (statusWord b).getLsbD 2 = (b.ft == .highPass) ∧ (statusWord b).extractLsb' 3 5 = 0 ∧
    (statusWord b).extractLsb' 8 8 = b.cause ∧ (statusWord b).extractLsb' 16 16 = 0

/-! ### Frames -/

/-- R21: no command other than INIT, PROC and STEP writes a filter-state register. -/
def Obligations.FilterStateWriters : Prop :=
  ∀ (i : Instr) (s t : State), (∀ tag, i ≠ .init tag) → (∀ l r, i ≠ .proc l r) → (∀ c x, i ≠ .step c x) →
    exec i s = .next t →
      t.bfu.xl1 = s.bfu.xl1 ∧ t.bfu.xl2 = s.bfu.xl2 ∧ t.bfu.yl1 = s.bfu.yl1 ∧ t.bfu.yl2 = s.bfu.yl2 ∧
      t.bfu.xr1 = s.bfu.xr1 ∧ t.bfu.xr2 = s.bfu.xr2 ∧ t.bfu.yr1 = s.bfu.yr1 ∧ t.bfu.yr2 = s.bfu.yr2

/-- R61, R62, R70 to R73, R106: the frame of the parameter and modulation commands, in every state: each writes its own
register and no other; CFG and FT never; FLT and CAUSE only by the NotConfigured fault of an unbuilt, unfaulted unit. The
host's pending acts stay. -/
def Obligations.ParameterCommandsFrame : Prop :=
  ∀ (i : Instr) (s t : State),
    ((∃ v, i = .setcut v) ∨ (∃ v, i = .setq v) ∨ (∃ v, i = .modCut v) ∨ (∃ v, i = .modQ v) ∨
      (∃ g v, i = .modFwd g v) ∨ i = .clrmod) →
    exec i s = .next t →
      ((∀ v, i ≠ .setcut v) → t.bfu.cut = s.bfu.cut) ∧
      ((∀ v, i ≠ .setq v) → t.bfu.q = s.bfu.q) ∧
      ((∀ v, i ≠ .modCut v) → i ≠ .clrmod → t.bfu.cutmod = s.bfu.cutmod) ∧
      ((∀ v, i ≠ .modQ v) → i ≠ .clrmod → t.bfu.qmod = s.bfu.qmod) ∧
      getDelay t.bfu .left = getDelay s.bfu .left ∧ getDelay t.bfu .right = getDelay s.bfu .right ∧
      t.bfu.cfg = s.bfu.cfg ∧ t.bfu.ft = s.bfu.ft ∧
      ((s.bfu.flt = true ∨ s.bfu.cfg = true) → t.bfu.flt = s.bfu.flt ∧ t.bfu.cause = s.bfu.cause) ∧
      t.port.pending = s.port.pending

/-- R91, R92: the frame of PROC and STEP, in every state: no parameter, no accumulator, no flag; STEP leaves the other
channel; FLT and CAUSE only by NotConfigured. -/
def Obligations.EvaluationFrame : Prop :=
  ∀ (i : Instr) (s t : State), ((∃ l r, i = .proc l r) ∨ (∃ c x, i = .step c x)) → exec i s = .next t →
    t.bfu.cut = s.bfu.cut ∧ t.bfu.q = s.bfu.q ∧ t.bfu.cutmod = s.bfu.cutmod ∧ t.bfu.qmod = s.bfu.qmod ∧
    t.bfu.cfg = s.bfu.cfg ∧ t.bfu.ft = s.bfu.ft ∧
    ((s.bfu.flt = true ∨ s.bfu.cfg = true) → t.bfu.flt = s.bfu.flt ∧ t.bfu.cause = s.bfu.cause) ∧
    (∀ c x c', i = .step c x → c' ≠ c → getDelay t.bfu c' = getDelay s.bfu c') ∧
    t.port.pending = s.port.pending

/-- R95, R96, R60: NOP and RDREG change no field of the unit in any state; INIT on a faulted unit changes none either, and
INIT never changes the host's pending acts. -/
def Obligations.HousekeepingFrame : Prop :=
  ∀ (s t : State),
    (exec .nop s = .next t → t.bfu = s.bfu ∧ t.port.pending = s.port.pending) ∧
    (∀ i, exec (.rdreg i) s = .next t → t.bfu = s.bfu ∧ t.port.pending = s.port.pending) ∧
    (∀ tag, exec (.init tag) s = .next t → t.port.pending = s.port.pending ∧ (s.bfu.flt = true → t.bfu = s.bfu))

/-! ### The two channels -/

/-- R92, corner cases: PROC l, r is STEP 0, l then STEP 1, r, and also STEP 1, r then STEP 0, l, in its effect on the unit and
in the values returned (two NaN patterns are one value). -/
def Obligations.ProcIsTwoSteps : Prop :=
  ∀ (s : State) (l r : Word32), ready s →
    ∃ (t u v : State) (p ul ur vl vr : RspWord),
      exec (.proc l r) s = .next t ∧ execAll [.step .left l, .step .right r] s = .next u ∧
      execAll [.step .right r, .step .left l] s = .next v ∧
      t.bfu = u.bfu ∧ t.bfu = v.bfu ∧
      t.port.responses = p :: s.port.responses ∧ u.port.responses = ur :: ul :: s.port.responses ∧
      v.port.responses = vl :: vr :: s.port.responses ∧
      samePattern (raOf p) (raOf ul) ∧ samePattern (rbOf p) (raOf ur) ∧
      samePattern (raOf p) (raOf vl) ∧ samePattern (rbOf p) (raOf vr)

/-- R91, R20: what PROC does to a channel depends on that channel's operand and registers and on the shared parameters, and on
nothing of the other channel. -/
def Obligations.ChannelsAreIndependent : Prop :=
  ∀ (s s' t t' : State) (l r l' r' : Word32), ready s → ready s' →
    s.bfu.ft = s'.bfu.ft → s.bfu.cut = s'.bfu.cut → s.bfu.q = s'.bfu.q → s.bfu.cutmod = s'.bfu.cutmod →
    s.bfu.qmod = s'.bfu.qmod → exec (.proc l r) s = .next t → exec (.proc l' r') s' = .next t' →
      (l = l' → getDelay s.bfu .left = getDelay s'.bfu .left →
        getDelay t.bfu .left = getDelay t'.bfu .left ∧
        ∃ p p', t.port.responses = p :: s.port.responses ∧ t'.port.responses = p' :: s'.port.responses ∧
          samePattern (raOf p) (raOf p')) ∧
      (r = r' → getDelay s.bfu .right = getDelay s'.bfu .right →
        getDelay t.bfu .right = getDelay t'.bfu .right ∧
        ∃ p p', t.port.responses = p :: s.port.responses ∧ t'.port.responses = p' :: s'.port.responses ∧
          samePattern (rbOf p) (rbOf p'))

/-- R131: non-finite values stick, a NaN as a NaN, an infinity as an infinity or a NaN (R91's corner case says NaN at once; the
model follows R90's operations, assumption log 17). If the input of a channel or one of its
four registers is a NaN (is not finite), the channel's next output, by STEP or by PROC, is a NaN (is not finite), is answered so
and is kept; what is kept stays through every instruction but INIT, in every state; a NaN in CUT or Q stays until the next SETCUT
or SETQ, or INIT; CLRMOD removes one from an accumulator. -/
def Obligations.NanSticksInChannel : Prop :=
  (∀ p ∈ [isNan, nonFinite],
    (∀ (s : State) (c : Channel) (x : Word32), ready s → stepReads p (f32 x) (getDelay s.bfu c) = true →
      ∃ t a, exec (.step c x) s = .next t ∧ p (getDelay t.bfu c).y1 = true ∧ t.port.responses = a :: s.port.responses ∧
        p (f32 (raOf a)) = true) ∧
    (∀ (s : State) (l r : Word32), ready s →
      ∃ t a, exec (.proc l r) s = .next t ∧ t.port.responses = a :: s.port.responses ∧
        (stepReads p (f32 l) (getDelay s.bfu .left) = true →
          p (getDelay t.bfu .left).y1 = true ∧ p (f32 (raOf a)) = true) ∧
        (stepReads p (f32 r) (getDelay s.bfu .right) = true →
          p (getDelay t.bfu .right).y1 = true ∧ p (f32 (rbOf a)) = true)) ∧
    (∀ (i : Instr) (s t : State) (c : Channel), (∀ tag, i ≠ .init tag) → exec i s = .next t →
      p (getDelay s.bfu c).y1 = true → p (getDelay t.bfu c).y1 = true)) ∧
  (∀ (i : Instr) (s t : State), (∀ tag, i ≠ .init tag) → exec i s = .next t →
    ((∀ v, i ≠ .setcut v) → s.bfu.cut = .nan → t.bfu.cut = .nan) ∧
    ((∀ v, i ≠ .setq v) → s.bfu.q = .nan → t.bfu.q = .nan)) ∧
  (∀ s : State, ready s → ∃ t, exec .clrmod s = .next t ∧ t.bfu.cutmod ≠ .nan ∧ t.bfu.qmod ≠ .nan)

/-! ### Effective parameters -/

/-- R74, R125: whatever the base and the accumulator hold, the effective cutoff is a NaN or inside [5, 20000], and then below
half the sample rate. -/
def Obligations.EffectiveCutoffInRange : Prop :=
  ∀ cut cutmod : F, effCut cfg cut cutmod = .nan ∨
    (fltLt (effCut cfg cut cutmod) (f32 0x40A00000) = false ∧
     fltLt (f32 0x469C4000) (effCut cfg cut cutmod) = false ∧
     fltLt (effCut cfg cut cutmod) (fltDiv (f32 0x472C4400) (f32 0x40000000)) = true)

/-- R75: the effective Q is the clamped sum; it is a NaN or inside [0.1, 20], and twice it, the design's divisor, is then
positive and finite; a zero accumulator gives the base, an infinite one the bound, a NaN a NaN. -/
def Obligations.EffectiveQClamped : Prop :=
  (∀ q qmod : F, effQ cfg q qmod =
    if fltLt (fltAdd q qmod) (f32 0x3DCCCCCD) then f32 0x3DCCCCCD
    else if fltLt (f32 0x41A00000) (fltAdd q qmod) then f32 0x41A00000 else fltAdd q qmod) ∧
  (∀ q qmod : F, effQ cfg q qmod = .nan ∨
    (fltLt (effQ cfg q qmod) (f32 0x3DCCCCCD) = false ∧ fltLt (f32 0x41A00000) (effQ cfg q qmod) = false)) ∧
  (∀ q qmod : F, effQ cfg q qmod ≠ .nan →
    fltLt (f32 0x00000000) (fltMul (f32 0x40000000) (effQ cfg q qmod)) = true ∧
    fltFinite (fltMul (f32 0x40000000) (effQ cfg q qmod)) = true) ∧
  (∀ q : F, q ≠ .nan → within (f32 0x3DCCCCCD) (f32 0x41A00000) q = true →
    effQ cfg q (f32 0x00000000) = q ∧ effQ cfg q (.inf true) = f32 0x3DCCCCCD ∧
    effQ cfg q (.inf false) = f32 0x41A00000) ∧
  (∀ v : F, effQ cfg v .nan = .nan ∧ effQ cfg .nan v = .nan) ∧
  effQ cfg (f32 0x3F800000) (f32 0x3F000000) = f32 0x3FC00000 ∧
  effQ cfg (f32 0x3F34FDF4) (f32 0xC0A00000) = f32 0x3DCCCCCD ∧
  effQ cfg (f32 0x3F34FDF4) (f32 0x42C80000) = f32 0x41A00000

/-- R74, corner cases and vectors: infinite and NaN accumulators, and the spec's table of effective cutoffs. -/
def Obligations.EffectiveCutoffCorners : Prop :=
  (∀ cut : F, cut ≠ .nan → within (f32 0x40A00000) (f32 0x469C4000) cut = true →
    effCut cfg cut (.inf false) = f32 0x469C4000 ∧ effCut cfg cut (.inf true) = f32 0x40A00000) ∧
  (∀ v : F, effCut cfg v .nan = .nan ∧ effCut cfg .nan v = .nan) ∧
  effCut cfg (f32 0x447A0000) (f32 0x41400000) = f32 0x44FA0000 ∧
  effCut cfg (f32 0x447A0000) (f32 0xC1400000) = f32 0x43FA0000 ∧
  effCut cfg (f32 0x447A0000) (f32 0x40E00000) = f32 0x44BB49D4 ∧
  effCut cfg (f32 0x447A0000) (f32 0x42F00000) = f32 0x469C4000 ∧
  effCut cfg (f32 0x447A0000) (f32 0xC2F00000) = f32 0x40A00000 ∧
  effCut cfg (f32 0x469C4000) (f32 0x3F800000) = f32 0x469C4000 ∧
  effCut cfg (f32 0x40A00000) (f32 0xBF800000) = f32 0x40A00000

/-- R73, effects: after CLRMOD the effective cutoff is CUT and the effective Q is Q, for every base inside its clamp. -/
def Obligations.ClrmodRestoresBaseParameters : Prop :=
  ∀ s : State, ready s → s.bfu.cut ≠ .nan → s.bfu.q ≠ .nan →
    within (f32 0x40A00000) (f32 0x469C4000) s.bfu.cut = true →
    within (f32 0x3DCCCCCD) (f32 0x41A00000) s.bfu.q = true →
      ∃ t, exec .clrmod s = .next t ∧ effCut cfg t.bfu.cut t.bfu.cutmod = s.bfu.cut ∧
        effQ cfg t.bfu.q t.bfu.qmod = s.bfu.q

/-- R123: re-issuing the value CUT or Q already holds changes no field of the unit. -/
def Obligations.HeldParameterReissued : Prop :=
  ∀ (s : State) (v : Word32), ready s →
    (f32 v = s.bfu.cut → within (f32 0x40A00000) (f32 0x469C4000) s.bfu.cut = true →
      exec (.setcut v) s = .next (after s s.bfu 0x00 0 0)) ∧
    (f32 v = s.bfu.q → within (f32 0x3DCCCCCD) (f32 0x41A00000) s.bfu.q = true →
      exec (.setq v) s = .next (after s s.bfu 0x00 0 0))

/-- spec/90_conflicts.md C5, R70, R71: after CLRMOD, two routes of one type may be applied in either order; three may not
(1e8, -1e8, 1 against 1e8, 1, -1e8). -/
def Obligations.TwoRoutesCommute : Prop :=
  (∀ (s : State) (v w : Word32), ready s →
    ∃ t u t' u', execAll [.clrmod, .modCut v, .modCut w] s = .next t ∧ execAll [.clrmod, .modCut w, .modCut v] s = .next u ∧
      t.bfu = u.bfu ∧
      execAll [.clrmod, .modQ v, .modQ w] s = .next t' ∧ execAll [.clrmod, .modQ w, .modQ v] s = .next u' ∧
      t'.bfu = u'.bfu) ∧
  fltAdd (fltAdd (fltAdd (f32 0) (f32 0x4CBEBC20)) (f32 0xCCBEBC20)) (f32 0x3F800000) = f32 0x3F800000 ∧
  fltAdd (fltAdd (fltAdd (f32 0) (f32 0x4CBEBC20)) (f32 0x3F800000)) (f32 0xCCBEBC20) = f32 0x00000000

/-! ### The invariant -/

/-- R13, R26, R15, R16: the invariant of the unit holds at reset. -/
def Obligations.InvariantAtReset : Prop := legal State.reset.bfu = true

/-- R13, R15, R16, R26: every step keeps it: CAUSE is 0 without a fault and one of the three codes with one; before
construction every register holds +0.0 and FT is 0; after it CUT and Q are inside their clamps, unless a NaN was written. -/
def Obligations.StepKeepsInvariant : Prop :=
  ∀ s t : State, legal s.bfu = true → step s = .next t → legal t.bfu = true

/-! ### Numbers -/

/-- R4: the default configuration meets the table's constraints. -/
def Obligations.DefaultConfigurationAdmitted : Prop := Config.admitted cfg = true

/-- R7, R43, U7: f32 and bits32 are inverse but for NaN patterns; a NaN is answered by a NaN pattern, and by any. -/
def Obligations.PatternsRoundTrip : Prop :=
  (∀ u free : Word32, isNanPattern u = false → bits32 free (f32 u) = u) ∧
  (∀ (free : Word32) (v : F), f32 (bits32 free v) = v) ∧
  (∀ u : Word32, f32 u = .nan ↔ isNanPattern u = true) ∧
  (∀ free : Word32, isNanPattern (bits32 free .nan) = true) ∧
  (∀ u : Word32, isNanPattern u = true → ∃ free, bits32 free .nan = u)

/-- R5: the rounding every operation ends in. From half a last place above the largest finite value on it is an infinity;
below that it is a finite value of the same sign, as near to the exact magnitude as any finite value, with an even fraction
where another is as near. -/
def Obligations.RoundingIsNearest : Prop :=
  ∀ (neg : Bool) (num den : Nat), 0 < den →
    ((2 ^ 25 - 1) * 2 ^ 253 * den ≤ 2 * num → (roundNearest neg num den : F) = .inf neg) ∧
    (2 * num < (2 ^ 25 - 1) * 2 ^ 253 * den → ∃ e m, (roundNearest neg num den : F) = .fin neg e m ∧
      ∀ (e' : Fin (binary32.expTop + 1)) (m' : BitVec binary32.fracBits),
        |(num : Int) - magnitude e m * den| ≤ |(num : Int) - magnitude e' m' * den| ∧
        (|(num : Int) - magnitude e m * den| = |(num : Int) - magnitude e' m' * den| → (e', m') ≠ (e, m) →
          m.toNat % 2 = 0))

/-- R5: the four operations on finite values are the exact sum, difference, product and quotient rounded once, where that is not
zero; an exact zero has the sign IEEE 754 gives it; zeros as divisors, infinities and NaNs give what IEEE 754 gives; the
comparison is that of the exact values, and false on a NaN. -/
def Obligations.ArithmeticIsRoundedOnce : Prop :=
  (∀ a b : F, fltFinite a = true → fltFinite b = true →
    (exactValue a + exactValue b ≠ 0 → RoundsTo (exactValue a + exactValue b) (fltAdd a b)) ∧
    (exactValue a - exactValue b ≠ 0 → RoundsTo (exactValue a - exactValue b) (fltSub a b)) ∧
    (exactValue a * exactValue b ≠ 0 → RoundsTo (exactValue a * exactValue b) (fltMul a b)) ∧
    (exactValue a ≠ 0 → exactValue b ≠ 0 → RoundsTo (exactValue a / exactValue b) (fltDiv a b)) ∧
    (fltLt a b = true ↔ exactValue a < exactValue b)) ∧
  (∀ (n n' : Bool) (e e' : Fin (binary32.expTop + 1)) (m m' : BitVec binary32.fracBits),
    let a : F := .fin n e m
    let b : F := .fin n' e' m'
    (exactValue a + exactValue b = 0 → fltAdd a b = .fin (n && n') 0 0) ∧
    (exactValue a - exactValue b = 0 → fltSub a b = .fin (n && !n') 0 0) ∧
    (exactValue a * exactValue b = 0 → fltMul a b = .fin (n != n') 0 0) ∧
    (exactValue a = 0 → exactValue b ≠ 0 → fltDiv a b = .fin (n != n') 0 0) ∧
    (exactValue a ≠ 0 → exactValue b = 0 → fltDiv a b = .inf (n != n')) ∧
    (exactValue a = 0 → exactValue b = 0 → fltDiv a b = .nan) ∧
    fltNeg a = .fin (!n) e m ∧
    fltAdd (.inf n) b = .inf n ∧ fltAdd b (.inf n) = .inf n ∧ fltSub (.inf n) b = .inf n ∧ fltSub b (.inf n) = .inf (!n) ∧
    (exactValue b = 0 → fltMul (.inf n) b = .nan ∧ fltMul b (.inf n) = .nan) ∧
    (exactValue b ≠ 0 → fltMul (.inf n) b = .inf (n != n') ∧ fltMul b (.inf n) = .inf (n != n')) ∧
    fltDiv (.inf n) b = .inf (n != n') ∧ fltDiv b (.inf n) = .fin (n != n') 0 0) ∧
  (∀ n n' : Bool,
    let i : F := .inf n
    let j : F := .inf n'
    fltAdd i j = (if n = n' then .inf n else .nan) ∧ fltSub i j = (if n = n' then .nan else .inf n) ∧
    fltMul i j = .inf (n != n') ∧ fltDiv i j = .nan ∧ fltNeg i = .inf (!n)) ∧
  (∀ a : F, fltAdd .nan a = .nan ∧ fltAdd a .nan = .nan ∧ fltSub .nan a = .nan ∧ fltSub a .nan = .nan ∧
    fltMul .nan a = .nan ∧ fltMul a .nan = .nan ∧ fltDiv .nan a = .nan ∧ fltDiv a .nan = .nan ∧
    fltLt .nan a = false ∧ fltLt a .nan = false)

/-- R6, P1 and P3: the sine and cosine of a finite value are in [-1, 1] and no NaN, and two to the power +0 is exactly 1. -/
def Obligations.SineCosineBounded : Prop :=
  (∀ neg e m, ∀ r ∈ [cfg.num.fsin (.fin neg e m), cfg.num.fcos (.fin neg e m)],
    r ≠ .nan ∧ fltLt r (f32 0xBF800000) = false ∧ fltLt (f32 0x3F800000) r = false) ∧
  cfg.num.fexp2 (f32 0x00000000) = f32 0x3F800000

/-- R6, P2: for every effective cutoff in [5, 20000] the design's angle has a positive sine and a cosine strictly between -1
and 1. -/
def Obligations.DesignAngleInsideHalfTurn : Prop :=
  ∀ fc : F, fc ≠ .nan → within (f32 0x40A00000) (f32 0x469C4000) fc = true →
    let w0 := fltDiv (fltMul (f32 0x40C90FDB) fc) (f32 0x472C4400)
    fltLt (f32 0x00000000) (cfg.num.fsin w0) = true ∧
    fltLt (f32 0xBF800000) (cfg.num.fcos w0) = true ∧ fltLt (cfg.num.fcos w0) (f32 0x3F800000) = true

/-- R6, P4: two to the power is monotone non-decreasing. -/
def Obligations.Exp2IsMonotone : Prop :=
  ∀ x y : F, fltLt x y = true → fltLt (cfg.num.fexp2 y) (cfg.num.fexp2 x) = false

/-- R6, "the exact real result rounded once": the cosine answered is, among all finite values of F, nearest to the exact real
cosine of the operand, up to 2^-280 (the width the free choice of assumption log 7 is confined to). -/
def Obligations.CosineIsNearest : Prop :=
  ∀ neg e m, ∃ neg' e' m', cfg.num.fcos (.fin neg e m) = .fin neg' e' m' ∧
    ∀ neg'' (e'' : Fin (binary32.expTop + 1)) (m'' : BitVec binary32.fracBits),
      |(signedInt neg' (magnitude e' m') : ℝ) / 2 ^ 149 - Real.cos ((signedInt neg (magnitude e m) : ℝ) / 2 ^ 149)| ≤
      |(signedInt neg'' (magnitude e'' m'') : ℝ) / 2 ^ 149 - Real.cos ((signedInt neg (magnitude e m) : ℝ) / 2 ^ 149)|
        + (1 / 2) ^ 280

/-- R6, "the exact real result rounded once", for the sine. -/
def Obligations.SineIsNearest : Prop :=
  ∀ neg e m, ∃ neg' e' m', cfg.num.fsin (.fin neg e m) = .fin neg' e' m' ∧
    ∀ neg'' (e'' : Fin (binary32.expTop + 1)) (m'' : BitVec binary32.fracBits),
      |(signedInt neg' (magnitude e' m') : ℝ) / 2 ^ 149 - Real.sin ((signedInt neg (magnitude e m) : ℝ) / 2 ^ 149)| ≤
      |(signedInt neg'' (magnitude e'' m'') : ℝ) / 2 ^ 149 - Real.sin ((signedInt neg (magnitude e m) : ℝ) / 2 ^ 149)|
        + (1 / 2) ^ 280

/-- R6, "the exact real result rounded once", for two to the power: an infinity from 128 on, and below it a value nearest to
the exact power up to 2^-300 of it. -/
def Obligations.Exp2IsNearest : Prop :=
  ∀ neg e m,
    (128 * 2 ^ 149 ≤ signedInt neg (magnitude e m) → cfg.num.fexp2 (.fin neg e m) = .inf false) ∧
    (signedInt neg (magnitude e m) < 128 * 2 ^ 149 →
      ∃ e' m', cfg.num.fexp2 (.fin neg e m) = .fin false e' m' ∧
        ∀ neg'' (e'' : Fin (binary32.expTop + 1)) (m'' : BitVec binary32.fracBits),
          |(magnitude e' m' : ℝ) / 2 ^ 149 - (2 : ℝ) ^ ((signedInt neg (magnitude e m) : ℝ) / 2 ^ 149)| ≤
          |(signedInt neg'' (magnitude e'' m'') : ℝ) / 2 ^ 149 - (2 : ℝ) ^ ((signedInt neg (magnitude e m) : ℝ) / 2 ^ 149)|
            + (2 : ℝ) ^ ((signedInt neg (magnitude e m) : ℝ) / 2 ^ 149) * (1 / 2) ^ 300)

/-! ### The design and the spec's vectors -/

/-- R81, R82, spec/95_test_vectors.md section 2.3: the coefficients of the 1000 Hz, Q 0.707 designs, bit for bit. -/
def Obligations.DesignVectors : Prop :=
  design cfg .lowPass (f32 0x447A0000) (f32 0x3F34FDF4) =
    { b0 := f32 0x3B96DCB2, b1 := f32 0x3C16DCB2, b2 := f32 0x3B96DCB2, a1 := f32 0xBFE647FA, a2 := f32 0x3F5146DA } ∧
  design cfg .highPass (f32 0x447A0000) (f32 0x3F34FDF4) =
    { b0 := f32 0x3F6775B3, b1 := f32 0xBFE775B3, b2 := f32 0x3F6775B3, a1 := f32 0xBFE647FA, a2 := f32 0x3F5146DA }

/-- R84: at the nine corner points of the parameter ranges the rounded denominator is strictly inside the stability triangle,
|a2| < 1 and |a1| < 1 + a2, for both filter types. -/
def Obligations.CornerDesignsStable : Prop :=
  ∀ ft : FilterType,
    ∀ fc ∈ [f32 0x40A00000, f32 0x447A0000, f32 0x469C4000],
      ∀ q ∈ [f32 0x3DCCCCCD, f32 0x3F34FDF4, f32 0x41A00000],
        ∃ x1 x2 : Int, rank (design cfg ft fc q).a1 = some x1 ∧ rank (design cfg ft fc q).a2 = some x2 ∧
          -(2 ^ 149 : Int) < x2 ∧ x2 < 2 ^ 149 ∧ -(2 ^ 149 + x2) < x1 ∧ x1 < 2 ^ 149 + x2

/-- R85, R132: the settled outputs are fixed points of the rounded recursion: the low-pass under a constant 1.0 stays at
0x3F800004, the high-pass at the subnormal 0x80000002. -/
def Obligations.SettledOutputsAreFixed : Prop :=
  ∀ ft : FilterType,
    let y := if ft = .lowPass then f32 0x3F800004 else f32 0x80000002
    let d : Delay F := { x1 := f32 0x3F800000, x2 := f32 0x3F800000, y1 := y, y2 := y }
    biquadStep cfg (design cfg ft (f32 0x447A0000) (f32 0x3F34FDF4)) d (f32 0x3F800000) = (y, d)
end

