-- ==== Sys2Proof/Laws/Rounding.lean ====
section
/-! SUPPORT. What the rounding of Machine/Float.lean does in every format (spec/00_scope.md R5): the value of a pattern, its
order, how near `nearestEven` comes, and that rounding is monotone and exact on representable values. -/

namespace Sys2Proof.Machine

variable {k : Format}

/-! ### The value of an exponent and fraction pattern, in units, with `f` fraction bits -/

/-- The magnitude of the pattern `n` (exponent and fraction fields read as one number). -/
def patValue (f n : Nat) : Nat :=
  if n < 2 ^ f then n else (2 ^ f + n % 2 ^ f) * 2 ^ (n / 2 ^ f - 1)

/-- The pattern of a finite value. -/
def patOf (e : Fin (k.expTop + 1)) (m : BitVec k.fracBits) : Nat := e.val * 2 ^ k.fracBits + m.toNat

/-- The two fields of a pattern. -/
theorem fields_of_pattern {w x j : Nat} (hj : j < w) : (x * w + j) / w = x ∧ (x * w + j) % w = j := by
  constructor
  · rw [Nat.mul_comm, Nat.mul_add_div (by omega), Nat.div_eq_of_lt hj, Nat.add_zero]
  · rw [Nat.mul_comm, Nat.mul_add_mod, Nat.mod_eq_of_lt hj]

theorem patOf_lt (e : Fin (k.expTop + 1)) (m : BitVec k.fracBits) : patOf e m < (k.expTop + 1) * 2 ^ k.fracBits := by
  have he := e.isLt
  have hm := m.isLt
  unfold patOf
  have : (e.val + 1) * 2 ^ k.fracBits ≤ (k.expTop + 1) * 2 ^ k.fracBits := Nat.mul_le_mul_right _ he
  rw [Nat.add_mul, Nat.one_mul] at this
  omega

/-- Packing a pattern below the infinities and taking the fields apart again. -/
theorem pack_patOf (neg : Bool) (e : Fin (k.expTop + 1)) (m : BitVec k.fracBits) : pack neg (patOf e m) = .fin neg e m := by
  obtain ⟨hd, hmod⟩ := fields_of_pattern (x := e.val) m.isLt
  rw [pack, if_pos (patOf_lt e m), patOf, hd]
  congr 1
  · apply Fin.ext
    simp [Fin.ofNat, Nat.mod_eq_of_lt e.isLt]
  · apply BitVec.eq_of_toNat_eq
    rw [BitVec.toNat_ofNat]
    exact hmod

/-- A pattern below the infinities is some finite value's. -/
theorem pack_fin (neg : Bool) {n : Nat} (h : n < (k.expTop + 1) * 2 ^ k.fracBits) :
    ∃ (e : Fin (k.expTop + 1)) (m : BitVec k.fracBits), pack neg n = .fin neg e m ∧ patOf e m = n := by
  have hd : n / 2 ^ k.fracBits < k.expTop + 1 := (Nat.div_lt_iff_lt_mul (Nat.two_pow_pos _)).2 h
  refine ⟨⟨n / 2 ^ k.fracBits, hd⟩, BitVec.ofNat k.fracBits n, ?_, ?_⟩
  · rw [pack, if_pos h]
    congr 1
    apply Fin.ext
    exact Nat.mod_eq_of_lt hd
  · simp only [patOf, BitVec.toNat_ofNat]
    exact Nat.div_add_mod' n _

theorem pack_inf (neg : Bool) {n : Nat} (h : ¬ n < (k.expTop + 1) * 2 ^ k.fracBits) : (pack neg n : Flt k) = .inf neg := by
  rw [pack, if_neg h]

/-- A finite value's magnitude is its pattern's value. -/
theorem magnitude_eq (e : Fin (k.expTop + 1)) (m : BitVec k.fracBits) : magnitude e m = patValue k.fracBits (patOf e m) := by
  have hm := m.isLt
  obtain ⟨hd, hmod⟩ := fields_of_pattern (x := e.val) hm
  rw [magnitude, significand, patValue, patOf, hd, hmod]
  by_cases he : e.val = 0
  · rw [if_pos he, he, Nat.zero_mul, Nat.zero_add, if_pos hm]
    simp
  · have : 2 ^ k.fracBits ≤ e.val * 2 ^ k.fracBits := Nat.le_mul_of_pos_left _ (Nat.pos_of_ne_zero he)
    rw [if_neg he, if_neg (by omega)]

/-- A significand `n` of up to `f + 1` bits (one more for the carry) in binade `x`: its pattern's value is `n` scaled by the
binade. -/
theorem patValue_binade {f x n : Nat} (hx : x = 0 ∨ 2 ^ f ≤ n) (hn : n ≤ 2 * 2 ^ f) :
    patValue f (x * 2 ^ f + n) = n * 2 ^ x := by
  have hw := Nat.two_pow_pos f
  rw [patValue]
  by_cases h0 : n < 2 ^ f
  · have : x = 0 := by omega
    subst this
    rw [if_pos (by omega)]
    simp
  · rw [if_neg (by omega)]
    by_cases h1 : n = 2 * 2 ^ f
    · subst h1
      obtain ⟨hd, hmod⟩ := fields_of_pattern (x := x + 2) hw
      rw [Nat.add_zero] at hd hmod
      rw [← Nat.add_mul, hd, hmod, show x + 2 - 1 = x + 1 by omega, pow_succ]
      ring
    · obtain ⟨hd, hmod⟩ := fields_of_pattern (w := 2 ^ f) (x := x + 1) (j := n - 2 ^ f) (by omega)
      have e : x * 2 ^ f + n = (x + 1) * 2 ^ f + (n - 2 ^ f) := by
        rw [Nat.add_mul, Nat.one_mul]
        omega
      rw [e, hd, hmod, show x + 1 - 1 = x by omega, show 2 ^ f + (n - 2 ^ f) = n by omega]

/-- Every pattern is a significand of at most `f + 1` bits in a binade. -/
theorem pattern_binade (f n : Nat) : ∃ x j, n = x * 2 ^ f + j ∧ (x = 0 ∨ 2 ^ f ≤ j) ∧ j < 2 * 2 ^ f := by
  have hw := Nat.two_pow_pos f
  by_cases h : n < 2 * 2 ^ f
  · exact ⟨0, n, by omega, .inl rfl, h⟩
  · have hq : 1 ≤ n / 2 ^ f := (Nat.one_le_div_iff hw).2 (by omega)
    have hm := Nat.mod_lt n hw
    have hd := Nat.div_add_mod' n (2 ^ f)
    refine ⟨n / 2 ^ f - 1, 2 ^ f + n % 2 ^ f, ?_, .inr (by omega), by omega⟩
    have : (n / 2 ^ f - 1 + 1) * 2 ^ f = n / 2 ^ f * 2 ^ f := by rw [Nat.sub_add_cancel hq]
    rw [Nat.add_mul, Nat.one_mul] at this
    omega

/-- The next pattern has a larger value. -/
theorem patValue_succ (f n : Nat) : patValue f n < patValue f (n + 1) := by
  obtain ⟨x, j, rfl, hx, hj⟩ := pattern_binade f n
  rw [patValue_binade hx (by omega), Nat.add_assoc, patValue_binade (by omega) (by omega)]
  exact Nat.mul_lt_mul_of_pos_right (Nat.lt_succ_self j) (Nat.two_pow_pos x)

/-- Patterns are ordered as their values are. -/
theorem patValue_strictMono (f : Nat) : StrictMono (patValue f) := strictMono_nat_of_lt_succ (patValue_succ f)

/-! ### Nearest integer, ties to even -/

/-- `nearestEven` comes within half of one. -/
theorem nearestEven_near {num den : Nat} (hd : 0 < den) :
    2 * num ≤ (2 * nearestEven num den + 1) * den ∧ 2 * nearestEven num den * den ≤ 2 * num + den := by
  have h := Nat.div_add_mod num den
  have hr := Nat.mod_lt num hd
  simp only [nearestEven]
  generalize num / den = q at *
  generalize num % den = r at *
  split
  · rename_i hc
    simp only [Bool.or_eq_true, decide_eq_true_eq, Bool.and_eq_true, beq_iff_eq] at hc
    have hc' : den ≤ 2 * r := by omega
    constructor <;> nlinarith
  · rename_i hc
    simp only [Bool.or_eq_true, decide_eq_true_eq, Bool.and_eq_true, beq_iff_eq, not_or, not_lt] at hc
    constructor <;> nlinarith

/-- At a tie the even integer is taken. -/
theorem nearestEven_tie {num den q : Nat} (hd : 0 < den) (h : 2 * num = (2 * q + 1) * den) :
    nearestEven num den % 2 = 0 := by
  have hm := Nat.div_add_mod num den
  have hr := Nat.mod_lt num hd
  have hq : num / den = q := by
    apply Nat.div_eq_of_lt_le <;> nlinarith
  simp only [nearestEven]
  rw [hq] at hm ⊢
  have hrr : 2 * (num % den) = den := by nlinarith
  simp only [hrr, lt_self_iff_false, decide_false, BEq.rfl, Bool.true_and, Bool.false_or, beq_iff_eq]
  split <;> omega

/-- The integer part or the next. -/
theorem nearestEven_bounds (num den : Nat) : num / den ≤ nearestEven num den ∧ nearestEven num den ≤ num / den + 1 := by
  simp only [nearestEven]
  split <;> omega

/-- A whole number is its own nearest integer. -/
theorem nearestEven_exact {n den : Nat} (hd : 0 < den) : nearestEven (n * den) den = n := by
  simp only [nearestEven, Nat.mul_div_cancel _ hd, Nat.mul_mod_left]
  rw [if_neg (by simp; omega)]

/-- A larger fraction has no smaller nearest integer. -/
theorem nearestEven_mono {a b c d : Nat} (hb : 0 < b) (hd : 0 < d) (h : a * d ≤ c * b) :
    nearestEven a b ≤ nearestEven c d := by
  by_contra hlt
  push Not at hlt
  have ha := nearestEven_near (num := a) hb
  have hc := nearestEven_near (num := c) hd
  set x := nearestEven a b with hx
  set y := nearestEven c d with hy
  -- the two are one apart and both fractions lie on the tie between them
  have e1 : (2 * x - 1) * (b * d) ≤ 2 * (a * d) := by
    have : 2 * x * b ≤ 2 * a + b := ha.2
    have h2 : (2 * x - 1) * b ≤ 2 * a := by
      have : (2 * x - 1) * b + b = 2 * x * b := by
        have : 2 * x = (2 * x - 1) + 1 := by omega
        nlinarith
      omega
    nlinarith
  have e2 : 2 * (c * b) ≤ (2 * y + 1) * (b * d) := by
    have := hc.1
    nlinarith
  have hbd : 0 < b * d := Nat.mul_pos hb hd
  have hle : (2 * x - 1) * (b * d) ≤ (2 * y + 1) * (b * d) := by omega
  have hxy : 2 * x - 1 ≤ 2 * y + 1 := Nat.le_of_mul_le_mul_right hle hbd
  have hx1 : x = y + 1 := by omega
  have t1 : 2 * a = (2 * y + 1) * b := by
    have : (2 * y + 1) * (b * d) ≤ 2 * (a * d) := by
      have : 2 * x - 1 = 2 * y + 1 := by omega
      rw [this] at e1
      exact e1
    have h1 : 2 * (a * d) = (2 * y + 1) * (b * d) := by omega
    have : (2 * a) * d = ((2 * y + 1) * b) * d := by nlinarith
    exact Nat.eq_of_mul_eq_mul_right hd this
  have t2 : 2 * c = (2 * y + 1) * d := by
    have : (2 * y + 1) * (b * d) ≤ 2 * (a * d) := by
      have : 2 * x - 1 = 2 * y + 1 := by omega
      rw [this] at e1
      exact e1
    have h1 : 2 * (c * b) = (2 * y + 1) * (b * d) := by omega
    have : (2 * c) * b = ((2 * y + 1) * d) * b := by nlinarith
    exact Nat.eq_of_mul_eq_mul_right hb this
  have p1 := nearestEven_tie hb t1
  have p2 := nearestEven_tie hd t2
  rw [← hx] at p1
  rw [← hy] at p2
  omega

/-! ### The rounded pattern -/

/-- A number of units and its binade: below 2^(f+1) there is nothing to scale, else `f + 1` bits remain. -/
theorem excess_spec (f q : Nat) : q < 2 ^ (excess f q + (f + 1)) ∧ (excess f q = 0 ∨ 2 ^ (excess f q + f) ≤ q) := by
  unfold excess
  by_cases h0 : q = 0
  · subst h0
    simp
  · have h1 := Nat.lt_log2_self (n := q)
    have h2 := Nat.log2_self_le h0
    by_cases h : q.log2 ≤ f
    · rw [Nat.sub_eq_zero_of_le h]
      exact ⟨lt_of_lt_of_le h1 (Nat.pow_le_pow_right (by norm_num) (by omega)), .inl rfl⟩
    · rw [show q.log2 - f + (f + 1) = q.log2 + 1 by omega, show q.log2 - f + f = q.log2 by omega]
      exact ⟨h1, .inr h2⟩

/-- The significand the rounding keeps, before the carry: at most `f + 1` bits, and as many in a scaled binade. -/
theorem quotient_spec (f num den : Nat) :
    num / (den * 2 ^ excess f (num / den)) < 2 * 2 ^ f ∧
      (excess f (num / den) = 0 ∨ 2 ^ f ≤ num / (den * 2 ^ excess f (num / den))) := by
  obtain ⟨h1, h2⟩ := excess_spec f (num / den)
  rw [← Nat.div_div_eq_div_mul]
  constructor
  · rw [Nat.div_lt_iff_lt_mul (Nat.two_pow_pos _), ← pow_succ', ← pow_add, Nat.add_comm]
    exact h1
  · rcases h2 with h2 | h2
    · exact .inl h2
    · right
      rw [Nat.le_div_iff_mul_le (Nat.two_pow_pos _), ← pow_add, Nat.add_comm]
      exact h2

/-- The value of the rounded pattern: the nearest multiple of the binade's unit. -/
theorem patValue_roundPattern (f num den : Nat) :
    patValue f (roundPattern f num den) =
      nearestEven num (den * 2 ^ excess f (num / den)) * 2 ^ excess f (num / den) := by
  obtain ⟨h1, h2⟩ := quotient_spec f num den
  have hb := nearestEven_bounds num (den * 2 ^ excess f (num / den))
  exact patValue_binade (by omega) (by omega)

/-- A larger fraction has no smaller rounded pattern. -/
theorem roundPattern_mono {f a b c d : Nat} (hb : 0 < b) (hd : 0 < d) (h : a * d ≤ c * b) :
    roundPattern f a b ≤ roundPattern f c d := by
  have hq : a / b ≤ c / d := by
    rw [Nat.le_div_iff_mul_le hd]
    have := Nat.div_mul_le_self a b
    apply Nat.le_of_mul_le_mul_right _ hb
    nlinarith
  obtain ⟨h1, _⟩ := quotient_spec f a b
  obtain ⟨_, h2⟩ := quotient_spec f c d
  have hn1 := nearestEven_bounds a (b * 2 ^ excess f (a / b))
  have hn2 := nearestEven_bounds c (d * 2 ^ excess f (c / d))
  have hx : excess f (a / b) ≤ excess f (c / d) := by
    unfold excess
    have : Nat.log2 (a / b) ≤ Nat.log2 (c / d) := by
      rw [Nat.log2_eq_log_two, Nat.log2_eq_log_two]
      exact Nat.log_mono_right hq
    omega
  unfold roundPattern
  dsimp only
  rcases Nat.lt_or_eq_of_le hx with hx | hx
  · have : (excess f (a / b) + 1) * 2 ^ f ≤ excess f (c / d) * 2 ^ f := Nat.mul_le_mul_right _ hx
    rw [Nat.add_mul, Nat.one_mul] at this
    omega
  · rw [← hx]
    have := nearestEven_mono (a := a) (b := b * 2 ^ excess f (a / b)) (c := c) (d := d * 2 ^ excess f (a / b))
      (Nat.mul_pos hb (Nat.two_pow_pos _)) (Nat.mul_pos hd (Nat.two_pow_pos _))
      (by nlinarith [Nat.two_pow_pos (excess f (a / b))])
    omega

/-- A representable magnitude is rounded to itself. -/
theorem roundPattern_exact {f p num den : Nat} (hd : 0 < den) (h : num = patValue f p * den) : roundPattern f num den = p := by
  subst h
  obtain ⟨x, j, rfl, hx, hj⟩ := pattern_binade f p
  rw [patValue_binade hx (by omega)]
  have hq : j * 2 ^ x * den / den = j * 2 ^ x := Nat.mul_div_cancel _ hd
  have he : excess f (j * 2 ^ x) = x := by
    unfold excess
    by_cases hj0 : j = 0
    · subst hj0
      have := Nat.two_pow_pos f
      have : x = 0 := by omega
      subst this
      simp
    · have hpos : j * 2 ^ x ≠ 0 := Nat.mul_ne_zero hj0 (Nat.two_pow_pos x).ne'
      have hlt : (j * 2 ^ x).log2 < f + 1 + x := by
        rw [Nat.log2_lt hpos, pow_add, pow_succ']
        exact Nat.mul_lt_mul_of_pos_right hj (Nat.two_pow_pos x)
      rcases hx with rfl | hx
      · omega
      · have hle : f + x ≤ (j * 2 ^ x).log2 := by
          rw [Nat.le_log2 hpos, pow_add]
          exact Nat.mul_le_mul_right _ hx
        omega
  unfold roundPattern
  dsimp only
  rw [hq, he, show j * 2 ^ x * den = j * (den * 2 ^ x) by ring,
    nearestEven_exact (Nat.mul_pos hd (Nat.two_pow_pos x))]

/-- A finite value's own magnitude, over any denominator, rounds to that value. -/
theorem roundNearest_exact (neg : Bool) (e : Fin (k.expTop + 1)) (m : BitVec k.fracBits) {num den : Nat} (hd : 0 < den)
    (h : num = magnitude e m * den) : roundNearest neg num den = .fin neg e m := by
  rw [roundNearest, roundPattern_exact hd (h.trans (by rw [magnitude_eq])), pack_patOf]

end Sys2Proof.Machine
end

