-- ==== Sys2Proof/Laws/Design.lean ====
section
/-! SUPPORT. The small lemmas of the arithmetic as the designs use it: the default configuration's fields, a NaN through
every operation (spec/00_scope.md R5), the three ways a clamp answers (R7), and what a biquad step leaves in its channel
(spec/43_evaluation.md R90). -/

namespace Sys2Proof.Machine

variable {k : Format} {V : Type}

/-! ### The default configuration (R4) -/

@[simp] theorem cfg_fadd : cfg.num.fadd = fltAdd := rfl
@[simp] theorem cfg_fsub : cfg.num.fsub = fltSub := rfl
@[simp] theorem cfg_fmul : cfg.num.fmul = fltMul := rfl
@[simp] theorem cfg_fdiv : cfg.num.fdiv = fltDiv := rfl
@[simp] theorem cfg_fneg : cfg.num.fneg = fltNeg := rfl
@[simp] theorem cfg_lt : cfg.num.lt = fltLt := rfl
@[simp] theorem cfg_f32 : cfg.num.f32 = f32 := rfl
@[simp] theorem cfg_bits32 : cfg.num.bits32 = bits32 := rfl
@[simp] theorem cfg_finite : cfg.num.finite = fltFinite := rfl
@[simp] theorem cfg_zero : cfg.num.zero = f32 0x00000000 := rfl
@[simp] theorem cfg_one : cfg.num.one = f32 0x3F800000 := rfl
@[simp] theorem cfg_two : cfg.num.two = f32 0x40000000 := rfl
@[simp] theorem cfg_negTwo : cfg.num.negTwo = f32 0xC0000000 := rfl
@[simp] theorem cfg_twelve : cfg.num.twelve = f32 0x41400000 := rfl
@[simp] theorem cfg_twoPi : cfg.num.twoPi = f32 0x40C90FDB := rfl
@[simp] theorem cfg_fs : cfg.fs = f32 0x472C4400 := rfl
@[simp] theorem cfg_fLo : cfg.fLo = f32 0x40A00000 := rfl
@[simp] theorem cfg_fHi : cfg.fHi = f32 0x469C4000 := rfl
@[simp] theorem cfg_qMin : cfg.qMin = f32 0x3DCCCCCD := rfl
@[simp] theorem cfg_qMax : cfg.qMax = f32 0x41A00000 := rfl
@[simp] theorem cfg_cutInit : cfg.cutInit = f32 0x447A0000 := rfl
@[simp] theorem cfg_qInit : cfg.qInit = f32 0x3F34FDF4 := rfl

/-! ### A NaN goes through every operation (R5) -/

@[simp] theorem fltLt_nan_left (b : Flt k) : fltLt (.nan : Flt k) b = false := rfl
@[simp] theorem fltLt_nan_right (a : Flt k) : fltLt a .nan = false := by cases a <;> rfl
@[simp] theorem fltAdd_nan_left (b : Flt k) : fltAdd .nan b = .nan := rfl
@[simp] theorem fltAdd_nan_right (a : Flt k) : fltAdd a .nan = .nan := by cases a <;> rfl
@[simp] theorem fltSub_nan_left (b : Flt k) : fltSub .nan b = .nan := rfl
@[simp] theorem fltSub_nan_right (a : Flt k) : fltSub a .nan = .nan := by cases a <;> rfl
@[simp] theorem fltMul_nan_left (b : Flt k) : fltMul .nan b = .nan := rfl
@[simp] theorem fltMul_nan_right (a : Flt k) : fltMul a .nan = .nan := by cases a <;> rfl
@[simp] theorem fltDiv_nan_left (b : Flt k) : fltDiv .nan b = .nan := rfl
@[simp] theorem fltDiv_nan_right (a : Flt k) : fltDiv a .nan = .nan := by cases a <;> rfl

/-! ### What is not finite stays so (spec/70_reset_and_hazards.md R131) -/

@[simp] theorem fltFinite_nan : fltFinite (.nan : Flt k) = false := rfl
@[simp] theorem fltFinite_inf (neg : Bool) : fltFinite (.inf neg : Flt k) = false := rfl
@[simp] theorem fltFinite_fin (neg : Bool) (e : Fin (k.expTop + 1)) (m : BitVec k.fracBits) :
    fltFinite (.fin neg e m) = true := rfl

theorem fltAdd_finite {a b : Flt k} (h : fltFinite a = false ∨ fltFinite b = false) : fltFinite (fltAdd a b) = false := by
  cases a <;> cases b <;> simp_all [fltAdd, apply_ite fltFinite]

theorem fltNeg_finite (a : Flt k) : fltFinite (fltNeg a) = fltFinite a := by cases a <;> rfl

theorem fltSub_finite {a b : Flt k} (h : fltFinite a = false ∨ fltFinite b = false) : fltFinite (fltSub a b) = false :=
  fltAdd_finite (by rwa [fltNeg_finite])

theorem fltMul_finite {a b : Flt k} (h : fltFinite a = false ∨ fltFinite b = false) : fltFinite (fltMul a b) = false := by
  cases a <;> cases b <;> simp_all [fltMul, apply_ite fltFinite]

/-! ### Order -/

/-- Addition is commutative; it is not associative (spec/90_conflicts.md C5). -/
theorem fltAdd_comm (a b : Flt k) : fltAdd a b = fltAdd b a := by
  cases a <;> cases b <;> simp only [fltAdd]
  · rename_i n k
    by_cases h : n = k
    · subst h; rfl
    · rw [if_neg h, if_neg fun e => h e.symm]
  · rw [Bool.and_comm, Int.add_comm]

/-- The order of two values that have a place in it. -/
theorem fltLt_rank {a b : Flt k} {x y : Int} (ha : rank a = some x) (hb : rank b = some y) :
    fltLt a b = decide (x < y) := by
  simp only [fltLt, ha, hb]

/-- Only a NaN has no place in the order. -/
theorem rank_eq_none {a : Flt k} : rank a = none ↔ a = .nan := by
  cases a <;> simp [rank]

/-! ### Clamps (R7) -/

/-- The clamp of the default configuration. -/
theorem clamp_cfg (v lo hi : F) :
    clamp cfg v lo hi = if fltLt v lo = true then lo else if fltLt hi v = true then hi else v := rfl

/-- A clamp answers the lower bound, the upper bound, or a value that is outside neither. -/
theorem clamp_cases (v lo hi : F) :
    clamp cfg v lo hi = lo ∨ clamp cfg v lo hi = hi ∨
      (clamp cfg v lo hi = v ∧ fltLt v lo = false ∧ fltLt hi v = false) := by
  rw [clamp_cfg]
  cases h1 : fltLt v lo <;> cases h2 : fltLt hi v <;> simp

/-- A value that is outside neither bound is not changed by a clamp; a NaN is such a value. -/
theorem clamp_inside {v lo hi : F} (h1 : fltLt v lo = false) (h2 : fltLt hi v = false) : clamp cfg v lo hi = v := by
  rw [clamp_cfg, h1, h2]; rfl

/-! ### The biquad step (R90) -/

/-- A step keeps its input and its output as the channel's newest, and moves the ones before. -/
theorem biquadStep_delay (c : Config.Cfg V) (k : Coeffs V) (d : Delay V) (x : V) :
    (biquadStep c k d x).2 = { x1 := x, x2 := d.x1, y1 := (biquadStep c k d x).1, y2 := d.y1 } := rfl

/-- Stepping a channel reads the parameters and that channel alone. -/
theorem stepChannel_congr {c : Config.Cfg V} {b b' : BfuOf V} {ch : Channel} (hft : b.ft = b'.ft) (hcut : b.cut = b'.cut)
    (hq : b.q = b'.q) (hcm : b.cutmod = b'.cutmod) (hqm : b.qmod = b'.qmod) (hd : getDelay b ch = getDelay b' ch) (x : V) :
    stepChannel c b ch x = stepChannel c b' ch x := by
  simp only [stepChannel, coeffsOf, ecutOf, eqOf, hft, hcut, hq, hcm, hqm, hd]

end Sys2Proof.Machine
end

