-- ==== Sys2Proof/Laws/Elementary.lean ====
section
/-! SUPPORT. The enclosures of Machine/Elementary.lean hold: the real cosine, sine and power of two lie between the two
integers that are rounded (spec/00_scope.md R6, "the exact real result rounded once"). -/

namespace Sys2Proof.Machine

/-! ### Power series -/

/-- What is known of the term `t` of index `j`: it is the exact term scaled, at most 4 too small. -/
def TermNear (y P : ℝ) (j t : Nat) : Prop :=
  (t : ℝ) ≤ y ^ j / (j.factorial : ℝ) * P ∧ y ^ j / (j.factorial : ℝ) * P - 4 ≤ t

/-- The next term is as near. -/
theorem termNear_next {Y p j t : Nat} {y : ℝ} (hy : y = Y / 2 ^ p) (h34 : y ≤ 3 / 4) (h : TermNear y (2 ^ p) j t) :
    TermNear y (2 ^ p) (j + 1) (t * Y / (2 ^ p * (j + 1))) := by
  obtain ⟨h1, h2⟩ := h
  have hP : (0 : ℝ) < 2 ^ p := by positivity
  have hy0 : 0 ≤ y := by rw [hy]; positivity
  have hj : (0 : ℝ) < (j : ℝ) + 1 := by positivity
  have hj1 : (1 : ℝ) ≤ (j : ℝ) + 1 := by linarith [Nat.cast_nonneg (α := ℝ) j]
  have hY : (Y : ℝ) = y * 2 ^ p := by rw [hy]; field_simp
  -- the exact quotient
  have hquot : ((t * Y : ℕ) : ℝ) / ((2 ^ p * (j + 1) : ℕ) : ℝ) = t * (y / (j + 1)) := by
    push_cast
    rw [hY]
    field_simp
  have hle : ((t * Y / (2 ^ p * (j + 1)) : ℕ) : ℝ) ≤ t * (y / (j + 1)) := by
    rw [← hquot]
    exact Nat.cast_div_le
  have hge : (t : ℝ) * (y / (j + 1)) - 1 ≤ ((t * Y / (2 ^ p * (j + 1)) : ℕ) : ℝ) := by
    rw [← hquot]
    have := Nat.lt_floor_add_one (((t * Y : ℕ) : ℝ) / ((2 ^ p * (j + 1) : ℕ) : ℝ))
    rw [Nat.floor_div_eq_div] at this
    linarith
  have hexact : y ^ (j + 1) / ((j + 1).factorial : ℝ) * 2 ^ p = (y ^ j / (j.factorial : ℝ) * 2 ^ p) * (y / (j + 1)) := by
    rw [Nat.factorial_succ]
    push_cast
    field_simp
    ring
  have hr0 : 0 ≤ y / ((j : ℝ) + 1) := by positivity
  have hr : y / ((j : ℝ) + 1) ≤ 3 / 4 := by
    rw [div_le_iff₀ hj]
    nlinarith
  constructor
  · rw [hexact]
    exact hle.trans (mul_le_mul_of_nonneg_right h1 hr0)
  · rw [hexact]
    nlinarith

/-- The exact partial sum of the exponential series from term `j`, scaled. -/
noncomputable def expPart (y P : ℝ) : Nat → Nat → ℝ
  | 0, _ => 0
  | n + 1, j => y ^ j / (j.factorial : ℝ) * P + expPart y P n (j + 1)

/-- The exact partial sums of the cosine and sine series, as one turn of the imaginary unit a term, scaled. -/
noncomputable def turnPart (y P : ℝ) : Nat → Nat → ℝ × ℝ
  | 0, _ => (0, 0)
  | n + 1, j => (y ^ j / (j.factorial : ℝ) * P - (turnPart y P n (j + 1)).2, (turnPart y P n (j + 1)).1)

theorem sumTerms_near {Y p : Nat} {y : ℝ} (hy : y = Y / 2 ^ p) (h34 : y ≤ 3 / 4) :
    ∀ n j t, TermNear y (2 ^ p) j t →
      (sumTerms (seriesTerms Y p n j t) : ℝ) ≤ expPart y (2 ^ p) n j ∧
        expPart y (2 ^ p) n j - 4 * n ≤ (sumTerms (seriesTerms Y p n j t) : ℝ)
  | 0, _, _, _ => by simp [seriesTerms, sumTerms, expPart]
  | n + 1, j, t, h => by
    obtain ⟨i1, i2⟩ := sumTerms_near hy h34 n (j + 1) _ (termNear_next hy h34 h)
    obtain ⟨h1, h2⟩ := h
    simp only [seriesTerms, sumTerms, expPart]
    push_cast
    constructor <;> linarith

theorem turnTerms_near {Y p : Nat} {y : ℝ} (hy : y = Y / 2 ^ p) (h34 : y ≤ 3 / 4) :
    ∀ n j t, TermNear y (2 ^ p) j t →
      |((turnTerms (seriesTerms Y p n j t)).1 : ℝ) - (turnPart y (2 ^ p) n j).1| ≤ 4 * n ∧
        |((turnTerms (seriesTerms Y p n j t)).2 : ℝ) - (turnPart y (2 ^ p) n j).2| ≤ 4 * n
  | 0, _, _, _ => by simp [seriesTerms, turnTerms, turnPart]
  | n + 1, j, t, h => by
    obtain ⟨i1, i2⟩ := turnTerms_near hy h34 n (j + 1) _ (termNear_next hy h34 h)
    obtain ⟨h1, h2⟩ := h
    rw [abs_le] at i1 i2
    obtain ⟨i1a, i1b⟩ := i1
    obtain ⟨i2a, i2b⟩ := i2
    simp only [seriesTerms, turnTerms, turnPart]
    rw [abs_le, abs_le]
    push_cast
    refine ⟨⟨?_, ?_⟩, ?_, ?_⟩ <;> linarith

/-- The exact sums are those of the exponential series. -/
theorem expPart_eq (y P : ℝ) : ∀ n j, expPart y P n j = P * ∑ i ∈ Finset.range n, y ^ (j + i) / ((j + i).factorial : ℝ)
  | 0, _ => by simp [expPart]
  | n + 1, j => by
    rw [expPart, expPart_eq y P n (j + 1), Finset.sum_range_succ']
    simp only [Nat.add_zero, show ∀ i, j + 1 + i = j + (i + 1) by intro i; omega]
    ring

theorem turnPart_eq (y P : ℝ) : ∀ n j,
    ((turnPart y P n j).1 : ℂ) + Complex.I * (turnPart y P n j).2 =
      P * ∑ i ∈ Finset.range n, Complex.I ^ i * (y : ℂ) ^ (j + i) / ((j + i).factorial : ℂ)
  | 0, _ => by simp [turnPart]
  | n + 1, j => by
    have ih := turnPart_eq y P n (j + 1)
    rw [turnPart, Finset.sum_range_succ']
    simp only [Nat.add_zero, pow_zero, one_mul, pow_succ']
    have hs : ∑ i ∈ Finset.range n, Complex.I * Complex.I ^ i * (y : ℂ) ^ (j + (i + 1)) / ((j + (i + 1)).factorial : ℂ)
        = Complex.I * ∑ i ∈ Finset.range n, Complex.I ^ i * (y : ℂ) ^ (j + 1 + i) / ((j + 1 + i).factorial : ℂ) := by
      rw [Finset.mul_sum]
      refine Finset.sum_congr rfl fun i _ => ?_
      rw [show j + (i + 1) = j + 1 + i by omega]
      ring
    rw [hs, mul_add, show (P : ℂ) * (Complex.I * ∑ i ∈ Finset.range n, Complex.I ^ i * (y : ℂ) ^ (j + 1 + i) / ((j + 1 + i).factorial : ℂ))
        = Complex.I * (P * ∑ i ∈ Finset.range n, Complex.I ^ i * (y : ℂ) ^ (j + 1 + i) / ((j + 1 + i).factorial : ℂ)) by ring, ← ih]
    push_cast
    have hI : Complex.I * Complex.I = -1 := Complex.I_mul_I
    linear_combination (-(((turnPart y P n (j + 1)).2 : ℝ) : ℂ)) * hI

/-! ### The rest of the series is below one unit in the last place -/

/-- The remainder bound after `termCount` terms. -/
theorem remainder_small {y : ℝ} (h0 : 0 ≤ y) {r : ℕ} (hr : y ≤ (1 / 2) ^ r) :
    y ^ termCount * ((termCount.succ : ℝ) * ((termCount.factorial : ℝ) * termCount)⁻¹) ≤ (1 / 2) ^ (96 * r) * (1 / 2) ^ 400 := by
  have hy : y ^ termCount ≤ (1 / 2) ^ (96 * r) := by
    rw [show termCount = 96 from rfl, mul_comm, pow_mul]
    exact pow_le_pow_left₀ h0 hr 96
  have hn : 97 * 2 ^ 400 ≤ Nat.factorial 96 * 96 := by decide +kernel
  have hn' : (97 : ℝ) * 2 ^ 400 ≤ (Nat.factorial 96 : ℝ) * 96 := by exact_mod_cast hn
  have hc : ((termCount.succ : ℝ) * ((termCount.factorial : ℝ) * termCount)⁻¹) ≤ (1 / 2) ^ 400 := by
    have hpos : (0 : ℝ) < (Nat.factorial 96 : ℝ) * 96 := by positivity
    have e : ((termCount.succ : ℝ) * ((termCount.factorial : ℝ) * termCount)⁻¹) = 97 / ((Nat.factorial 96 : ℝ) * 96) := by
      simp only [termCount, Nat.succ_eq_add_one, div_eq_mul_inv]
      norm_num
    rw [e, one_div, inv_pow, div_le_iff₀ hpos, ← div_eq_inv_mul, le_div_iff₀ (by positivity)]
    exact hn'
  exact mul_le_mul hy hc (by positivity) (by positivity)

/-! ### Sine and cosine -/

/-- Cutting a quotient down loses less than one. -/
theorem ediv_near (a : Int) (p : Nat) :
    (a : ℝ) / 2 ^ p - 1 ≤ ((a / 2 ^ p : Int) : ℝ) ∧ ((a / 2 ^ p : Int) : ℝ) ≤ (a : ℝ) / 2 ^ p := by
  have hP : (0 : ℝ) < 2 ^ p := by positivity
  have hPi : (0 : Int) < 2 ^ p := by positivity
  have h1 : (a / 2 ^ p) * 2 ^ p ≤ a := Int.ediv_mul_le a hPi.ne'
  have h2 : a < (a / 2 ^ p + 1) * 2 ^ p := Int.lt_ediv_add_one_mul_self a hPi
  have h1' : ((a / 2 ^ p : Int) : ℝ) * 2 ^ p ≤ a := by exact_mod_cast h1
  have h2' : (a : ℝ) < (((a / 2 ^ p : Int) : ℝ) + 1) * 2 ^ p := by exact_mod_cast h2
  constructor
  · rw [sub_le_iff_le_add, div_le_iff₀ hP]
    exact h2'.le
  · rw [le_div_iff₀ hP]
    exact h1'

/-- A computed cosine and sine are within `e` units of those of `a`. -/
def AngleNear (p : Nat) (e a : ℝ) (cs : Int × Int) : Prop :=
  |(cs.1 : ℝ) - 2 ^ p * Real.cos a| ≤ e ∧ |(cs.2 : ℝ) - 2 ^ p * Real.sin a| ≤ e

/-- The error of a product of two near values of at most 2^p in size, scaled back. -/
theorem product_near {P e u v U V : ℝ} (hP : 0 < P) (he : 0 ≤ e) (heP : e * e ≤ P) (hu : |u - U| ≤ e) (hv : |v - V| ≤ e)
    (hU : |U| ≤ P) (hV : |V| ≤ P) : |2 * u * v / P - 2 * U * V / P| ≤ 4 * e + 2 := by
  have key : 2 * u * v / P - 2 * U * V / P = (2 * (u - U) * (v - V) + 2 * (u - U) * V + 2 * U * (v - V)) / P := by
    field_simp
    ring
  rw [key, abs_div, abs_of_pos hP, div_le_iff₀ hP]
  have t1 : |2 * (u - U) * (v - V)| ≤ 2 * (e * e) := by
    rw [abs_mul, abs_mul, abs_two, mul_assoc]
    have := mul_le_mul hu hv (abs_nonneg _) he
    linarith
  have t2 : |2 * (u - U) * V| ≤ 2 * (e * P) := by
    rw [abs_mul, abs_mul, abs_two, mul_assoc]
    have := mul_le_mul hu hV (abs_nonneg _) he
    linarith
  have t3 : |2 * U * (v - V)| ≤ 2 * (P * e) := by
    rw [abs_mul, abs_mul, abs_two, mul_assoc]
    have := mul_le_mul hU hv (abs_nonneg _) hP.le
    linarith
  have := abs_add_le (2 * (u - U) * (v - V) + 2 * (u - U) * V) (2 * U * (v - V))
  have := abs_add_le (2 * (u - U) * (v - V)) (2 * (u - U) * V)
  nlinarith

/-- One doubling of the angle. -/
theorem angleNear_double {p : Nat} {e a : ℝ} {cs : Int × Int} (he : 0 ≤ e) (heP : e * e ≤ 2 ^ p)
    (h : AngleNear p e a cs) :
    AngleNear p (4 * e + 3) (2 * a) (2 * cs.1 * cs.1 / 2 ^ p - 2 ^ p, 2 * cs.2 * cs.1 / 2 ^ p) := by
  obtain ⟨hc, hs⟩ := h
  have hP : (0 : ℝ) < 2 ^ p := by positivity
  have hC : |2 ^ p * Real.cos a| ≤ 2 ^ p := by
    rw [abs_mul, abs_of_pos hP]
    exact mul_le_of_le_one_right hP.le (Real.abs_cos_le_one a)
  have hS : |2 ^ p * Real.sin a| ≤ 2 ^ p := by
    rw [abs_mul, abs_of_pos hP]
    exact mul_le_of_le_one_right hP.le (Real.abs_sin_le_one a)
  have d1 := ediv_near (2 * cs.1 * cs.1) p
  have d2 := ediv_near (2 * cs.2 * cs.1) p
  have m1 := product_near hP he heP hc hc hC hC
  have m2 := product_near hP he heP hs hc hS hC
  push_cast at d1 d2
  rw [abs_le] at m1 m2
  have e1 : 2 * (2 ^ p * Real.cos a) * (2 ^ p * Real.cos a) / 2 ^ p - 2 ^ p = 2 ^ p * Real.cos (2 * a) := by
    rw [Real.cos_two_mul]
    field_simp
  have e2 : 2 * (2 ^ p * Real.sin a) * (2 ^ p * Real.cos a) / 2 ^ p = 2 ^ p * Real.sin (2 * a) := by
    rw [Real.sin_two_mul]
    field_simp
  unfold AngleNear
  rw [abs_le, abs_le, ← e1, ← e2]
  push_cast
  refine ⟨⟨?_, ?_⟩, ?_, ?_⟩ <;> linarith [m1.1, m1.2, m2.1, m2.2, d1.1, d1.2, d2.1, d2.2]

/-- All the doublings. -/
theorem angleNear_doubleAngle {p : Nat} : ∀ (h : Nat) {e a : ℝ} {cs : Int × Int}, 0 ≤ e →
    (4 ^ h * (e + 1)) * (4 ^ h * (e + 1)) ≤ 2 ^ p → AngleNear p e a cs →
      AngleNear p (4 ^ h * (e + 1) - 1) (2 ^ h * a) (doubleAngle p h cs)
  | 0, e, a, cs, _, _, hn => by simpa [doubleAngle] using hn
  | h + 1, e, a, cs, he, hP, hn => by
    have h4 : (1 : ℝ) ≤ 4 ^ h := one_le_pow₀ (by norm_num)
    have hee : e * e ≤ 2 ^ p := by
      refine le_trans ?_ hP
      have : e ≤ 4 ^ (h + 1) * (e + 1) := by
        rw [pow_succ]
        nlinarith
      exact mul_le_mul this this he (he.trans this)
    have hstep := angleNear_double he hee hn
    have hrec := angleNear_doubleAngle h (e := 4 * e + 3) (a := 2 * a) (by linarith)
      (by rw [show (4 : ℝ) ^ h * (4 * e + 3 + 1) = 4 ^ (h + 1) * (e + 1) by ring]; exact hP) hstep
    rw [show (4 : ℝ) ^ h * (4 * e + 3 + 1) - 1 = 4 ^ (h + 1) * (e + 1) - 1 by ring,
      show (2 : ℝ) ^ h * (2 * a) = 2 ^ (h + 1) * a by ring] at hrec
    exact hrec

/-- The halved argument is below 1/8. -/
theorem halved_small {n : Nat} : (n : ℝ) / 2 ^ (149 + halvings n) ≤ (1 / 2) ^ 3 := by
  have h1 := Nat.lt_log2_self (n := n)
  have h2 : n.log2 + 1 ≤ 146 + halvings n := by unfold halvings; omega
  have h3 : n ≤ 2 ^ (146 + halvings n) := (h1.trans_le (Nat.pow_le_pow_right (by norm_num) h2)).le
  have h3' : (n : ℝ) ≤ 2 ^ (146 + halvings n) := by exact_mod_cast h3
  rw [div_le_iff₀ (by positivity)]
  refine h3'.trans (le_of_eq ?_)
  rw [show 149 + halvings n = 3 + (146 + halvings n) by omega, pow_add 2 3]
  generalize (2 : ℝ) ^ (146 + halvings n) = x
  ring

/-- A finite magnitude is halved at most 131 times. -/
theorem halvings_le {n : Nat} (hn : n < 2 ^ 277) : halvings n ≤ 131 := by
  unfold halvings
  by_cases h0 : n = 0
  · subst h0; decide
  · have := (Nat.log2_lt h0).2 hn
    omega

/-- The series' cosine and sine of an angle below 1/8. -/
theorem turnTerms_angle {Y p : Nat} {y : ℝ} (hY : y = Y / 2 ^ p) (hy3 : y ≤ (1 / 2) ^ 3) (hp : p ≤ 688) :
    AngleNear p 385 y (turnTerms (seriesTerms Y p termCount 0 (2 ^ p))) := by
  have hP0 : (0 : ℝ) < 2 ^ p := by positivity
  have hy0 : 0 ≤ y := by rw [hY]; positivity
  have hy34 : y ≤ 3 / 4 := hy3.trans (by norm_num)
  have hcast : ((2 ^ p : ℕ) : ℝ) = 2 ^ p := by push_cast; rfl
  have t0 : TermNear y (2 ^ p) 0 (2 ^ p) := by
    refine ⟨?_, ?_⟩ <;> rw [hcast, pow_zero, Nat.factorial_zero, Nat.cast_one, div_one, one_mul]
    linarith
  obtain ⟨s1, s2⟩ := turnTerms_near hY hy34 termCount 0 (2 ^ p) t0
  generalize turnTerms (seriesTerms Y p termCount 0 (2 ^ p)) = cs at *
  have hexact := turnPart_eq y (2 ^ p) termCount 0
  generalize turnPart y (2 ^ p) termCount 0 = tp at *
  -- the remainder
  have hnorm : ‖Complex.I * (y : ℂ)‖ = y := by
    rw [norm_mul, Complex.norm_I, one_mul, Complex.norm_real, Real.norm_of_nonneg hy0]
  have hb := Complex.exp_bound (x := Complex.I * (y : ℂ)) (by rw [hnorm]; linarith) (n := termCount) (by decide)
  rw [hnorm] at hb
  have hrem := hb.trans (remainder_small hy0 hy3)
  have hsum : ∑ m ∈ Finset.range termCount, (Complex.I * (y : ℂ)) ^ m / (m.factorial : ℂ)
      = ∑ i ∈ Finset.range termCount, Complex.I ^ i * (y : ℂ) ^ (0 + i) / ((0 + i).factorial : ℂ) := by
    refine Finset.sum_congr rfl fun i _ => ?_
    rw [Nat.zero_add, mul_pow]
  rw [hsum] at hrem
  generalize ∑ i ∈ Finset.range termCount, Complex.I ^ i * (y : ℂ) ^ (0 + i) / ((0 + i).factorial : ℂ) = S at *
  have hexp : Complex.exp (Complex.I * y) = (Real.cos y : ℂ) + Complex.I * (Real.sin y : ℂ) := by
    rw [mul_comm, Complex.exp_mul_I, Complex.ofReal_cos, Complex.ofReal_sin]
    ring
  rw [hexp] at hrem
  have hsmall : (2 : ℝ) ^ p * ((1 / 2) ^ (96 * 3) * (1 / 2) ^ 400) ≤ 1 := by
    rw [← pow_add, one_div, inv_pow, ← div_eq_mul_inv, div_le_one (by positivity)]
    exact pow_le_pow_right₀ (by norm_num) (by omega)
  generalize ((1 : ℝ) / 2) ^ (96 * 3) * (1 / 2) ^ 400 = δ at *
  have scaled : ∀ u v : ℝ, |u - v| ≤ δ → |2 ^ p * u - 2 ^ p * v| ≤ 1 := by
    intro u v huv
    rw [← mul_sub, abs_mul, abs_of_pos hP0]
    exact (mul_le_mul_of_nonneg_left huv hP0.le).trans hsmall
  have hre : |Real.cos y - S.re| ≤ δ := by
    refine le_trans (le_of_eq ?_) ((Complex.abs_re_le_norm _).trans hrem)
    congr 1
    simp only [Complex.sub_re, Complex.add_re, Complex.ofReal_re, Complex.mul_re, Complex.I_re, Complex.I_im,
      Complex.ofReal_im]
    ring
  have him : |Real.sin y - S.im| ≤ δ := by
    refine le_trans (le_of_eq ?_) ((Complex.abs_im_le_norm _).trans hrem)
    congr 1
    simp only [Complex.sub_im, Complex.add_im, Complex.ofReal_re, Complex.mul_im, Complex.I_re, Complex.I_im,
      Complex.ofReal_im]
    ring
  have pre : tp.1 = 2 ^ p * S.re := by
    have := congrArg Complex.re hexact
    rw [Complex.re_ofReal_mul] at this
    simpa using this
  have pim : tp.2 = 2 ^ p * S.im := by
    have := congrArg Complex.im hexact
    rw [Complex.im_ofReal_mul] at this
    simpa using this
  have h1 := scaled _ _ hre
  have h2 := scaled _ _ him
  have hc : (4 : ℝ) * (termCount : ℕ) = 384 := by rw [show termCount = 96 from rfl]; norm_num
  rw [pre, hc] at s1
  rw [pim, hc] at s2
  unfold AngleNear
  rw [abs_le] at s1 s2 h1 h2
  rw [abs_le, abs_le]
  constructor <;> constructor <;> linarith [s1.1, s1.2, s2.1, s2.2, h1.1, h1.2, h2.1, h2.2]

/-- The computed cosine and sine with `h` halvings of an argument they bring below 1/8. -/
theorem doubled_near {n h p : Nat} (hp : p = 300 + 2 * h) (hh : h ≤ 131) (hy3 : (n : ℝ) / 2 ^ (149 + h) ≤ (1 / 2) ^ 3) :
    AngleNear p (2 ^ (2 * h + 12)) ((n : ℝ) / 2 ^ 149)
      (doubleAngle p h (turnTerms (seriesTerms (n * 2 ^ (p - 149 - h)) p termCount 0 (2 ^ p)))) := by
  have hY : (n : ℝ) / 2 ^ (149 + h) = ((n * 2 ^ (p - 149 - h) : ℕ) : ℝ) / 2 ^ p := by
    rw [div_eq_div_iff (by positivity) (by positivity)]
    push_cast
    rw [mul_assoc, ← pow_add, show p - 149 - h + (149 + h) = p by omega]
  have start := turnTerms_angle hY hy3 (by omega)
  have e4 : (4 : ℝ) ^ h = 2 ^ (2 * h) := by rw [pow_mul]; norm_num
  have hsq : ((4 : ℝ) ^ h * (385 + 1)) * (4 ^ h * (385 + 1)) ≤ 2 ^ p := by
    have hb9 : (4 : ℝ) ^ h * (385 + 1) ≤ 2 ^ (2 * h + 9) := by
      rw [e4, pow_add]
      exact mul_le_mul_of_nonneg_left (by norm_num) (by positivity)
    refine (mul_le_mul hb9 hb9 (by positivity) (by positivity)).trans ?_
    rw [← pow_add]
    exact pow_le_pow_right₀ (by norm_num) (by omega)
  have hd := angleNear_doubleAngle h (by norm_num) hsq start
  have hang : (2 : ℝ) ^ h * ((n : ℝ) / 2 ^ (149 + h)) = (n : ℝ) / 2 ^ 149 := by
    rw [pow_add]
    field_simp
  rw [hang] at hd
  have hfin : (4 : ℝ) ^ h * (385 + 1) - 1 ≤ 2 ^ (2 * h + 12) := by
    rw [e4, pow_add]
    have : (0 : ℝ) < 2 ^ (2 * h) := by positivity
    generalize (2 : ℝ) ^ (2 * h) = x at *
    norm_num
    nlinarith
  exact ⟨hd.1.trans hfin, hd.2.trans hfin⟩

/-- The computed cosine and sine of `n · 2^-149`. -/
theorem cosSin_near {n : Nat} (hn : n < 2 ^ 277) :
    AngleNear (anglePlaces (halvings n)) (2 ^ (2 * halvings n + 12)) ((n : ℝ) / 2 ^ 149) (cosSin n) :=
  doubled_near rfl (halvings_le hn) halved_small

/-- An enclosure holds a real number. -/
def Encloses (d : Enclosure) (r : ℝ) : Prop := (d.lo : ℝ) ≤ r * 2 ^ d.p ∧ r * 2 ^ d.p ≤ d.hi

/-- A value in [-1, 1] that a computed one is near to is in its enclosure. -/
theorem unitEnclosure_encloses {h : Nat} {a : Int} {r : ℝ} (h1 : |r| ≤ 1)
    (hn : |(a : ℝ) - 2 ^ anglePlaces h * r| ≤ 2 ^ (2 * h + 12)) : Encloses (unitEnclosure h a) r := by
  have hP : (0 : ℝ) < 2 ^ anglePlaces h := by positivity
  rw [abs_le] at h1 hn
  obtain ⟨n1, n2⟩ := hn
  simp only [Encloses, unitEnclosure]
  push_cast
  generalize (2 : ℝ) ^ anglePlaces h = P at *
  generalize (2 : ℝ) ^ (2 * h + 12) = E at *
  constructor
  · apply max_le
    · nlinarith
    · linarith
  · apply le_min
    · nlinarith
    · linarith

/-- The cosine that is rounded: the exact one is in its enclosure. -/
theorem cos_enclosed {n : Nat} (hn : n < 2 ^ 277) :
    Encloses (unitEnclosure (halvings n) (cosSin n).1) (Real.cos ((n : ℝ) / 2 ^ 149)) :=
  unitEnclosure_encloses (Real.abs_cos_le_one _) (cosSin_near hn).1

/-- The sine that is rounded: the exact one is in its enclosure. -/
theorem sin_enclosed {n : Nat} (hn : n < 2 ^ 277) :
    Encloses (unitEnclosure (halvings n) (cosSin n).2) (Real.sin ((n : ℝ) / 2 ^ 149)) :=
  unitEnclosure_encloses (Real.abs_sin_le_one _) (cosSin_near hn).2

/-! ### Two to the power -/

/-- The exact partial sums of the series of ln 2, scaled. -/
noncomputable def ln2Part : Nat → Nat → ℝ
  | 0, _ => 0
  | n + 1, i => 2 ^ exp2Places / ((i : ℝ) * 2 ^ i) + ln2Part n (i + 1)

theorem ln2Sum_near : ∀ n i, (ln2Sum n i : ℝ) ≤ ln2Part n i ∧ ln2Part n i - n ≤ ln2Sum n i
  | 0, _ => by simp [ln2Sum, ln2Part]
  | n + 1, i => by
    obtain ⟨h1, h2⟩ := ln2Sum_near n (i + 1)
    have hq : (((2 ^ exp2Places : ℕ) : ℝ) / ((i * 2 ^ i : ℕ) : ℝ)) = 2 ^ exp2Places / ((i : ℝ) * 2 ^ i) := by
      push_cast; rfl
    have hle : ((2 ^ exp2Places / (i * 2 ^ i) : ℕ) : ℝ) ≤ 2 ^ exp2Places / ((i : ℝ) * 2 ^ i) := by
      rw [← hq]; exact Nat.cast_div_le
    have hge : 2 ^ exp2Places / ((i : ℝ) * 2 ^ i) - 1 ≤ ((2 ^ exp2Places / (i * 2 ^ i) : ℕ) : ℝ) := by
      rw [← hq]
      have := Nat.lt_floor_add_one (((2 ^ exp2Places : ℕ) : ℝ) / ((i * 2 ^ i : ℕ) : ℝ))
      rw [Nat.floor_div_eq_div] at this
      linarith
    rw [ln2Sum, ln2Part, Nat.cast_add, Nat.cast_add, Nat.cast_one]
    constructor <;> linarith

theorem ln2Part_eq : ∀ n i, ln2Part n i =
    2 ^ exp2Places * ∑ k ∈ Finset.range n, (1 / 2 : ℝ) ^ (i + k) / ((i + k : ℕ) : ℝ)
  | 0, _ => by simp [ln2Part]
  | n + 1, i => by
    rw [ln2Part, ln2Part_eq n (i + 1), Finset.sum_range_succ']
    simp only [Nat.add_zero, show ∀ k, i + 1 + k = i + (k + 1) by intro k; omega]
    have e : (2 : ℝ) ^ exp2Places / ((i : ℝ) * 2 ^ i) = 2 ^ exp2Places * ((1 / 2 : ℝ) ^ i / (i : ℝ)) := by
      rw [one_div, inv_pow]
      rw [mul_comm (i : ℝ), div_mul_eq_div_div]
      ring
    rw [e]
    ring

/-- ln 2 in `exp2Places` places, at most 332 too small. -/
theorem ln2_near : (ln2 : ℝ) ≤ Real.log 2 * 2 ^ exp2Places ∧ Real.log 2 * 2 ^ exp2Places - 332 ≤ ln2 := by
  obtain ⟨h1, h2⟩ := ln2Sum_near 330 1
  rw [ln2Part_eq] at h1 h2
  have hlog : Real.log 2 = -Real.log (1 - 1 / 2) := by
    rw [show (1 : ℝ) - 1 / 2 = 2⁻¹ by norm_num, Real.log_inv, neg_neg]
  have hs : HasSum (fun k : ℕ => (1 / 2 : ℝ) ^ (k + 1) / ((k : ℝ) + 1)) (Real.log 2) := by
    rw [hlog]
    exact Real.hasSum_pow_div_log_of_abs_lt_one (by rw [abs_of_pos] <;> norm_num)
  have habs := Real.abs_log_sub_add_sum_range_le (x := 1 / 2) (by rw [abs_of_pos] <;> norm_num) 330
  have esum : ∑ k ∈ Finset.range 330, (1 / 2 : ℝ) ^ (1 + k) / ((1 + k : ℕ) : ℝ)
      = ∑ k ∈ Finset.range 330, (1 / 2 : ℝ) ^ (k + 1) / ((k : ℝ) + 1) := by
    refine Finset.sum_congr rfl fun k _ => ?_
    rw [Nat.add_comm 1 k]
    push_cast
    rfl
  rw [esum] at h1 h2
  have hle : ∑ k ∈ Finset.range 330, (1 / 2 : ℝ) ^ (k + 1) / ((k : ℝ) + 1) ≤ Real.log 2 :=
    sum_le_hasSum _ (fun k _ => div_nonneg (pow_nonneg (by norm_num) _) (by linarith [Nat.cast_nonneg (α := ℝ) k])) hs
  have hge : Real.log 2 - ∑ k ∈ Finset.range 330, (1 / 2 : ℝ) ^ (k + 1) / ((k : ℝ) + 1) ≤ (1 / 2) ^ 330 := by
    rw [hlog]
    have := (abs_le.1 habs).1
    rw [abs_of_pos (by norm_num : (0 : ℝ) < 1 / 2)] at this
    have e : (1 / 2 : ℝ) ^ (330 + 1) / (1 - 1 / 2) = (1 / 2) ^ 330 := by
      rw [pow_succ]
      ring
    rw [e] at this
    linarith
  generalize ∑ k ∈ Finset.range 330, (1 / 2 : ℝ) ^ (k + 1) / ((k : ℝ) + 1) = S at *
  have hP : (0 : ℝ) < 2 ^ exp2Places := by positivity
  have hsm : (2 : ℝ) ^ exp2Places * (1 / 2) ^ 330 ≤ 1 := by
    rw [one_div, inv_pow, ← div_eq_mul_inv, div_le_one (by positivity)]
    exact pow_le_pow_right₀ (by norm_num) (by decide)
  unfold ln2
  generalize (2 : ℝ) ^ exp2Places = P at *
  generalize (1 / 2 : ℝ) ^ 330 = d at *
  rw [show ((330 : ℕ) : ℝ) = 330 by norm_num] at h2
  constructor <;> nlinarith

/-- The enclosure of 2^(fr/2^149) holds it. -/
theorem exp2Frac_encloses {fr : Nat} (hfr : fr < 2 ^ 149) :
    Encloses (exp2Frac fr) ((2 : ℝ) ^ ((fr : ℝ) / 2 ^ 149)) := by
  obtain ⟨l1, l2⟩ := ln2_near
  have hP : (0 : ℝ) < 2 ^ exp2Places := by positivity
  have hlog1 : Real.log 2 < 0.7 := by linarith [Real.log_two_lt_d9]
  have hlog0 : 0 < Real.log 2 := Real.log_pos (by norm_num)
  set Y := fr * ln2 / 2 ^ 149 with hYdef
  set y : ℝ := (Y : ℝ) / 2 ^ exp2Places with hy
  set x : ℝ := (fr : ℝ) / 2 ^ 149 with hx
  have hx0 : 0 ≤ x := div_nonneg (Nat.cast_nonneg _) (pow_nonneg (by norm_num) _)
  have hx1 : x < 1 := by
    rw [hx, div_lt_one (by positivity)]
    exact_mod_cast hfr
  -- the argument of the series
  have hYle : (Y : ℝ) ≤ x * ln2 := by
    have : ((fr * ln2 / 2 ^ 149 : ℕ) : ℝ) ≤ ((fr * ln2 : ℕ) : ℝ) / ((2 ^ 149 : ℕ) : ℝ) := Nat.cast_div_le
    rw [hYdef, hx]
    refine this.trans (le_of_eq ?_)
    push_cast
    ring
  have hYge : x * ln2 - 1 ≤ Y := by
    have := Nat.lt_floor_add_one (((fr * ln2 : ℕ) : ℝ) / ((2 ^ 149 : ℕ) : ℝ))
    rw [Nat.floor_div_eq_div] at this
    have e : ((fr * ln2 : ℕ) : ℝ) / ((2 ^ 149 : ℕ) : ℝ) = x * ln2 := by
      rw [hx]
      push_cast
      ring
    rw [e] at this
    rw [hYdef]
    linarith
  have hY1 : (Y : ℝ) ≤ x * Real.log 2 * 2 ^ exp2Places := by
    refine hYle.trans ?_
    rw [mul_assoc]
    exact mul_le_mul_of_nonneg_left l1 hx0
  have hY2 : x * Real.log 2 * 2 ^ exp2Places - 333 ≤ Y := by nlinarith
  have hyle : y ≤ x * Real.log 2 := by rw [hy, div_le_iff₀ hP]; exact hY1
  have hy0 : 0 ≤ y := div_nonneg (Nat.cast_nonneg _) hP.le
  have hyub : y ≤ 0.7 := by nlinarith
  have hyge : (x * Real.log 2 - y) * 2 ^ exp2Places ≤ 333 := by
    have : y * 2 ^ exp2Places = Y := by rw [hy]; field_simp
    nlinarith
  -- the series
  have t0 : TermNear y (2 ^ exp2Places) 0 (2 ^ exp2Places) := by
    refine ⟨?_, ?_⟩ <;> rw [Nat.cast_pow, Nat.cast_ofNat, pow_zero, Nat.factorial_zero, Nat.cast_one, div_one, one_mul]
    linarith
  obtain ⟨s1, s2⟩ := sumTerms_near (p := exp2Places) hy (by linarith) termCount 0 (2 ^ exp2Places) t0
  rw [expPart_eq] at s1 s2
  have hsum : ∑ i ∈ Finset.range termCount, y ^ (0 + i) / ((0 + i).factorial : ℝ)
      = ∑ i ∈ Finset.range termCount, y ^ i / (i.factorial : ℝ) := by
    refine Finset.sum_congr rfl fun i _ => ?_
    rw [Nat.zero_add]
  rw [hsum] at s1 s2
  have hle : ∑ i ∈ Finset.range termCount, y ^ i / (i.factorial : ℝ) ≤ Real.exp y := Real.sum_le_exp_of_nonneg hy0 _
  have hb := Real.exp_bound (x := y) (by rw [abs_of_nonneg hy0]; linarith) (n := termCount) (by decide)
  rw [abs_of_nonneg hy0] at hb
  have hrem := hb.trans (remainder_small (r := 0) hy0 (by rw [pow_zero]; linarith))
  have hge := (abs_le.1 hrem).2
  rw [Nat.mul_zero, pow_zero, one_mul] at hge
  have hsm : (2 : ℝ) ^ exp2Places * (1 / 2) ^ 400 ≤ 1 := by
    rw [one_div, inv_pow, ← div_eq_mul_inv, div_le_one (by positivity)]
    exact pow_le_pow_right₀ (by norm_num) (by decide)
  -- the exponential of the cut argument against the exact one
  have htarget : (2 : ℝ) ^ x = Real.exp (x * Real.log 2) := by
    rw [Real.rpow_def_of_pos (by norm_num), mul_comm]
  have hmono : Real.exp y ≤ Real.exp (x * Real.log 2) := Real.exp_le_exp.2 hyle
  have htwo : Real.exp (x * Real.log 2) ≤ 2 := by
    rw [← htarget]
    calc (2 : ℝ) ^ x ≤ 2 ^ (1 : ℝ) := Real.rpow_le_rpow_of_exponent_le (by norm_num) hx1.le
      _ = 2 := Real.rpow_one 2
  have hdiff : Real.exp (x * Real.log 2) - Real.exp y ≤ 2 * (x * Real.log 2 - y) := by
    have hconv : 1 + (y - x * Real.log 2) ≤ Real.exp (y - x * Real.log 2) := by
      linarith [Real.add_one_le_exp (y - x * Real.log 2)]
    have hm : Real.exp y = Real.exp (x * Real.log 2) * Real.exp (y - x * Real.log 2) := by
      rw [← Real.exp_add]
      congr 1
      ring
    have hpos := Real.exp_pos (x * Real.log 2)
    rw [hm]
    nlinarith
  have hcount : (4 : ℝ) * (termCount : ℕ) = 384 := by rw [show termCount = 96 from rfl]; norm_num
  rw [hcount] at s2
  simp only [Encloses, exp2Frac]
  rw [htarget]
  push_cast
  generalize ∑ i ∈ Finset.range termCount, y ^ i / (i.factorial : ℝ) = S at *
  generalize (sumTerms (seriesTerms Y exp2Places termCount 0 (2 ^ exp2Places)) : ℝ) = A at *
  generalize (2 : ℝ) ^ exp2Places = P at *
  generalize ((1 : ℝ) / 2) ^ 400 = d at *
  generalize Real.exp (x * Real.log 2) = E at *
  generalize Real.exp y = e at *
  have q1 : P * S ≤ P * e := mul_le_mul_of_nonneg_left hle hP.le
  have q2 : P * e ≤ P * E := mul_le_mul_of_nonneg_left hmono hP.le
  have q3 : P * (E - e) ≤ P * (2 * (x * Real.log 2 - y)) := mul_le_mul_of_nonneg_left hdiff hP.le
  have q4 : P * (e - S) ≤ P * d := mul_le_mul_of_nonneg_left hge hP.le
  constructor
  · linarith
  · nlinarith

end Sys2Proof.Machine
end

