-- ==== Sys2Proof/Laws/State.lean ====
section
/-! SUPPORT. One lemma per field per update of the state, each true by rfl: what `respond`, `deliver`, `raise`, `refuse`,
`resetUnit`, `issue`, `setDelay` and `construct` leave in every field. Later proofs rewrite with these and do not unfold an update. -/

namespace Sys2Proof.Machine

variable {V : Type}

/-! ### respond, complete and deliver -/

@[simp] theorem respond_bfu (st : BitVec 8) (ra rb : Word32) (b : BfuOf V) : (respond st ra rb b).bfu = b := rfl
@[simp] theorem respond_word (st : BitVec 8) (ra rb : Word32) (b : BfuOf V) :
    (respond st ra rb b).word = responseWord st ra rb := rfl
@[simp] theorem complete_bfu (b : BfuOf V) (ra rb : Word32) : (complete b ra rb).bfu = b := rfl
@[simp] theorem complete_word (b : BfuOf V) (ra rb : Word32) : (complete b ra rb).word = responseWord statusOk ra rb := rfl

/-- A delivered reply is a next state: its unit, its word as the newest response, and the host's acts as they were. -/
theorem deliver_eq (s : State) (r : Reply F) : deliver s r =
    .next { bfu := r.bfu, port := { pending := s.port.pending, responses := r.word :: s.port.responses } } := rfl

/-- What a delivered reply leaves, read off a next state. -/
theorem deliver_next {s t : State} {r : Reply F} (h : deliver s r = .next t) :
    t.bfu = r.bfu ∧ t.port.pending = s.port.pending ∧ t.port.responses = r.word :: s.port.responses := by
  cases h
  exact ⟨rfl, rfl, rfl⟩

/-! ### raise -/

@[simp] theorem raise_cfg (k : Cause) (b : BfuOf V) : (raise k b).bfu.cfg = b.cfg := rfl
@[simp] theorem raise_ft (k : Cause) (b : BfuOf V) : (raise k b).bfu.ft = b.ft := rfl
@[simp] theorem raise_cut (k : Cause) (b : BfuOf V) : (raise k b).bfu.cut = b.cut := rfl
@[simp] theorem raise_q (k : Cause) (b : BfuOf V) : (raise k b).bfu.q = b.q := rfl
@[simp] theorem raise_cutmod (k : Cause) (b : BfuOf V) : (raise k b).bfu.cutmod = b.cutmod := rfl
@[simp] theorem raise_qmod (k : Cause) (b : BfuOf V) : (raise k b).bfu.qmod = b.qmod := rfl
@[simp] theorem raise_xl1 (k : Cause) (b : BfuOf V) : (raise k b).bfu.xl1 = b.xl1 := rfl
@[simp] theorem raise_xl2 (k : Cause) (b : BfuOf V) : (raise k b).bfu.xl2 = b.xl2 := rfl
@[simp] theorem raise_yl1 (k : Cause) (b : BfuOf V) : (raise k b).bfu.yl1 = b.yl1 := rfl
@[simp] theorem raise_yl2 (k : Cause) (b : BfuOf V) : (raise k b).bfu.yl2 = b.yl2 := rfl
@[simp] theorem raise_xr1 (k : Cause) (b : BfuOf V) : (raise k b).bfu.xr1 = b.xr1 := rfl
@[simp] theorem raise_xr2 (k : Cause) (b : BfuOf V) : (raise k b).bfu.xr2 = b.xr2 := rfl
@[simp] theorem raise_yr1 (k : Cause) (b : BfuOf V) : (raise k b).bfu.yr1 = b.yr1 := rfl
@[simp] theorem raise_yr2 (k : Cause) (b : BfuOf V) : (raise k b).bfu.yr2 = b.yr2 := rfl
@[simp] theorem raise_flt (k : Cause) (b : BfuOf V) : (raise k b).bfu.flt = true := rfl
@[simp] theorem raise_cause (k : Cause) (b : BfuOf V) : (raise k b).bfu.cause = causeCode k := rfl
@[simp] theorem raise_word (k : Cause) (b : BfuOf V) : (raise k b).word = responseWord (causeCode k) 0 0 := rfl

/-! ### refuse -/

@[simp] theorem refuse_bfu (b : BfuOf V) : (refuse b).bfu = b := rfl
@[simp] theorem refuse_word (b : BfuOf V) :
    (refuse b).word = responseWord statusRefused (b.cause.setWidth 32) 0 := rfl

/-! ### resetUnit and issue -/

@[simp] theorem resetUnit_bfu (s : State) : (resetUnit s).bfu = Bfu.reset := rfl
@[simp] theorem resetUnit_port (s : State) : (resetUnit s).port = s.port := rfl
@[simp] theorem issue_bfu (w : CmdWord) (s : State) : (issue w s).bfu = s.bfu := rfl
@[simp] theorem issue_pending (w : CmdWord) (s : State) :
    (issue w s).port.pending = .command w :: s.port.pending := rfl
@[simp] theorem issue_responses (w : CmdWord) (s : State) : (issue w s).port.responses = s.port.responses := rfl

/-! ### setDelay -/

@[simp] theorem setDelay_left_cfg (b : BfuOf V) (d : Delay V) : (setDelay b d .left).cfg = b.cfg := rfl
@[simp] theorem setDelay_left_flt (b : BfuOf V) (d : Delay V) : (setDelay b d .left).flt = b.flt := rfl
@[simp] theorem setDelay_left_ft (b : BfuOf V) (d : Delay V) : (setDelay b d .left).ft = b.ft := rfl
@[simp] theorem setDelay_left_cause (b : BfuOf V) (d : Delay V) : (setDelay b d .left).cause = b.cause := rfl
@[simp] theorem setDelay_left_cut (b : BfuOf V) (d : Delay V) : (setDelay b d .left).cut = b.cut := rfl
@[simp] theorem setDelay_left_q (b : BfuOf V) (d : Delay V) : (setDelay b d .left).q = b.q := rfl
@[simp] theorem setDelay_left_cutmod (b : BfuOf V) (d : Delay V) : (setDelay b d .left).cutmod = b.cutmod := rfl
@[simp] theorem setDelay_left_qmod (b : BfuOf V) (d : Delay V) : (setDelay b d .left).qmod = b.qmod := rfl
@[simp] theorem setDelay_left_xl1 (b : BfuOf V) (d : Delay V) : (setDelay b d .left).xl1 = d.x1 := rfl
@[simp] theorem setDelay_left_xl2 (b : BfuOf V) (d : Delay V) : (setDelay b d .left).xl2 = d.x2 := rfl
@[simp] theorem setDelay_left_yl1 (b : BfuOf V) (d : Delay V) : (setDelay b d .left).yl1 = d.y1 := rfl
@[simp] theorem setDelay_left_yl2 (b : BfuOf V) (d : Delay V) : (setDelay b d .left).yl2 = d.y2 := rfl
@[simp] theorem setDelay_left_xr1 (b : BfuOf V) (d : Delay V) : (setDelay b d .left).xr1 = b.xr1 := rfl
@[simp] theorem setDelay_left_xr2 (b : BfuOf V) (d : Delay V) : (setDelay b d .left).xr2 = b.xr2 := rfl
@[simp] theorem setDelay_left_yr1 (b : BfuOf V) (d : Delay V) : (setDelay b d .left).yr1 = b.yr1 := rfl
@[simp] theorem setDelay_left_yr2 (b : BfuOf V) (d : Delay V) : (setDelay b d .left).yr2 = b.yr2 := rfl
@[simp] theorem setDelay_right_cfg (b : BfuOf V) (d : Delay V) : (setDelay b d .right).cfg = b.cfg := rfl
@[simp] theorem setDelay_right_flt (b : BfuOf V) (d : Delay V) : (setDelay b d .right).flt = b.flt := rfl
@[simp] theorem setDelay_right_ft (b : BfuOf V) (d : Delay V) : (setDelay b d .right).ft = b.ft := rfl
@[simp] theorem setDelay_right_cause (b : BfuOf V) (d : Delay V) : (setDelay b d .right).cause = b.cause := rfl
@[simp] theorem setDelay_right_cut (b : BfuOf V) (d : Delay V) : (setDelay b d .right).cut = b.cut := rfl
@[simp] theorem setDelay_right_q (b : BfuOf V) (d : Delay V) : (setDelay b d .right).q = b.q := rfl
@[simp] theorem setDelay_right_cutmod (b : BfuOf V) (d : Delay V) : (setDelay b d .right).cutmod = b.cutmod := rfl
@[simp] theorem setDelay_right_qmod (b : BfuOf V) (d : Delay V) : (setDelay b d .right).qmod = b.qmod := rfl
@[simp] theorem setDelay_right_xl1 (b : BfuOf V) (d : Delay V) : (setDelay b d .right).xl1 = b.xl1 := rfl
@[simp] theorem setDelay_right_xl2 (b : BfuOf V) (d : Delay V) : (setDelay b d .right).xl2 = b.xl2 := rfl
@[simp] theorem setDelay_right_yl1 (b : BfuOf V) (d : Delay V) : (setDelay b d .right).yl1 = b.yl1 := rfl
@[simp] theorem setDelay_right_yl2 (b : BfuOf V) (d : Delay V) : (setDelay b d .right).yl2 = b.yl2 := rfl
@[simp] theorem setDelay_right_xr1 (b : BfuOf V) (d : Delay V) : (setDelay b d .right).xr1 = d.x1 := rfl
@[simp] theorem setDelay_right_xr2 (b : BfuOf V) (d : Delay V) : (setDelay b d .right).xr2 = d.x2 := rfl
@[simp] theorem setDelay_right_yr1 (b : BfuOf V) (d : Delay V) : (setDelay b d .right).yr1 = d.y1 := rfl
@[simp] theorem setDelay_right_yr2 (b : BfuOf V) (d : Delay V) : (setDelay b d .right).yr2 = d.y2 := rfl

/-! ### construct -/

@[simp] theorem construct_cfg (c : Config.Cfg V) (t : FilterType) (b : BfuOf V) : (construct c t b).cfg = true := rfl
@[simp] theorem construct_flt (c : Config.Cfg V) (t : FilterType) (b : BfuOf V) : (construct c t b).flt = b.flt := rfl
@[simp] theorem construct_ft (c : Config.Cfg V) (t : FilterType) (b : BfuOf V) : (construct c t b).ft = t := rfl
@[simp] theorem construct_cause (c : Config.Cfg V) (t : FilterType) (b : BfuOf V) : (construct c t b).cause = b.cause := rfl
@[simp] theorem construct_cut (c : Config.Cfg V) (t : FilterType) (b : BfuOf V) : (construct c t b).cut = c.cutInit := rfl
@[simp] theorem construct_q (c : Config.Cfg V) (t : FilterType) (b : BfuOf V) : (construct c t b).q = c.qInit := rfl
@[simp] theorem construct_cutmod (c : Config.Cfg V) (t : FilterType) (b : BfuOf V) : (construct c t b).cutmod = c.num.zero := rfl
@[simp] theorem construct_qmod (c : Config.Cfg V) (t : FilterType) (b : BfuOf V) : (construct c t b).qmod = c.num.zero := rfl
@[simp] theorem construct_xl1 (c : Config.Cfg V) (t : FilterType) (b : BfuOf V) : (construct c t b).xl1 = c.num.zero := rfl
@[simp] theorem construct_xl2 (c : Config.Cfg V) (t : FilterType) (b : BfuOf V) : (construct c t b).xl2 = c.num.zero := rfl
@[simp] theorem construct_yl1 (c : Config.Cfg V) (t : FilterType) (b : BfuOf V) : (construct c t b).yl1 = c.num.zero := rfl
@[simp] theorem construct_yl2 (c : Config.Cfg V) (t : FilterType) (b : BfuOf V) : (construct c t b).yl2 = c.num.zero := rfl
@[simp] theorem construct_xr1 (c : Config.Cfg V) (t : FilterType) (b : BfuOf V) : (construct c t b).xr1 = c.num.zero := rfl
@[simp] theorem construct_xr2 (c : Config.Cfg V) (t : FilterType) (b : BfuOf V) : (construct c t b).xr2 = c.num.zero := rfl
@[simp] theorem construct_yr1 (c : Config.Cfg V) (t : FilterType) (b : BfuOf V) : (construct c t b).yr1 = c.num.zero := rfl
@[simp] theorem construct_yr2 (c : Config.Cfg V) (t : FilterType) (b : BfuOf V) : (construct c t b).yr2 = c.num.zero := rfl

/-! ### getDelay after setDelay -/

@[simp] theorem getDelay_setDelay (b : BfuOf V) (d : Delay V) (ch : Channel) : getDelay (setDelay b d ch) ch = d := by
  cases ch <;> rfl

/-- The two channels share no register (spec/10_state.md R20). -/
theorem getDelay_setDelay_other (b : BfuOf V) (d : Delay V) {ch ch' : Channel} (h : ch ≠ ch') :
    getDelay (setDelay b d ch) ch' = getDelay b ch' := by
  cases ch <;> cases ch' <;> first | rfl | exact absurd rfl h

/-- A step of one channel and a step of the other may be written in either order. -/
theorem setDelay_comm (b : BfuOf V) (d d' : Delay V) :
    setDelay (setDelay b d .left) d' .right = setDelay (setDelay b d' .right) d .left := rfl

/-- Writing a channel back as it was changes nothing. -/
@[simp] theorem setDelay_getDelay (b : BfuOf V) (ch : Channel) : setDelay b (getDelay b ch) ch = b := by
  cases ch <;> rfl

end Sys2Proof.Machine
end

