-- ==== Sys2Proof/Laws/Word.lean ====
section
/-! SUPPORT. The fields of an assembled word, the operand tables read back, and the byte form of a word. -/

namespace Sys2Proof

/-- A bit of an assembled word, by the field it lies in. -/
theorem assembleWord_getLsbD (op : BitVec 8) (a b : Word32) (i : Nat) :
    (assembleWord op a b).getLsbD i =
      if i < 32 then b.getLsbD i else if i - 32 < 32 then a.getLsbD (i - 32) else op.getLsbD (i - 32 - 32) := by
  have e : (assembleWord op a b).getLsbD i = ((op ++ a) ++ b).getLsbD i := rfl
  rw [e, BitVec.getLsbD_append, BitVec.getLsbD_append]

@[simp] theorem opField_assembleWord (op : BitVec 8) (a b : Word32) : opField (assembleWord op a b) = op := by
  apply BitVec.eq_of_getLsbD_eq
  intro i hi
  rw [opField, BitVec.getLsbD_extractLsb', assembleWord_getLsbD, if_neg (by omega), if_neg (by omega)]
  simp [hi, show 64 + i - 32 - 32 = i by omega]

@[simp] theorem aField_assembleWord (op : BitVec 8) (a b : Word32) : aField (assembleWord op a b) = a := by
  apply BitVec.eq_of_getLsbD_eq
  intro i hi
  rw [aField, BitVec.getLsbD_extractLsb', assembleWord_getLsbD, if_neg (by omega), if_pos (by omega)]
  simp [hi, show 32 + i - 32 = i by omega]

@[simp] theorem bField_assembleWord (op : BitVec 8) (a b : Word32) : bField (assembleWord op a b) = b := by
  apply BitVec.eq_of_getLsbD_eq
  intro i hi
  rw [bField, BitVec.getLsbD_extractLsb', assembleWord_getLsbD, if_pos (by omega)]
  simp [hi]

/-- A word is the assembly of its three fields (R41). -/
theorem assembleWord_fields (w : CmdWord) : assembleWord (opField w) (aField w) (bField w) = w := by
  apply BitVec.eq_of_getLsbD_eq
  intro i hi
  rw [assembleWord_getLsbD]
  simp only [opField, aField, bField, BitVec.getLsbD_extractLsb']
  by_cases h1 : i < 32
  · simp [h1]
  · by_cases h2 : i < 64
    · simp [h1, show i - 32 < 32 by omega, show 32 + (i - 32) = i by omega]
    · simp [h1, show ¬ i - 32 < 32 by omega, show i - 32 - 32 < 8 by omega, show 64 + (i - 32 - 32) = i by omega]

@[simp] theorem opcodeOf_opcodeByte (o : Opcode) : opcodeOf (opcodeByte o) = some o := by
  cases o <;> rfl

@[simp] theorem regOf_regIndex (r : Reg) : regOf (regIndex r) = some r := by
  cases r <;> rfl

@[simp] theorem channelOf_channelCode (c : Channel) : channelOf (channelCode c) = some c := by
  cases c <;> rfl

/-- An opcode byte that is read is that opcode's byte. -/
theorem opcodeByte_of_opcodeOf {b : BitVec 8} {o : Opcode} (h : opcodeOf b = some o) : opcodeByte o = b := by
  simp only [opcodeOf, ite_eq_iff, Option.some.injEq, reduceCtorEq, and_false, or_false] at h
  repeat (rcases h with ⟨h1, h2⟩ | ⟨-, h⟩; · subst h1 h2; rfl)
  obtain ⟨h1, h2⟩ := h
  subst h1 h2
  rfl

/-- An index that is read is that register's index. -/
theorem regIndex_of_regOf {i : Word32} {r : Reg} (h : regOf i = some r) : regIndex r = i := by
  simp only [regOf, ite_eq_iff, Option.some.injEq, reduceCtorEq, and_false, or_false] at h
  repeat (rcases h with ⟨h1, h2⟩ | ⟨-, h⟩; · subst h1 h2; rfl)
  obtain ⟨h1, h2⟩ := h
  subst h1 h2
  rfl

/-- A channel number that is read is that channel's number. -/
theorem channelCode_of_channelOf {i : Word32} {c : Channel} (h : channelOf i = some c) : channelCode c = i := by
  simp only [channelOf, ite_eq_iff, Option.some.injEq, reduceCtorEq, and_false, or_false] at h
  rcases h with ⟨h1, h2⟩ | ⟨-, h1, h2⟩ <;> · subst h1 h2; rfl

/-- The must-be-zero check passes exactly on zero, with the decoding behind it (R48). -/
theorem whenZero_ok {z : Word32} {d : Decoded} {i : Instr} : whenZero z d = .ok i ↔ z = 0 ∧ d = .ok i := by
  unfold whenZero
  split <;> simp_all

end Sys2Proof
end

