-- ==== Sys2Proof/Laws/Ops.lean ====
section
/-! SUPPORT. What each shared operation answers, said once: the check sequence of spec/60_exceptions.md R105, the three ways
a command ends (R112), under any configuration, and the step by the host's next act. -/

namespace Sys2Proof.Machine

open Sys2Proof.Config (Cfg)

variable {V : Type}

/-! ### The checks (R105) -/

/-- A faulted unit refuses (R107). -/
@[simp] theorem whenUnfaulted_faulted {b : BfuOf V} (h : b.flt = true) (run : Reply V) :
    whenUnfaulted b run = refuse b := by
  simp [whenUnfaulted, h]

/-- An unfaulted unit goes on. -/
@[simp] theorem whenUnfaulted_unfaulted {b : BfuOf V} (h : b.flt = false) (run : Reply V) :
    whenUnfaulted b run = run := by
  simp [whenUnfaulted, h]

/-- A faulted unit refuses, constructed or not. -/
@[simp] theorem whenConfigured_faulted {b : BfuOf V} (h : b.flt = true) (run : Reply V) :
    whenConfigured b run = refuse b := by
  simp [whenConfigured, h]

/-- An unfaulted unit that is not constructed takes NotConfigured (R103). -/
@[simp] theorem whenConfigured_unbuilt {b : BfuOf V} (h : b.flt = false) (hc : b.cfg = false) (run : Reply V) :
    whenConfigured b run = raise .notConfigured b := by
  simp [whenConfigured, h, hc]

/-- A ready unit executes. -/
@[simp] theorem whenConfigured_ready {b : BfuOf V} (h : b.flt = false) (hc : b.cfg = true) (run : Reply V) :
    whenConfigured b run = run := by
  simp [whenConfigured, h, hc]

/-- An illegal word on an unfaulted unit (R102). -/
@[simp] theorem illegalWord_unfaulted {b : BfuOf V} (h : b.flt = false) : illegalWord b = raise .illegalCommand b := by
  simp [illegalWord, h]

/-- An illegal word on a faulted unit is refused like any other (R107). -/
@[simp] theorem illegalWord_faulted {b : BfuOf V} (h : b.flt = true) : illegalWord b = refuse b := by
  simp [illegalWord, h]

/-! ### How a command ends (R112) -/

/-- The three ends of a command: Ok with some new unit and results, its flags kept (CFG may be set), a fault entry on an
unfaulted unit, or a refusal by a faulted one. -/
inductive Ends (b : BfuOf V) : Reply V → Prop where
  | ok (b' : BfuOf V) (ra rb : Word32) (hflt : b'.flt = b.flt) (hcause : b'.cause = b.cause)
      (hcfg : b.cfg = true → b'.cfg = true) : Ends b (complete b' ra rb)
  | fault (k : Cause) (h : b.flt = false) : Ends b (raise k b)
  | refused (h : b.flt = true) : Ends b (refuse b)

theorem ends_whenUnfaulted {b : BfuOf V} {run : Reply V} (h : b.flt = false → Ends b run) :
    Ends b (whenUnfaulted b run) := by
  cases hf : b.flt
  · rw [whenUnfaulted_unfaulted hf]; exact h hf
  · rw [whenUnfaulted_faulted hf]; exact .refused hf

theorem ends_whenConfigured {b : BfuOf V} {run : Reply V} (h : Ends b run) : Ends b (whenConfigured b run) := by
  refine ends_whenUnfaulted fun hf => ?_
  cases hc : b.cfg
  · exact .fault _ hf
  · exact h

/-- Every instruction ends in one of the three ways, under every configuration. -/
theorem instrUnder_ends (c : Cfg V) (i : Instr) (b : BfuOf V) : Ends b (instrUnder c i b) := by
  cases i with
  | nop => exact .ok _ _ _ rfl rfl id
  | init tag =>
    refine ends_whenUnfaulted fun hf => ?_
    cases filterOf tag with
    | none => exact .fault _ hf
    | some t => exact .ok _ _ _ rfl rfl fun _ => rfl
  | setcut v => exact ends_whenConfigured (.ok _ _ _ rfl rfl id)
  | setq v => exact ends_whenConfigured (.ok _ _ _ rfl rfl id)
  | modCut v => exact ends_whenConfigured (.ok _ _ _ rfl rfl id)
  | modQ v => exact ends_whenConfigured (.ok _ _ _ rfl rfl id)
  | modFwd tag v => exact ends_whenConfigured (.ok _ _ _ rfl rfl id)
  | clrmod => exact ends_whenConfigured (.ok _ _ _ rfl rfl id)
  | proc l r => exact ends_whenConfigured (.ok _ _ _ rfl rfl id)
  | step ch x => cases ch <;> exact ends_whenConfigured (.ok _ _ _ rfl rfl id)
  | rdreg r => exact .ok _ _ _ rfl rfl id

/-- Every command word ends in one of the three ways. -/
theorem commandUnder_ends (c : Cfg V) (w : CmdWord) (b : BfuOf V) : Ends b (commandUnder c w b) := by
  unfold commandUnder
  split
  · exact instrUnder_ends c _ b
  · exact ends_whenUnfaulted fun hf => .fault _ hf

/-! ### The machine delivers what its configuration answers -/

/-- `exec` is `instrUnder` under the machine's configuration, delivered; so it always answers a next state. -/
theorem exec_eq_instrUnder (i : Instr) (s : State) : exec i s = deliver s (instrUnder cfg i s.bfu) := by
  cases i <;> rfl

theorem runCommand_eq_commandUnder (w : CmdWord) (s : State) : runCommand w s = deliver s (commandUnder cfg w s.bfu) := by
  unfold runCommand commandUnder
  cases decode w with
  | ok i => exact exec_eq_instrUnder i s
  | illegal why => rfl

/-! ### The step by the host's next act -/

/-- The machine with its pending acts replaced. -/
def withPending (s : State) (acts : List HostAct) : State := { s with port := { s.port with pending := acts } }

@[simp] theorem withPending_bfu (s : State) (acts : List HostAct) : (withPending s acts).bfu = s.bfu := rfl
@[simp] theorem withPending_pending (s : State) (acts : List HostAct) : (withPending s acts).port.pending = acts := rfl
@[simp] theorem withPending_responses (s : State) (acts : List HostAct) :
    (withPending s acts).port.responses = s.port.responses := rfl

theorem step_idle {s : State} (h : s.port.pending = []) : step s = .next s := by
  simp [step, runNext, fetch, h]

theorem step_command {s : State} {w : CmdWord} {rest : List HostAct} (h : s.port.pending = .command w :: rest) :
    step s = runCommand w (withPending s rest) := by
  simp [step, runNext, fetch, h, runAct, withPending]

theorem step_reset {s : State} {rest : List HostAct} (h : s.port.pending = .reset :: rest) :
    step s = .next (resetUnit (withPending s rest)) := by
  simp [step, runNext, fetch, h, runAct, withPending]

/-- An issued word is what the next step runs, on the machine it was issued to. -/
theorem step_issue (w : CmdWord) (s : State) : step (issue w s) = runCommand w s := rfl

/-- A command word whose decoding is known. -/
theorem runCommand_ok {w : CmdWord} {i : Instr} (h : decode w = .ok i) (s : State) : runCommand w s = exec i s := by
  simp [runCommand, h]

theorem runCommand_illegal {w : CmdWord} {why : Illegal} (h : decode w = .illegal why) (s : State) :
    runCommand w s = deliver s (illegalWord s.bfu) := by
  simp [runCommand, h]

end Sys2Proof.Machine
end

