-- ==== Sys2Proof/Laws/PerInstr.lean ====
section
/-! SUPPORT. The per-instruction family `InRow`: an instruction's encoding lies in its own row of the opcode map, that is,
agrees with the row's `match` under the row's `mask` (spec/30_encoding.md R45). -/

namespace Sys2Proof.Laws

/-- The conjunction of two words, field by field. -/
theorem assembleWord_and (op op' : BitVec 8) (a a' b b' : Word32) :
    assembleWord op a b &&& assembleWord op' a' b' = assembleWord (op &&& op') (a &&& a') (b &&& b') := by
  apply BitVec.eq_of_getLsbD_eq
  intro i _
  rw [BitVec.getLsbD_and, assembleWord_getLsbD, assembleWord_getLsbD, assembleWord_getLsbD]
  split
  · rw [BitVec.getLsbD_and]
  · split <;> rw [BitVec.getLsbD_and]

/-- An instruction's word agrees with its row. -/
def InRow.Statement (i : Instr) : Prop := encode i &&& rowMask i = rowMatch i

/-- The row's mask and match given by fields: what is left to show is three small conjunctions. -/
theorem InRow.of_fields {i : Instr} {op a b op' a' b'} (hm : rowMask i = assembleWord op a b)
    (hr : rowMatch i = assembleWord op' a' b') (h1 : opcodeByte (instrOpcode i) &&& op = op') (h2 : instrA i &&& a = a')
    (h3 : instrB i &&& b = b') : InRow.Statement i := by
  rw [InRow.Statement, hm, hr, encode, assembleWord_and, h1, h2, h3]

theorem InRow.nop : InRow.Statement .nop := by
  show encode .nop &&& rowMask .nop = rowMatch .nop
  decide

theorem InRow.init (tag : Word32) : InRow.Statement (.init tag) := by
  refine InRow.of_fields (op := 0xFF) (a := 0) (b := 0xFFFFFFFF) (op' := 0x01) (a' := 0) (b' := 0) rfl rfl ?_ ?_ ?_ <;>
    simp [instrOpcode, opcodeByte, instrA, instrB]

theorem InRow.setcut (v : Word32) : InRow.Statement (.setcut v) := by
  refine InRow.of_fields (op := 0xFF) (a := 0) (b := 0xFFFFFFFF) (op' := 0x10) (a' := 0) (b' := 0) rfl rfl ?_ ?_ ?_ <;>
    simp [instrOpcode, opcodeByte, instrA, instrB]

theorem InRow.setq (v : Word32) : InRow.Statement (.setq v) := by
  refine InRow.of_fields (op := 0xFF) (a := 0) (b := 0xFFFFFFFF) (op' := 0x11) (a' := 0) (b' := 0) rfl rfl ?_ ?_ ?_ <;>
    simp [instrOpcode, opcodeByte, instrA, instrB]

theorem InRow.modCut (v : Word32) : InRow.Statement (.modCut v) := by
  refine InRow.of_fields (op := 0xFF) (a := 0xFFFFFFFF) (b := 0) (op' := 0x20) (a' := 0) (b' := 0) rfl rfl ?_ ?_ ?_ <;>
    simp [instrOpcode, opcodeByte, instrA, instrB]

theorem InRow.modQ (v : Word32) : InRow.Statement (.modQ v) := by
  refine InRow.of_fields (op := 0xFF) (a := 0xFFFFFFFF) (b := 0) (op' := 0x20) (a' := 1) (b' := 0) rfl rfl ?_ ?_ ?_ <;>
    simp [instrOpcode, opcodeByte, instrA, instrB]

theorem InRow.modFwd (tag v : Word32) : InRow.Statement (.modFwd tag v) := by
  refine InRow.of_fields (op := 0xFF) (a := 0) (b := 0) (op' := 0x20) (a' := 0) (b' := 0) rfl rfl ?_ ?_ ?_ <;>
    simp [instrOpcode, opcodeByte, instrA, instrB]

theorem InRow.clrmod : InRow.Statement .clrmod := by
  show encode .clrmod &&& rowMask .clrmod = rowMatch .clrmod
  decide

theorem InRow.proc (l r : Word32) : InRow.Statement (.proc l r) := by
  refine InRow.of_fields (op := 0xFF) (a := 0) (b := 0) (op' := 0x30) (a' := 0) (b' := 0) rfl rfl ?_ ?_ ?_ <;>
    simp [instrOpcode, opcodeByte, instrA, instrB]

theorem InRow.step (c : Channel) (x : Word32) : InRow.Statement (.step c x) := by
  cases c <;> refine InRow.of_fields (op := 0xFF) (a := 0xFFFFFFFE) (b := 0) (op' := 0x31) (a' := 0) (b' := 0) rfl rfl ?_ ?_ ?_ <;>
    simp [instrOpcode, opcodeByte, instrA, instrB, channelCode]

theorem InRow.rdreg (r : Reg) : InRow.Statement (.rdreg r) := by
  refine InRow.of_fields (op := 0xFF) (a := 0) (b := 0xFFFFFFFF) (op' := 0x40) (a' := 0) (b' := 0) rfl rfl ?_ ?_ ?_ <;>
    simp [instrOpcode, opcodeByte, instrA, instrB]

end Sys2Proof.Laws
end

