-- ==== Sys2Proof/Machine/Assembler.lean ====
section
/-! DEFINITION. The assembler's lines and the pseudo-instructions (spec/30_encoding.md R54, R55), as abstract syntax: how a
line becomes a command word. It stands outside the machine; programs and test vectors are written with it. -/

namespace Sys2Proof.Machine

/-- A value operand (R54): a decimal literal, `digits · 10^exp10` with a sign, or a raw pattern written `#0x...`. -/
inductive Literal where
  | decimal (neg : Bool) (digits : Nat) (exp10 : Int)
  | raw (u : Word32)
  deriving DecidableEq, Repr

/-- The names an INIT tag may be written by. -/
inductive FilterName where
  | lp | hp
  deriving DecidableEq, Repr

/-- The names a MOD tag may be written by. -/
inductive ModName where
  | cut | q | vol | pan | pitch
  deriving DecidableEq, Repr

/-- A tag, channel or index operand: a number or a name. -/
inductive TagOperand (α : Type) where
  | number (n : Word32)
  | name (x : α)
  deriving DecidableEq, Repr

/-- A line of the assembler's table (R54). -/
inductive AsmLine where
  | nop
  | init (t : TagOperand FilterName)
  | setcut (v : Literal)
  | setq (v : Literal)
  | mod (t : TagOperand ModName) (v : Literal)
  | clrmod
  | proc (l r : Literal)
  | step (c : TagOperand Channel) (v : Literal)
  | rdreg (i : TagOperand Reg)
  deriving DecidableEq, Repr

/-- A decimal literal converted to `F` by round to nearest even (R54). -/
def decimalValue (neg : Bool) (digits : Nat) (exp10 : Int) : F :=
  roundNearest neg (digits * 10 ^ exp10.toNat * 2 ^ 149) (10 ^ (-exp10).toNat)

/-- The 32 bits of a value operand. -/
def literalBits : Literal → Word32
  | .decimal neg digits exp10 => bits32 0 (decimalValue neg digits exp10)
  | .raw u => u

/-- The number of a filter name. -/
def filterNumber : FilterName → Word32
  | .lp => 0
  | .hp => 1

/-- The number of a modulation-type name (R52). -/
def modNumber : ModName → Word32
  | .cut => 0
  | .q => 1
  | .vol => 2
  | .pan => 3
  | .pitch => 4

/-- The number of a tag operand. -/
def tagNumber {α : Type} (number : α → Word32) : TagOperand α → Word32
  | .number n => n
  | .name x => number x

/-- The word of a line (R54). `MOD t, v` assembles to opcode 0x20 with `a = t`; the decoder tells the three MOD instructions
apart. -/
def assemble : AsmLine → CmdWord
  | .nop => assembleWord 0x00 0 0
  | .init t => assembleWord 0x01 (tagNumber filterNumber t) 0
  | .setcut v => assembleWord 0x10 (literalBits v) 0
  | .setq v => assembleWord 0x11 (literalBits v) 0
  | .mod t v => assembleWord 0x20 (tagNumber modNumber t) (literalBits v)
  | .clrmod => assembleWord 0x21 0 0
  | .proc l r => assembleWord 0x30 (literalBits l) (literalBits r)
  | .step c v => assembleWord 0x31 (tagNumber channelCode c) (literalBits v)
  | .rdreg i => assembleWord 0x40 (tagNumber regIndex i) 0

/-- The pseudo-instructions (R55). -/
inductive Pseudo where
  | lowpass
  | highpass
  | modcut (v : Literal)
  | modq (v : Literal)
  | stepl (v : Literal)
  | stepr (v : Literal)
  | sample (l r : Literal)
  deriving DecidableEq, Repr

/-- A pseudo-instruction's expansion (R55). -/
def expand : Pseudo → List AsmLine
  | .lowpass => [.init (.number 0)]
  | .highpass => [.init (.number 1)]
  | .modcut v => [.mod (.number 0) v]
  | .modq v => [.mod (.number 1) v]
  | .stepl v => [.step (.number 0) v]
  | .stepr v => [.step (.number 1) v]
  | .sample l r => [.clrmod, .proc l r]

end Sys2Proof.Machine
end

