-- ==== Sys2Proof/Machine/Binary64.lean ====
section
/-! DEFINITION. The configuration re-stated for binary64 (spec/00_scope.md R5: "a claim can be re-stated for binary64";
spec/70_reset_and_hazards.md R127: "a configuration with a wider NUM"). The spec names the format and gives it no further
rule; what is chosen here is assumption log 16. The machine does not run under it: it is a value for the operations that take a
configuration. -/

namespace Sys2Proof.Machine

/-- `f32` for binary64: a 32-bit field still carries a binary32 pattern (spec/20_memory.md R32), whose value binary64 has. -/
def f32Wide (u : Word32) : Flt binary64 := convert binary64 (f32 u)

/-- `bits32` for binary64: the pattern that reads as the value; where none does, the free pattern (assumption log 16). -/
def bits32Wide (free : Word32) (v : Flt binary64) : Word32 :=
  let u := bits32 free (convert binary32 v)
  if f32Wide u = v then u else free

/-- A binary64 `NUM`, for any elementary functions (R6: configuration functions). 2π is 0x401921FB54442D18. -/
def num64 (fsin fcos fexp2 : Flt binary64 → Flt binary64) : Config.Num (Flt binary64) :=
  numOf binary64 f32Wide bits32Wide (pack false 0x401921FB54442D18) fsin fcos fexp2

/-- The values of R4's table in binary64: the whole numbers as they are, 0.1 and 0.707 rounded to nearest. -/
def cfg64 (fsin fcos fexp2 : Flt binary64 → Flt binary64) : Config.Cfg (Flt binary64) where
  num := num64 fsin fcos fexp2
  fs := nearestTo 44100 1
  fLo := nearestTo 5 1
  fHi := nearestTo 20000 1
  qMin := nearestTo 1 10
  qMax := nearestTo 20 1
  cutInit := nearestTo 1000 1
  qInit := nearestTo 707 1000

end Sys2Proof.Machine
end

