-- ==== Sys2Proof/Tests/Slice0.lean ====
section
/-! SUPPORT. Tests and witnesses. Every expected value is the spec's own (spec/95_test_vectors.md and the examples of the
rules named), none is the model's answer pasted back. A theorem `witness_...` shows, for the obligation it names, a concrete
state and operands that meet all its hypotheses, one for each clause, at the ends of the ranges. -/

namespace Sys2Proof.Tests

open Sys2Proof.Machine Sys2Proof.Safety

/-! ### States and what an outcome shows -/

/-- A unit as INIT leaves it (spec/10_state.md R28, last column), with nothing on the port. -/
def built (ft : FilterType) : State :=
  { bfu := { Bfu.reset with cfg := true, ft := ft, cut := f32 0x447A0000, q := f32 0x3F34FDF4 },
    port := { pending := [], responses := [] } }

/-- A unit that has taken a fault before it was constructed. -/
def faulted (k : Cause) : State :=
  { bfu := { Bfu.reset with flt := true, cause := causeCode k }, port := { pending := [], responses := [] } }

/-- A constructed unit that has taken a fault. -/
def faultedBuilt : State := { built .lowPass with bfu := { (built .lowPass).bfu with flt := true, cause := 2 } }

/-- The response an outcome ends with. -/
def answer : Out → Option RspWord
  | .next t => t.port.responses.head?
  | .fault _ => none
  | .refused _ => none

/-- A field of the unit after an outcome. -/
def field {α : Type} (f : Bfu → α) : Out → Option α
  | .next t => some (f t.bfu)
  | .fault _ => none
  | .refused _ => none

/-- The machine's step on a word issued to a state. -/
def run (w : CmdWord) (s : State) : Out := step (issue w s)

/-! ### Well-formedness: the one check, and an ill-formed term for each tag it refuses -/

theorem test_wf_refuses_forward_tag_0 : (Instr.modFwd 0 0x3F800000).wf = false := by decide
theorem test_wf_refuses_forward_tag_1 : (Instr.modFwd 1 0x3F800000).wf = false := by decide
theorem test_wf_accepts_forward_tag_2 : (Instr.modFwd 2 0x3F800000).wf = true := by decide
theorem test_wf_accepts_greatest_forward_tag : (Instr.modFwd 0xFFFFFFFF 0).wf = true := by decide
/-- An ill-formed term has no word of its own: its encoding is another instruction's. -/
theorem test_wf_ill_formed_is_another : decode (encode (.modFwd 1 0)) = .ok (.modQ 0) := by decide

/-! ### Decoding: one word for every constructor, written out from R45 and R54 field by field -/

theorem test_decode_nop : decode ((0x00 : BitVec 8) ++ (0x00000000 : Word32) ++ (0x00000000 : Word32)) = .ok .nop := by
  decide
theorem test_decode_init :
    decode ((0x01 : BitVec 8) ++ (0xFFFFFFFF : Word32) ++ (0x00000000 : Word32)) = .ok (.init 0xFFFFFFFF) := by decide
theorem test_decode_setcut :
    decode ((0x10 : BitVec 8) ++ (0x43DC0000 : Word32) ++ (0x00000000 : Word32)) = .ok (.setcut 0x43DC0000) := by decide
theorem test_decode_setq :
    decode ((0x11 : BitVec 8) ++ (0x3F34FDF4 : Word32) ++ (0x00000000 : Word32)) = .ok (.setq 0x3F34FDF4) := by decide
theorem test_decode_modCut :
    decode ((0x20 : BitVec 8) ++ (0x00000000 : Word32) ++ (0xC0A00000 : Word32)) = .ok (.modCut 0xC0A00000) := by decide
theorem test_decode_modQ :
    decode ((0x20 : BitVec 8) ++ (0x00000001 : Word32) ++ (0x3F000000 : Word32)) = .ok (.modQ 0x3F000000) := by decide
theorem test_decode_modFwd :
    decode ((0x20 : BitVec 8) ++ (0x00000002 : Word32) ++ (0x3E99999A : Word32)) = .ok (.modFwd 2 0x3E99999A) := by decide
theorem test_decode_clrmod :
    decode ((0x21 : BitVec 8) ++ (0x00000000 : Word32) ++ (0x00000000 : Word32)) = .ok .clrmod := by decide
/-- spec/95_test_vectors.md 2.6, from the bytes 30 3F 80 00 00 BF 00 00 00. -/
theorem test_decode_proc :
    decodeBytes [0x30, 0x3F, 0x80, 0x00, 0x00, 0xBF, 0x00, 0x00, 0x00] =
      some (.ok (.proc 0x3F800000 0xBF000000), []) := by decide
theorem test_decode_step :
    decode ((0x31 : BitVec 8) ++ (0x00000001 : Word32) ++ (0xBF800000 : Word32)) = .ok (.step .right 0xBF800000) := by decide
theorem test_decode_rdreg :
    decode ((0x40 : BitVec 8) ++ (0x00000017 : Word32) ++ (0x00000000 : Word32)) = .ok (.rdreg .yr2) := by decide

/-! ### Decoding: what is refused (R47, R48, R50, R51) -/

theorem test_decode_reserved_opcode : decode 0xFFFFFFFFFFFFFFFFFF = .illegal .reservedOpcode := by decide
theorem test_decode_reserved_opcode_02 : decode 0x020000000000000000 = .illegal .reservedOpcode := by decide
theorem test_decode_nop_a_not_zero : decode 0x000000000100000000 = .illegal .mustBeZero := by decide
theorem test_decode_clrmod_b_not_zero : decode 0x210000000000000001 = .illegal .mustBeZero := by decide
theorem test_decode_setcut_b_not_zero : decode 0x1043DC000000000001 = .illegal .mustBeZero := by decide
theorem test_decode_step_channel_2 : decode 0x31000000023F800000 = .illegal .undefinedChannel := by decide
theorem test_decode_rdreg_index_07 : decode 0x400000000700000000 = .illegal .undefinedIndex := by decide
theorem test_decode_rdreg_index_18 : decode 0x400000001800000000 = .illegal .undefinedIndex := by decide
theorem test_decode_rdreg_b_not_zero : decode 0x400000000000000001 = .illegal .mustBeZero := by decide
/-- Fewer than nine bytes are no command (R32, R40). -/
theorem test_decode_eight_bytes : decodeBytes [0, 0, 0, 0, 0, 0, 0, 0] = none := by decide
/-- A table row's word, bit 0 being the word's bit 0. -/
theorem test_table_word : decodeTableWord 72 0x400000000C00000000 = some (.rdreg .a1) := by decide
theorem test_table_word_runs :
    step (State.reset.withFetchWord 72 0x010000000000000000) = exec (.init 0) State.reset := rfl

/-! ### The instructions (spec/95_test_vectors.md section 2) -/

/-- 2.5: a faulted unit answers NOP. -/
theorem test_nop_faulted : answer (run 0x000000000000000000 (faulted .configError)) = some 0x000000000000000000 := by decide
/-- 2.1: INIT 1 on a reset unit. -/
theorem test_init_high_pass : field statusWord (run 0x010000000100000000 State.reset) = some 0x00000005 := by decide
/-- 2.1: INIT 2 takes ConfigError, CFG stays 0. -/
theorem test_init_unknown_tag : field statusWord (run 0x010000000200000000 State.reset) = some 0x00000102 := by decide
/-- 2.1: SETCUT 1e6 clamps to 20000. -/
theorem test_setcut_clamps : field (·.cut) (run 0x104974240000000000 (built .lowPass)) = some (f32 0x469C4000) := by decide
/-- 2.1: SETCUT -Inf clamps to 5. -/
theorem test_setcut_minus_infinity :
    field (·.cut) (run 0x10FF80000000000000 (built .lowPass)) = some (f32 0x40A00000) := by decide
/-- 2.1: SETQ -3 clamps to Q_MIN. -/
theorem test_setq_clamps : field (·.q) (run 0x11C040000000000000 (built .lowPass)) = some (f32 0x3DCCCCCD) := by decide
/-- 2.1: SETQ 20 keeps the bound. -/
theorem test_setq_bound : field (·.q) (run 0x1141A0000000000000 (built .lowPass)) = some (f32 0x41A00000) := by decide
/-- 2.2: 12 semitones and then -5 make 7. -/
theorem test_modCut_adds : field (·.cutmod) (execAll [.modCut 0x41400000, .modCut 0xC0A00000] (built .lowPass)) =
    some (f32 0x40E00000) := by decide +kernel
/-- 2.2: 1e8, 1, -1e8 make zero. -/
theorem test_modCut_rounds_each :
    field (·.cutmod) (execAll [.modCut 0x4CBEBC20, .modCut 0x3F800000, .modCut 0xCCBEBC20] (built .lowPass)) =
      some (f32 0x00000000) := by decide +kernel
/-- 2.2: after MOD 1, 0.5 the effective Q is 1.20700002. -/
theorem test_modQ_read_back : answer (execAll [.modQ 0x3F000000, .rdreg .eq] (built .lowPass)) =
    some 0x003F9A7EFA00000000 := by decide +kernel
/-- R72: MOD 2, 0.3 answers OK and changes nothing. -/
theorem test_modFwd : field id (run 0x20000000023E99999A (built .highPass)) = some (built .highPass).bfu := by decide
/-- 2.2: CLRMOD restores the unmodulated cutoff. -/
theorem test_clrmod : answer (execAll [.modCut 0x41400000, .clrmod, .rdreg .ecut] (built .lowPass)) =
    some 0x00447A000000000000 := by decide +kernel
/-- 2.4.2: the first sample of the low-pass step response. -/
theorem test_proc_low_pass : answer (run 0x303F8000003F800000 (built .lowPass)) = some 0x003B96DCB23B96DCB2 := by
  decide +kernel
/-- 2.4.7: PROC +0.0, -0.0 answers +0.0 on both channels. -/
theorem test_proc_zeros : answer (run 0x300000000080000000 (built .lowPass)) = some 0x000000000000000000 := by
  decide +kernel
/-- 2.4.7: two left steps, then the right channel starts from its own zero state. -/
theorem test_step_channels :
    answer (execAll [.step .left 0x3F800000, .step .left 0x3F800000, .step .right 0xBF800000] (built .lowPass)) =
      some 0x00BB96DCB200000000 := by decide +kernel
/-- 2.4.5: the second sample of the high-pass impulse response. -/
theorem test_step_high_pass : answer (execAll [.step .left 0x3F800000, .step .left 0x00000000] (built .highPass)) =
    some 0x00BE3A070800000000 := by decide +kernel
/-- 2.5: A1 after INIT 0. -/
theorem test_rdreg_a1 : answer (run 0x400000000C00000000 (built .lowPass)) = some 0x00BFE647FA00000000 := by decide +kernel
/-- 2.5: A0 reads zero while the unit is not constructed. -/
theorem test_rdreg_unbuilt : answer (run 0x400000000B00000000 State.reset) = some 0x000000000000000000 := by decide

/-! ### The checks and their order (spec/95_test_vectors.md 2.5, 2.7) -/

/-- An illegal word on an unbuilt unit is IllegalCommand, not NotConfigured. -/
theorem test_illegal_before_unbuilt : answer (run 0x31000000053F800000 State.reset) = some 0x020000000000000000 := by decide
theorem test_proc_unbuilt : field statusWord (run 0x303F8000003F800000 State.reset) = some 0x00000302 := by decide
/-- A faulted unit refuses even an illegal word, and says its cause. -/
theorem test_faulted_refuses_illegal :
    answer (run 0x400000000700000000 (faulted .configError)) = some 0xFF0000000100000000 := by decide
theorem test_faulted_built_status : answer (run 0x400000000000000000 faultedBuilt) = some 0x000000020300000000 := by decide
/-- R120: a reset clears a fault and answers nothing. -/
theorem test_reset_clears :
    step { faultedBuilt with port := { pending := [.reset], responses := [] } } = .next State.reset := rfl

/-! ### The assembler (spec/30_encoding.md R54, R55) -/

/-- R75: the pattern of the decimal 0.707. -/
theorem test_assemble_decimal : assemble (.setq (.decimal false 707 (-3))) = 0x113F34FDF400000000 := by decide +kernel
/-- 2.2: MOD 0, 1e8. -/
theorem test_assemble_mod : assemble (.mod (.name .cut) (.decimal false 1 8)) = 0x20000000004CBEBC20 := by decide +kernel
theorem test_assemble_names : assemble (.step (.name .right) (.raw 0xBF800000)) = 0x3100000001BF800000 := by decide
theorem test_expand_sample : (expand (.sample (.raw 1) (.raw 2))).map assemble =
    [0x210000000000000000, 0x300000000100000002] := by decide

/-! ### The configuration re-stated for binary64 (R5, R127) -/

/-- 0.1 + 0.2 in binary64 is 0x3FD3333333333334, IEEE 754's well-known example. -/
theorem test_binary64_sum :
    fltAdd (nearestTo 1 10 : Flt binary64) (nearestTo 2 10) = pack false 0x3FD3333333333334 := by decide +kernel
/-- The binary64 value of 2π rounds to R7's binary32 one. -/
theorem test_binary64_twoPi : convert binary32 (num64 id id id).twoPi = f32 0x40C90FDB := by decide +kernel
/-- Every 32-bit operand that is no NaN is read back as it was written. -/
theorem test_binary64_read_back :
    (bits32Wide 0 (f32Wide 0x3F34FDF4), bits32Wide 0 (f32Wide 0x80000001), bits32Wide 7 (nearestTo 1 10)) =
      (0x3F34FDF4, 0x80000001, 7) := by decide +kernel
/-- R4's constraints hold of the binary64 values. -/
theorem test_binary64_admitted : Config.admitted (cfg64 id id id) = true := by decide +kernel
/-- R60, R71, R75 under binary64: Q is 0.707 in that format after INIT, and MOD.Q 0.5 adds in it. -/
theorem test_binary64_effective_q :
    let c := cfg64 id id id
    let b := (instrUnder c (.modQ 0x3F000000) (instrUnder c (.init 0) (BfuOf.reset c.num.zero)).bfu).bfu
    (b.q, eqOf c b) = (nearestTo 707 1000, fltAdd (nearestTo 707 1000) (nearestTo 1 2)) := by decide +kernel

/-! ### An infinite input (R90, worked by hand; assumption log 17) -/

/-- The default low-pass fed +Inf and then zeros, from rest: +Inf, then 0 + Inf + 0 - (-Inf) - 0, then Inf - (-Inf) - Inf. -/
theorem test_infinite_input :
    let k : Coeffs F := { b0 := f32 0x3B96DCB2, b1 := f32 0x3C16DCB2, b2 := f32 0x3B96DCB2, a1 := f32 0xBFE647FA,
                          a2 := f32 0x3F5146DA }
    let r1 := biquadStep cfg k (restDelay posZero) (.inf false)
    let r2 := biquadStep cfg k r1.2 posZero
    let r3 := biquadStep cfg k r2.2 posZero
    (r1.1, r2.1, r3.1) = (.inf false, .inf false, .nan) := by decide +kernel

/-! ### A host that keeps its duties, and one that does not (R122, R129, R131) -/

theorem test_protocol_kept :
    wellDriven [.init 0, .setcut 0x43DC0000, .setq 0x3F800000, .clrmod, .modCut 0x41400000, .proc 0 0, .clrmod, .proc 0 0] =
      true := by decide
/-- R134: a re-INIT keeps the duties (assumption log 13). -/
theorem test_protocol_reinit : wellDriven [.init 0, .clrmod, .init 1, .clrmod, .proc 0 0] = true := by decide
/-- R72: the value of MOD.FWD is ignored and may be any pattern; that of MOD.CUT may not (assumption log 18). -/
theorem test_finite_operands :
    (finiteOperands (.modFwd 2 0x7FC00000), finiteOperands (.modCut 0x7FC00000)) = (true, false) := by decide
/-- R124: the model's choice that a buffer with a parameter command has a frame, CLRMOD alone being one (assumption log 13). -/
theorem test_protocol_buffer_frames :
    (wellDriven [.init 0, .setcut 0, .setcut 0, .clrmod, .proc 0 0], wellDriven [.init 0, .setcut 0, .clrmod, .setcut 0]) =
      (false, true) := by decide
theorem test_protocol_two_procs : wellDriven [.init 0, .clrmod, .proc 0 0, .proc 0 0] = false := by decide

/-! ### Witnesses: encoding -/

/-- DecodeInvertsEncode: well-formed terms at the ends of the forward tag's range and of the other operands'. -/
theorem witness_DecodeInvertsEncode :
    ∀ i ∈ ([.modFwd 2 0, .modFwd 0xFFFFFFFF 0xFFFFFFFF, .init 0xFFFFFFFF, .step .right 0x7FC00000, .rdreg .yr2] : List Instr),
      i.wf = true := by decide

/-- EncodeInvertsDecode: words that decode. -/
theorem witness_EncodeInvertsDecode :
    decode 0x20FFFFFFFFFFFFFFFF = .ok (.modFwd 0xFFFFFFFF 0xFFFFFFFF) ∧ decode 0x3100000001FFFFFFFF = .ok (.step .right 0xFFFFFFFF) := by
  decide

/-- RowsAreDisjoint: a word that selects its row, for the three rows of opcode 0x20 and for RDREG's. -/
theorem witness_RowsAreDisjoint :
    decode 0x200000000141400000 = .ok (.modQ 0x41400000) ∧
    (0x200000000141400000 : CmdWord) &&& rowMask (.modQ 0) = rowMatch (.modQ 0) ∧
    (0x200000000241400000 : CmdWord) &&& rowMask (.modFwd 2 0) = rowMatch (.modFwd 2 0) ∧
    2 ≤ (aField 0x200000000241400000).toNat ∧
    (0x400000001700000000 : CmdWord) &&& rowMask (.rdreg .yr2) = rowMatch (.rdreg .yr2) ∧
    aField 0x400000001700000000 = regIndex .yr2 := by decide

/-! ### Witnesses: the step -/

/-- StepRunsDecodedInstruction. -/
theorem witness_StepRunsDecodedInstruction :
    (issue 0x303F8000003F800000 (built .lowPass)).port.pending = .command 0x303F8000003F800000 :: [] ∧
    decode 0x303F8000003F800000 = .ok (.proc 0x3F800000 0x3F800000) := ⟨rfl, by decide⟩

/-- IdleStepChangesNothing. -/
theorem witness_IdleStepChangesNothing : (built .lowPass).port.pending = [] := rfl

/-- A faulted, constructed unit whose host resets it and then constructs a high-pass. -/
def resetting : State :=
  { faultedBuilt with port := { pending := [.reset, .command 0x010000000100000000], responses := [] } }

/-- ResetActClearsTheUnit. -/
theorem witness_ResetActClearsTheUnit : resetting.port.pending = .reset :: [.command 0x010000000100000000] := rfl

/-- EveryCommandAnswersOnce: a command that succeeds, one that takes each fault, one that is refused, and what they answer. -/
theorem witness_EveryCommandAnswersOnce :
    (∀ w s, (issue w s).port.pending = .command w :: s.port.pending) ∧
    answer (run 0x210000000000000000 (built .lowPass)) = some 0x000000000000000000 ∧
    answer (run 0x010000000200000000 (built .lowPass)) = some 0x010000000000000000 ∧
    answer (run 0xFF0000000000000000 (built .lowPass)) = some 0x020000000000000000 ∧
    answer (run 0x210000000000000000 State.reset) = some 0x030000000000000000 ∧
    answer (run 0x210000000000000000 faultedBuilt) = some 0xFF0000000200000000 :=
  ⟨fun _ _ => rfl, by decide⟩

/-! ### Witnesses: faults -/

/-- FaultedUnitRefuses: a faulted unit given NOP, a RDREG, a legal command of another kind and an illegal word. -/
theorem witness_FaultedUnitRefuses :
    faultedBuilt.bfu.flt = true ∧ decode 0x000000000000000000 = .ok .nop ∧ decode 0x400000001700000000 = .ok (.rdreg .yr2) ∧
    decode 0x010000000000000000 = .ok (.init 0) ∧ decode 0x310000000200000000 = .illegal .undefinedChannel := by decide

/-- IllegalWordTakesFault: an unfaulted unit, constructed or not, and one word for each reason. -/
theorem witness_IllegalWordTakesFault :
    (built .lowPass).bfu.flt = false ∧ State.reset.bfu.flt = false ∧ decode 0x7E0000000000000000 = .illegal .reservedOpcode ∧
    decode 0x210000000100000000 = .illegal .mustBeZero ∧ decode 0x310000000200000000 = .illegal .undefinedChannel ∧
    decode 0x400000000E00000000 = .illegal .undefinedIndex := by decide

/-- UnbuiltUnitTakesNotConfigured: the eight commands on a reset unit. -/
theorem witness_UnbuiltUnitTakesNotConfigured :
    State.reset.bfu.flt = false ∧ State.reset.bfu.cfg = false ∧
    ∀ i ∈ ([.setcut 0, .setq 0, .modCut 0, .modQ 0, .modFwd 2 0, .clrmod, .proc 0 0, .step .left 0] : List Instr),
      i ≠ .nop ∧ (∀ tag, i ≠ .init tag) ∧ (∀ r, i ≠ .rdreg r) := by
  refine ⟨rfl, rfl, ?_⟩
  simp

/-- UnknownFilterTagTakesConfigError: the least and the greatest unknown tag. -/
theorem witness_UnknownFilterTagTakesConfigError :
    State.reset.bfu.flt = false ∧ (2 : Word32) ≠ 0 ∧ (2 : Word32) ≠ 1 ∧ (0xFFFFFFFF : Word32) ≠ 0 ∧
    (0xFFFFFFFF : Word32) ≠ 1 := by decide

/-- FaultIsStickyUntilReset: a faulted unit idle, and one given a command. -/
theorem witness_FaultIsStickyUntilReset :
    faultedBuilt.bfu.flt = true ∧ (∀ rest, faultedBuilt.port.pending ≠ .reset :: rest) ∧
    step faultedBuilt = .next faultedBuilt ∧
    (∀ rest, (issue 0x210000000000000000 faultedBuilt).port.pending ≠ .reset :: rest) ∧
    ∃ t, step (issue 0x210000000000000000 faultedBuilt) = .next t :=
  ⟨rfl, fun _ h => (List.cons_ne_nil _ _ h.symm), rfl, fun _ h => by simp [issue] at h, _, rfl⟩

/-- ConfiguredFlagIsKept: a constructed unit given another INIT. -/
theorem witness_ConfiguredFlagIsKept :
    (built .lowPass).bfu.cfg = true ∧
    (∀ rest, (issue 0x010000000100000000 (built .lowPass)).port.pending ≠ .reset :: rest) ∧
    ∃ t, step (issue 0x010000000100000000 (built .lowPass)) = .next t :=
  ⟨rfl, fun _ h => by simp [issue] at h, _, rfl⟩

/-- A constructed unit with one sample's commands on the port. -/
def sampled : State :=
  { built .lowPass with
    port := { pending := ([0x210000000000000000, 0x200000000041400000, 0x303F8000003F800000] : List CmdWord).map .command,
              responses := [] } }

/-- ReadyRunNeverFaults, and ReadyUnderAnyConfiguration for each of its words. -/
theorem witness_ReadyRunNeverFaults :
    ready sampled ∧
    sampled.port.pending = ([0x210000000000000000, 0x200000000041400000, 0x303F8000003F800000] : List CmdWord).map .command ∧
    (decode 0x210000000000000000 = .ok .clrmod ∧ harmless .clrmod = true) ∧
    (decode 0x200000000041400000 = .ok (.modCut 0x41400000) ∧ harmless (.modCut 0x41400000) = true) ∧
    (decode 0x303F8000003F800000 = .ok (.proc 0x3F800000 0x3F800000) ∧ harmless (.proc 0x3F800000 0x3F800000) = true) :=
  ⟨⟨rfl, rfl⟩, rfl, by decide⟩

/-- ReadyUnderAnyConfiguration: a binary64 unit that an INIT made ready, whatever its elementary functions; a harmless INIT of each type and a forward at the least tag; the second clause's premise is
that of `witness_StepRunsDecodedInstruction`. -/
theorem witness_ReadyUnderAnyConfiguration :
    ready (built .highPass) ∧ decode 0x010000000100000000 = .ok (.init 1) ∧ harmless (.init 1) = true ∧
    harmless (.init 0) = true ∧ harmless (.init 2) = false ∧ harmless (.modFwd 2 0) = true ∧
    ∀ fsin fcos fexp2, let b := (instrUnder (cfg64 fsin fcos fexp2) (.init 0) (BfuOf.reset (f32Wide 0))).bfu
      b.cfg = true ∧ b.flt = false :=
  ⟨⟨rfl, rfl⟩, by decide, by decide, by decide, by decide, by decide, fun _ _ _ => ⟨rfl, rfl⟩⟩

/-! ### Witnesses: results -/

/-- InitConstructsAfresh: both tags, on an unbuilt and on a constructed unit. -/
theorem witness_InitConstructsAfresh :
    State.reset.bfu.flt = false ∧ (built .highPass).bfu.flt = false ∧ ((0 : Word32) = 0 ∨ (0 : Word32) = 1) ∧
    ((1 : Word32) = 0 ∨ (1 : Word32) = 1) := by decide

/-- SetcutClampsBase: a ready unit, and operands on each side of each bound, at it, and a NaN. -/
theorem witness_SetcutClampsBase :
    ready (built .lowPass) ∧ fltLt (f32 0x409FFFFF) (f32 0x40A00000) = true ∧ fltLt (f32 0x40A00000) (f32 0x40A00000) = false ∧
    fltLt (f32 0x469C4000) (f32 0x469C4000) = false ∧ fltLt (f32 0x469C4000) (f32 0x469C4001) = true ∧
    f32 0x7FC00000 = .nan := ⟨⟨rfl, rfl⟩, by decide⟩

/-- SetqClampsBase: a ready unit, and operands on each side of each bound and at it. -/
theorem witness_SetqClampsBase :
    ready (built .highPass) ∧ fltLt (f32 0x3DCCCCCC) (f32 0x3DCCCCCD) = true ∧ fltLt (f32 0x3DCCCCCD) (f32 0x3DCCCCCD) = false ∧
    fltLt (f32 0x41A00000) (f32 0x41A00000) = false ∧ fltLt (f32 0x41A00000) (f32 0x41A00001) = true :=
  ⟨⟨rfl, rfl⟩, by decide⟩

/-- A unit made ready by an INIT the machine ran, not by hand. -/
theorem witness_ready_by_init : field (fun b => (b.cfg, b.flt)) (run 0x010000000000000000 State.reset) = some (true, false) := by
  decide

/-- ModCutAccumulates, ModQAccumulates, ModFwdChangesNothing, ClrmodClearsAccumulators, ProcStepsBothChannels,
StepStepsOneChannel, ProcIsTwoSteps, TwoRoutesCommute: a ready unit of each filter type. -/
theorem witness_ready : ready (built .lowPass) ∧ ready (built .highPass) := ⟨⟨rfl, rfl⟩, ⟨rfl, rfl⟩⟩

/-! ### Witnesses: frames -/

/-- FilterStateWriters: every command it speaks of, on a constructed unit, with its next state. -/
theorem witness_FilterStateWriters :
    ∀ i ∈ ([.nop, .setcut 0, .setq 0, .modCut 0, .modQ 0, .modFwd 2 0, .clrmod, .rdreg .yl1] : List Instr),
      (∀ tag, i ≠ .init tag) ∧ (∀ l r, i ≠ .proc l r) ∧ (∀ c x, i ≠ .step c x) ∧ ∃ t, exec i (built .lowPass) = .next t := by
  simp only [List.forall_mem_cons, List.not_mem_nil, false_implies, implies_true, and_true]
  refine ⟨?_, ?_, ?_, ?_, ?_, ?_, ?_, ?_⟩ <;> exact ⟨by simp, by simp, by simp, _, rfl⟩

/-- ParameterCommandsFrame: each of its commands, on a constructed and on a faulted unit, and on a reset one. -/
theorem witness_ParameterCommandsFrame :
    ∀ i ∈ ([.setcut 0, .setq 0, .modCut 0, .modQ 0, .modFwd 2 0, .clrmod] : List Instr),
      ∀ s ∈ [built .lowPass, faultedBuilt, State.reset],
        ((∃ v, i = .setcut v) ∨ (∃ v, i = .setq v) ∨ (∃ v, i = .modCut v) ∨ (∃ v, i = .modQ v) ∨
          (∃ g v, i = .modFwd g v) ∨ i = .clrmod) ∧ ∃ t, exec i s = .next t := by
  simp only [List.forall_mem_cons, List.not_mem_nil, false_implies, implies_true, and_true]
  refine ⟨?_, ?_, ?_, ?_, ?_, ?_⟩ <;> refine ⟨?_, ?_, ?_⟩ <;> exact ⟨by simp, _, rfl⟩

/-- EvaluationFrame: PROC and both forms of STEP. -/
theorem witness_EvaluationFrame :
    (∃ t, exec (.proc 0 0) (built .lowPass) = .next t) ∧ (∃ t, exec (.step .left 0) (built .lowPass) = .next t) ∧
    (∃ t, exec (.step .right 0) State.reset = .next t) ∧ Channel.left ≠ Channel.right :=
  ⟨⟨_, rfl⟩, ⟨_, rfl⟩, ⟨_, rfl⟩, by decide⟩

/-- HousekeepingFrame: NOP, RDREG and INIT on a faulted unit. -/
theorem witness_HousekeepingFrame :
    (∃ t, exec .nop faultedBuilt = .next t) ∧ (∃ t, exec (.rdreg .b0) faultedBuilt = .next t) ∧
    (∃ t, exec (.init 0) faultedBuilt = .next t) ∧ faultedBuilt.bfu.flt = true :=
  ⟨⟨_, rfl⟩, ⟨_, rfl⟩, ⟨_, rfl⟩, rfl⟩

/-! ### Witnesses: the channels -/

/-- A unit whose right channel has a past that `built`'s has not. -/
def rightPast : State := { built .lowPass with bfu := { (built .lowPass).bfu with xr1 := f32 0x3F800000, yr2 := .nan } }

/-- A unit whose left channel has a past that `built`'s has not. -/
def leftPast : State := { built .lowPass with bfu := { (built .lowPass).bfu with xl2 := f32 0x3F800000, yl1 := .nan } }

/-- ChannelsAreIndependent: two units that differ in the right channel and in its operand, and two that differ in the left. -/
theorem witness_ChannelsAreIndependent :
    ready (built .lowPass) ∧ ready rightPast ∧ (built .lowPass).bfu.ft = rightPast.bfu.ft ∧
    (built .lowPass).bfu.cut = rightPast.bfu.cut ∧ (built .lowPass).bfu.q = rightPast.bfu.q ∧
    (built .lowPass).bfu.cutmod = rightPast.bfu.cutmod ∧ (built .lowPass).bfu.qmod = rightPast.bfu.qmod ∧
    getDelay (built .lowPass).bfu .left = getDelay rightPast.bfu .left ∧
    getDelay (built .lowPass).bfu .right ≠ getDelay rightPast.bfu .right ∧
    (∃ t, exec (.proc 1 2) (built .lowPass) = .next t) ∧ (∃ t, exec (.proc 1 3) rightPast = .next t) ∧
    ready leftPast ∧ getDelay (built .lowPass).bfu .right = getDelay leftPast.bfu .right ∧
    getDelay (built .lowPass).bfu .left ≠ getDelay leftPast.bfu .left ∧
    (∃ t, exec (.proc 4 2) leftPast = .next t) :=
  ⟨⟨rfl, rfl⟩, ⟨rfl, rfl⟩, rfl, rfl, rfl, rfl, rfl, rfl, by decide, ⟨_, rfl⟩, ⟨_, rfl⟩, ⟨rfl, rfl⟩, rfl, by decide, ⟨_, rfl⟩⟩

/-- A ready unit with the given registers in one channel. -/
def holding (d : Delay F) (c : Channel) : State := { built .lowPass with bfu := setDelay (built .lowPass).bfu d c }

/-- NanSticksInChannel: a NaN and an infinite operand, a NaN and an infinity in each of the four registers, an instruction that
is no INIT with its next state, and NaN parameters. -/
theorem witness_NanSticksInChannel :
    ready (built .lowPass) ∧ (∀ d, ready (holding d .left) ∧ ready (holding d .right)) ∧
    stepReads isNan (f32 0x7FC00000) (getDelay (built .lowPass).bfu .left) = true ∧
    stepReads nonFinite (f32 0xFF800000) (getDelay (built .lowPass).bfu .right) = true ∧
    (∀ v ∈ ([.nan, .inf false] : List F), ∀ d ∈ ([{ restDelay posZero with x1 := v }, { restDelay posZero with x2 := v },
        { restDelay posZero with y1 := v }, { restDelay posZero with y2 := v }] : List (Delay F)),
      stepReads nonFinite (f32 0) (getDelay (holding d .left).bfu .left) = true) ∧
    (∀ tag, Instr.clrmod ≠ .init tag) ∧ (∃ t, exec .clrmod (holding { restDelay posZero with y1 := .nan } .left) = .next t) ∧
    isNan (getDelay (holding { restDelay posZero with y1 := .nan } .left).bfu .left).y1 = true ∧
    (∀ v, Instr.clrmod ≠ .setcut v) ∧ (∀ v, Instr.clrmod ≠ .setq v) ∧
    field (·.cut) (run 0x107FC0000000000000 (built .lowPass)) = some .nan ∧
    field (·.q) (run 0x117FC0000000000000 (built .lowPass)) = some .nan :=
  ⟨⟨rfl, rfl⟩, fun _ => ⟨⟨rfl, rfl⟩, ⟨rfl, rfl⟩⟩, by decide, by decide, by decide, by simp, ⟨_, rfl⟩, by decide, by simp,
    by simp, by decide, by decide⟩

/-! ### Witnesses: effective parameters -/

/-- EffectiveQClamped and HeldParameterReissued: the two ends of the Q range, and a NaN, which is outside nothing. -/
theorem witness_EffectiveQClamped :
    (∀ v ∈ ([f32 0x3DCCCCCD, f32 0x3F34FDF4, f32 0x41A00000] : List F),
      v ≠ .nan ∧ within (f32 0x3DCCCCCD) (f32 0x41A00000) v = true) ∧
    within (f32 0x3DCCCCCD) (f32 0x41A00000) .nan = true := by decide

/-- EffectiveCutoffCorners, DesignAngleInsideHalfTurn and HeldParameterReissued: the two ends of the cutoff range. -/
theorem witness_EffectiveCutoffCorners :
    ∀ v ∈ ([f32 0x40A00000, f32 0x447A0000, f32 0x469C4000] : List F),
      v ≠ .nan ∧ within (f32 0x40A00000) (f32 0x469C4000) v = true := by decide

/-- The unit with its base parameters at the upper ends of their ranges. -/
def upperEnds : State := { built .highPass with bfu := { (built .highPass).bfu with cut := f32 0x469C4000, q := f32 0x41A00000 } }

/-- ClrmodRestoresBaseParameters: the defaults and the upper ends. -/
theorem witness_ClrmodRestoresBaseParameters :
    ready (built .lowPass) ∧ ready upperEnds ∧
    ∀ s ∈ [built .lowPass, upperEnds],
      s.bfu.cut ≠ .nan ∧ s.bfu.q ≠ .nan ∧ within (f32 0x40A00000) (f32 0x469C4000) s.bfu.cut = true ∧
      within (f32 0x3DCCCCCD) (f32 0x41A00000) s.bfu.q = true :=
  ⟨⟨rfl, rfl⟩, ⟨rfl, rfl⟩, by decide⟩

/-- HeldParameterReissued: the held values as operands. -/
theorem witness_HeldParameterReissued :
    ready upperEnds ∧ f32 0x469C4000 = upperEnds.bfu.cut ∧ within (f32 0x40A00000) (f32 0x469C4000) upperEnds.bfu.cut = true ∧
    f32 0x41A00000 = upperEnds.bfu.q ∧ within (f32 0x3DCCCCCD) (f32 0x41A00000) upperEnds.bfu.q = true :=
  ⟨⟨rfl, rfl⟩, rfl, by decide, rfl, by decide⟩

/-! ### Witnesses: the invariant and numbers -/

/-- StepKeepsInvariant: a legal unit of each kind (reset, faulted, constructed, both), and its step. -/
theorem witness_StepKeepsInvariant :
    legal State.reset.bfu = true ∧ legal (faulted .notConfigured).bfu = true ∧ legal (built .highPass).bfu = true ∧
    legal faultedBuilt.bfu = true ∧ (∃ t, step (issue 0x303F8000003F800000 (built .highPass)) = .next t) ∧
    ∃ t, step resetting = .next t :=
  ⟨by decide, by decide, by decide, by decide, ⟨_, rfl⟩, ⟨_, rfl⟩⟩

/-- PatternsRoundTrip: patterns that are no NaN at the edges (zeros, subnormals, infinities), and two that are. -/
theorem witness_PatternsRoundTrip :
    ([0x00000000, 0x80000000, 0x00000001, 0x7F7FFFFF, 0x7F800000, 0xFF800000] : List Word32).any isNanPattern = false ∧
    ([0x7F800001, 0x7FC00000, 0xFFFFFFFF] : List Word32).all isNanPattern = true := by decide

/-- RoundingIsNearest: two ties, the least magnitude that overflows and the one below it, which is on the other side. -/
theorem witness_RoundingIsNearest :
    (roundNearest false 1 2 : F) = f32 0 ∧ (roundNearest true 3 2 : F) = f32 0x80000002 ∧
    (2 ^ 25 - 1) * 2 ^ 253 * 1 ≤ 2 * ((2 ^ 25 - 1) * 2 ^ 252) ∧
    (roundNearest false ((2 ^ 25 - 1) * 2 ^ 252) 1 : F) = .inf false ∧
    2 * ((2 ^ 25 - 1) * 2 ^ 252 - 1) < (2 ^ 25 - 1) * 2 ^ 253 * 1 ∧
    (roundNearest false ((2 ^ 25 - 1) * 2 ^ 252 - 1) 1 : F) = f32 0x7F7FFFFF := by decide +kernel

/-- ArithmeticIsRoundedOnce: finite values with a sum, difference, product and quotient that is not zero (1 and 3), sums,
differences and products that are (3 and -3, 3 and 3, 3 and -0), divisors that are, and 0 by 0. -/
theorem witness_ArithmeticIsRoundedOnce :
    let one := f32 0x3F800000
    let three := f32 0x40400000
    fltFinite one = true ∧ fltFinite three = true ∧
    exactValue one + exactValue three ≠ 0 ∧ exactValue one - exactValue three ≠ 0 ∧ exactValue one * exactValue three ≠ 0 ∧
    exactValue one ≠ 0 ∧ exactValue three ≠ 0 ∧
    exactValue three + exactValue (f32 0xC0400000) = 0 ∧ exactValue three - exactValue three = 0 ∧
    exactValue three * exactValue (f32 0x80000000) = 0 ∧ exactValue (f32 0x80000000) = 0 := by decide +kernel

/-- Exp2IsMonotone: two neighbouring values, and the infinities. -/
theorem witness_Exp2IsMonotone :
    fltLt (f32 0x3F800000) (f32 0x3F800001) = true ∧ fltLt (.inf true : F) (.inf false) = true := by decide +kernel

/-- Exp2IsNearest: the least operand that overflows and the greatest that does not. -/
theorem witness_Exp2IsNearest :
    f32 0x43000000 = .fin false 134 0 ∧ 128 * 2 ^ 149 ≤ signedInt false (magnitude (k := binary32) 134 0) ∧
    signedInt false (magnitude (k := binary32) 133 0x7FFFFF) < 128 * 2 ^ 149 := by decide +kernel

/-- CornerDesignsStable: each list has the members the rule names. -/
theorem witness_CornerDesignsStable :
    f32 0x40A00000 ∈ [f32 0x40A00000, f32 0x447A0000, f32 0x469C4000] ∧
    f32 0x41A00000 ∈ [f32 0x3DCCCCCD, f32 0x3F34FDF4, f32 0x41A00000] := by decide

end Sys2Proof.Tests
end

section
/-! SUPPORT. Proofs: one command on a ready unit, under any configuration (spec/00_scope.md R8, R29;
spec/60_exceptions.md R104, R105). -/

namespace Sys2Proof.Machine

open Sys2Proof.Config (Cfg)
open Sys2Proof.Safety (harmless statusOf)

variable {V : Type}

/-- Settles O7: the step takes the act from the port and runs the instruction its word decodes to. -/
theorem stepRunsDecodedInstruction : Obligations.StepRunsDecodedInstruction := by
  intro s w i rest hpending hdecode
  rw [step_command hpending, runCommand_ok hdecode]
  rfl

/-- The status of a response is its first field (R44). -/
@[simp] theorem statusOf_responseWord (st : BitVec 8) (ra rb : Word32) : statusOf (responseWord st ra rb) = st :=
  opField_assembleWord st ra rb

/-- The first of a command's three ends (R112): it answers OK on a unit whose flags and cause are those of `b`. -/
def Completes (b : BfuOf V) (r : Reply V) : Prop :=
  ∃ b' ra rb, r = complete b' ra rb ∧ b'.cfg = true ∧ b'.flt = b.flt ∧ b'.cause = b.cause

theorem completes_whenConfigured {b : BfuOf V} {run : Reply V} (hcfg : b.cfg = true) (hflt : b.flt = false)
    (h : Completes b run) : Completes b (whenConfigured b run) := by
  rwa [whenConfigured_ready hflt hcfg]

/-- The two tags that name a filter type (R60, R101). -/
theorem filterOf_known {tag : Word32} (h : (tag == 0 || tag == 1) = true) : ∃ t, filterOf tag = some t := by
  simp only [Bool.or_eq_true, beq_iff_eq] at h
  rcases h with rfl | rfl
  · exact ⟨.lowPass, rfl⟩
  · exact ⟨.highPass, rfl⟩

/-- A harmless instruction completes on a ready unit, under every configuration of every number format (R104). -/
theorem instrUnder_completes (c : Cfg V) {i : Instr} {b : BfuOf V} (hcfg : b.cfg = true) (hflt : b.flt = false)
    (hi : harmless i = true) : Completes b (instrUnder c i b) := by
  cases i with
  | nop => exact ⟨_, _, _, rfl, hcfg, rfl, rfl⟩
  | init tag =>
    obtain ⟨t, ht⟩ := filterOf_known hi
    refine ⟨construct c t b, 0, 0, ?_, rfl, rfl, rfl⟩
    rw [instrUnder, initUnder, whenUnfaulted_unfaulted hflt, ht]
  | setcut v => exact completes_whenConfigured hcfg hflt ⟨_, _, _, rfl, hcfg, rfl, rfl⟩
  | setq v => exact completes_whenConfigured hcfg hflt ⟨_, _, _, rfl, hcfg, rfl, rfl⟩
  | modCut v => exact completes_whenConfigured hcfg hflt ⟨_, _, _, rfl, hcfg, rfl, rfl⟩
  | modQ v => exact completes_whenConfigured hcfg hflt ⟨_, _, _, rfl, hcfg, rfl, rfl⟩
  | modFwd tag v => exact completes_whenConfigured hcfg hflt ⟨_, _, _, rfl, hcfg, rfl, rfl⟩
  | clrmod => exact completes_whenConfigured hcfg hflt ⟨_, _, _, rfl, hcfg, rfl, rfl⟩
  | proc l r => exact completes_whenConfigured hcfg hflt ⟨_, _, _, rfl, hcfg, rfl, rfl⟩
  | step ch x => cases ch <;> exact completes_whenConfigured hcfg hflt ⟨_, _, _, rfl, hcfg, rfl, rfl⟩
  | rdreg r => exact ⟨_, _, _, rfl, hcfg, rfl, rfl⟩

/-- A word that decodes is handled by its instruction, under any configuration. -/
theorem commandUnder_ok (c : Cfg V) {w : CmdWord} {i : Instr} (h : decode w = .ok i) (b : BfuOf V) :
    commandUnder c w b = instrUnder c i b := by
  simp [commandUnder, h]

/-- Settles O19: a harmless instruction completes whatever the configuration, and the machine's step delivers what its own
configuration answers. -/
theorem readyUnderAnyConfiguration : Obligations.ReadyUnderAnyConfiguration := by
  refine ⟨fun V c b w i hcfg hflt hdecode hi => ?_, fun s w rest hpending => ?_⟩
  · obtain ⟨b', ra, rb, hr, hcfg', hflt', hcause'⟩ := instrUnder_completes c hcfg hflt hi
    rw [commandUnder_ok c hdecode, hr]
    exact ⟨hcfg', hflt'.trans hflt, hcause', statusOf_responseWord _ _ _⟩
  · rw [step_command hpending, runCommand_eq_commandUnder]
    rfl

end Sys2Proof.Machine
end

section
/-! SUPPORT. Proofs: the default configuration (spec/00_scope.md R4) and the patterns of binary32 (R7, R43;
spec/93_implementation_defined.md U7). -/

namespace Sys2Proof.Machine

/-- Settles O48: the eight comparisons of R4's table on the default values, run. -/
theorem defaultConfigurationAdmitted : Obligations.DefaultConfigurationAdmitted := by
  unfold Obligations.DefaultConfigurationAdmitted
  decide

/-! ### The three fields of a pattern -/

/-- The pattern with the three fields, as `bits32` writes it. -/
def pattern (neg : Bool) (e : BitVec 8) (m : BitVec 23) : Word32 := signField neg ++ e ++ m

theorem signField_getLsbD (neg : Bool) (i : Nat) : (signField neg).getLsbD i = (decide (i = 0) && neg) := by
  cases neg <;> simp [signField]

theorem pattern_getLsbD (neg : Bool) (e : BitVec 8) (m : BitVec 23) (i : Nat) :
    (pattern neg e m).getLsbD i =
      if i < 23 then m.getLsbD i else if i < 31 then e.getLsbD (i - 23) else (decide (i = 31) && neg) := by
  have h : (pattern neg e m).getLsbD i = ((signField neg ++ e) ++ m).getLsbD i := rfl
  rw [h, BitVec.getLsbD_append, BitVec.getLsbD_append, signField_getLsbD]
  by_cases h1 : i < 23
  · simp only [h1, if_true]
  · by_cases h2 : i < 31
    · simp [h1, h2, show i - 23 < 8 by omega]
    · simp [h1, h2, show ¬ i - 23 < 8 by omega, show i - 23 - 8 = 0 ↔ i = 31 by omega]

@[simp] theorem signBit_pattern (neg : Bool) (e : BitVec 8) (m : BitVec 23) : signBit (pattern neg e m) = neg := by
  rw [signBit, pattern_getLsbD]
  simp

@[simp] theorem expField_pattern (neg : Bool) (e : BitVec 8) (m : BitVec 23) : expField (pattern neg e m) = e := by
  apply BitVec.eq_of_getLsbD_eq
  intro i hi
  rw [expField, BitVec.getLsbD_extractLsb', pattern_getLsbD, if_neg (by omega), if_pos (by omega)]
  simp [hi]

@[simp] theorem fracField_pattern (neg : Bool) (e : BitVec 8) (m : BitVec 23) : fracField (pattern neg e m) = m := by
  apply BitVec.eq_of_getLsbD_eq
  intro i hi
  rw [fracField, BitVec.getLsbD_extractLsb', pattern_getLsbD, if_pos (by omega)]
  simp [hi]

/-- A pattern is made of its three fields. -/
theorem pattern_fields (u : Word32) : pattern (signBit u) (expField u) (fracField u) = u := by
  apply BitVec.eq_of_getLsbD_eq
  intro i hi
  rw [pattern_getLsbD, signBit, expField, fracField, BitVec.getLsbD_extractLsb', BitVec.getLsbD_extractLsb']
  by_cases h1 : i < 23
  · simp [h1]
  · by_cases h2 : i < 31
    · simp [h1, h2, show i - 23 < 8 by omega, show 23 + (i - 23) = i by omega]
    · simp [show i = 31 by omega]

/-! ### Reading a pattern, case by case -/

/-- An exponent field below all ones reads as a finite value. -/
theorem f32_fin {u : Word32} (h : (expField u).toNat < 255) :
    f32 u = .fin (signBit u) ⟨(expField u).toNat, h⟩ (fracField u) := by
  rw [f32, dif_pos h]

/-- An exponent field of all ones reads as an infinity or a NaN. -/
theorem f32_allOnes {u : Word32} (h : expField u = 0xFF) :
    f32 u = if fracField u = 0 then .inf (signBit u) else .nan := by
  rw [f32, dif_neg (by simp [h])]

/-- The exponent field is all ones or below. -/
theorem expField_cases (u : Word32) : (expField u).toNat < 255 ∨ expField u = 0xFF := by
  have h := (expField u).isLt
  rcases Nat.lt_or_ge (expField u).toNat 255 with h1 | h1
  · exact .inl h1
  · exact .inr (BitVec.eq_of_toNat_eq (by change (expField u).toNat = 255; omega))

theorem isNanPattern_iff {u : Word32} : isNanPattern u = true ↔ expField u = 0xFF ∧ fracField u ≠ 0 := by
  simp [isNanPattern]

theorem f32_eq_nan_iff (u : Word32) : f32 u = .nan ↔ isNanPattern u = true := by
  rw [isNanPattern_iff]
  rcases expField_cases u with h | h
  · have hne : expField u ≠ 255#8 := fun e => by simp [e] at h
    simp [f32_fin h, hne]
  · by_cases hm : fracField u = 0 <;> simp [f32_allOnes h, h, hm]

/-! ### Writing and reading back -/

theorem bits32_fin (free : Word32) (neg : Bool) (e : Fin (binary32.expTop + 1)) (m : BitVec 23) :
    bits32 free (.fin neg e m) = pattern neg (BitVec.ofNat 8 e.val) m := rfl

theorem bits32_inf (free : Word32) (neg : Bool) : bits32 free (.inf neg) = pattern neg 0xFF 0 := rfl

theorem isNanPattern_nanPattern (u : Word32) : isNanPattern (nanPattern u) = true := by
  unfold nanPattern
  split
  · assumption
  · decide

theorem bits32_f32 {u : Word32} (free : Word32) (h : isNanPattern u = false) : bits32 free (f32 u) = u := by
  rcases expField_cases u with he | he
  · rw [f32_fin he, bits32_fin, BitVec.ofNat_toNat, BitVec.setWidth_eq, pattern_fields]
  · have hm : fracField u = 0 := by simpa [isNanPattern, he] using h
    rw [f32_allOnes he, if_pos hm, bits32_inf, ← he, ← hm, pattern_fields]

theorem f32_bits32 (free : Word32) (v : F) : f32 (bits32 free v) = v := by
  cases v with
  | nan => exact (f32_eq_nan_iff _).2 (isNanPattern_nanPattern free)
  | inf neg =>
    rw [bits32_inf, f32_allOnes (expField_pattern _ _ _)]
    simp
  | fin neg e m =>
    have he : e.val < 255 := e.isLt
    have hexp : (expField (pattern neg (BitVec.ofNat 8 e.val) m)).toNat = e.val := by
      rw [expField_pattern, BitVec.toNat_ofNat, Nat.mod_eq_of_lt (by omega)]
    rw [bits32_fin, f32_fin (by rw [hexp]; exact he)]
    congr 1
    · exact signBit_pattern _ _ _
    · exact Fin.ext hexp
    · exact fracField_pattern _ _ _

/-- Settles O49: reading and writing are inverse but for a NaN, which is written as any NaN pattern. -/
theorem patternsRoundTrip : Obligations.PatternsRoundTrip :=
  ⟨fun _ free h => bits32_f32 free h, f32_bits32, f32_eq_nan_iff, isNanPattern_nanPattern,
    fun u hu => ⟨u, by rw [bits32, nanPattern, if_pos hu]⟩⟩

end Sys2Proof.Machine
end

section
/-! SUPPORT. Proofs: the rounded pattern lies between the two midpoints to its neighbours, so no other pattern's value is nearer
(spec/00_scope.md R5). -/

namespace Sys2Proof.Machine

/-! ### Between the midpoints -/

/-- The pattern of a significand in a binade is even with the significand. -/
theorem binade_mod_two {f : Nat} (hf : 0 < f) (x q : Nat) : (x * 2 ^ f + q) % 2 = q % 2 := by
  obtain ⟨g, rfl⟩ : ∃ g, f = g + 1 := ⟨f - 1, by omega⟩
  rw [pow_succ, ← Nat.mul_assoc]
  omega

/-- One significand further, the value grows by the binade's unit at least. -/
theorem patValue_binade_succ {f x q : Nat} (hx : x = 0 ∨ 2 ^ f ≤ q) (hq : q ≤ 2 * 2 ^ f) :
    (q + 1) * 2 ^ x ≤ patValue f (x * 2 ^ f + q + 1) := by
  rcases Nat.lt_or_eq_of_le hq with hq | rfl
  · rw [Nat.add_assoc, patValue_binade (by omega) (by omega)]
  · have hw := Nat.two_pow_pos f
    have h : x * 2 ^ f + 2 * 2 ^ f + 1 = (x + 1) * 2 ^ f + (2 ^ f + 1) := by ring
    rw [h, patValue_binade (by omega) (by omega), pow_succ]
    have := Nat.two_pow_pos x
    nlinarith

/-- The rounded fraction is not above the midpoint to the next pattern, and on it only at an even pattern. -/
theorem roundPattern_next {f num den : Nat} (hf : 0 < f) (hd : 0 < den) :
    2 * num ≤ (patValue f (roundPattern f num den) + patValue f (roundPattern f num den + 1)) * den ∧
      (2 * num = (patValue f (roundPattern f num den) + patValue f (roundPattern f num den + 1)) * den →
        roundPattern f num den % 2 = 0) := by
  obtain ⟨hlt, hge⟩ := quotient_spec f num den
  obtain ⟨hb1, hb2⟩ := nearestEven_bounds num (den * 2 ^ excess f (num / den))
  have hD : 0 < den * 2 ^ excess f (num / den) := Nat.mul_pos hd (Nat.two_pow_pos _)
  obtain ⟨hnear, -⟩ := nearestEven_near (num := num) hD
  have htie := nearestEven_tie (num := num) (q := nearestEven num (den * 2 ^ excess f (num / den))) hD
  have hnext := patValue_binade_succ (f := f) (x := excess f (num / den))
    (q := nearestEven num (den * 2 ^ excess f (num / den))) (by omega) (by omega)
  rw [patValue_roundPattern]
  unfold roundPattern
  dsimp only
  rw [binade_mod_two hf]
  generalize excess f (num / den) = x at *
  generalize nearestEven num (den * 2 ^ x) = q at *
  generalize patValue f (x * 2 ^ f + q + 1) = v at *
  have hmid : (2 * q + 1) * (den * 2 ^ x) ≤ (q * 2 ^ x + v) * den := by nlinarith
  exact ⟨hnear.trans hmid, fun h => htie (by omega)⟩

/-- Nor is it below the midpoint to the pattern before, and on it only at an even pattern. -/
theorem roundPattern_prev {f num den p : Nat} (hf : 0 < f) (hd : 0 < den) (hp : roundPattern f num den = p + 1) :
    (patValue f p + patValue f (p + 1)) * den ≤ 2 * num ∧
      ((patValue f p + patValue f (p + 1)) * den = 2 * num → (p + 1) % 2 = 0) := by
  obtain ⟨hlt, hge⟩ := quotient_spec f num den
  obtain ⟨hb1, hb2⟩ := nearestEven_bounds num (den * 2 ^ excess f (num / den))
  have hD : 0 < den * 2 ^ excess f (num / den) := Nat.mul_pos hd (Nat.two_pow_pos _)
  obtain ⟨-, hnear⟩ := nearestEven_near (num := num) hD
  have htie := nearestEven_tie (num := num) (q := nearestEven num (den * 2 ^ excess f (num / den)) - 1) hD
  have hfloor := Nat.div_mul_le_self num (den * 2 ^ excess f (num / den))
  have hval := patValue_roundPattern f num den
  have hstep := patValue_succ f p
  rw [hp] at hval
  rw [hval] at hstep ⊢
  unfold roundPattern at hp
  dsimp only at hp
  rw [← hp, binade_mod_two hf]
  generalize excess f (num / den) = x at *
  generalize hQ : nearestEven num (den * 2 ^ x) = q at *
  by_cases hq : x = 0 ∨ 2 ^ f < q
  · -- the pattern before is the significand before, in the same binade
    obtain ⟨r, rfl⟩ : ∃ r, q = r + 1 := ⟨q - 1, by
      rcases hq with rfl | hq
      · omega
      · have := Nat.two_pow_pos f
        omega⟩
    have hpr : p = x * 2 ^ f + r := by omega
    rw [hpr, patValue_binade (by omega) (by omega)]
    have hmid : (r * 2 ^ x + (r + 1) * 2 ^ x) * den = (2 * r + 1) * (den * 2 ^ x) := by ring
    rw [hmid]
    rw [show 2 * (r + 1) * (den * 2 ^ x) = (2 * r + 1) * (den * 2 ^ x) + den * 2 ^ x by ring] at hnear
    exact ⟨by omega, fun h => htie h.symm⟩
  · -- the least significand of a binade is not rounded up to
    have hle : q * (den * 2 ^ x) ≤ num := (Nat.mul_le_mul_right _ (by omega)).trans hfloor
    have hlt' : (patValue f p + q * 2 ^ x) * den < 2 * num := by nlinarith
    exact ⟨hlt'.le, fun h => absurd h hlt'.ne⟩

/-! ### No other pattern is nearer -/

/-- Of two ordered numbers the lower one is no farther from what is not above their midpoint. -/
theorem abs_sub_le_of_le_midpoint {x a b : Int} (hab : a ≤ b) (h : 2 * x ≤ a + b) : |x - a| ≤ |x - b| := by
  rw [abs_le]
  have h1 := neg_abs_le (x - b)
  have h2 := abs_nonneg (x - b)
  constructor <;> omega

/-- The same for the upper one. -/
theorem abs_sub_le_of_midpoint_le {x a b : Int} (hab : a ≤ b) (h : a + b ≤ 2 * x) : |x - b| ≤ |x - a| := by
  have h' := abs_sub_le_of_le_midpoint (x := -x) (a := -b) (b := -a) (by omega) (by omega)
  rw [show -x - -b = -(x - b) by ring, show -x - -a = -(x - a) by ring, abs_neg, abs_neg] at h'
  exact h'

/-- Only the midpoint is as far from two different numbers. -/
theorem midpoint_of_abs_sub_eq {x a b : Int} (hab : a ≠ b) (h : |x - a| = |x - b|) : 2 * x = a + b := by
  rcases abs_eq_abs.1 h with h | h <;> omega

/-- No pattern's value is nearer to the fraction than the rounded one's, which is even where another's is as near. -/
theorem roundPattern_nearest {f num den : Nat} (hf : 0 < f) (hd : 0 < den) (p : Nat) :
    |(num : Int) - patValue f (roundPattern f num den) * den| ≤ |(num : Int) - patValue f p * den| ∧
      (|(num : Int) - patValue f (roundPattern f num den) * den| = |(num : Int) - patValue f p * den| →
        p ≠ roundPattern f num den → roundPattern f num den % 2 = 0) := by
  have hmono := (patValue_strictMono f).monotone
  have hd' : (den : Int) ≠ 0 := by omega
  -- a tie with another pattern puts the fraction on the midpoint to it
  have hmid : ∀ p, p ≠ roundPattern f num den →
      |(num : Int) - patValue f (roundPattern f num den) * den| = |(num : Int) - patValue f p * den| →
        2 * num = (patValue f (roundPattern f num den) + patValue f p) * den := by
    intro p hp h
    have hne : patValue f (roundPattern f num den) ≠ patValue f p := fun e => hp ((patValue_strictMono f).injective e).symm
    have := midpoint_of_abs_sub_eq (fun e => hne (by exact_mod_cast mul_right_cancel₀ hd' e)) h
    rw [← add_mul] at this
    exact_mod_cast this
  rcases Nat.lt_trichotomy p (roundPattern f num den) with hp | hp | hp
  · obtain ⟨n, hn⟩ : ∃ n, roundPattern f num den = n + 1 := ⟨roundPattern f num den - 1, by omega⟩
    obtain ⟨h1, h2⟩ := roundPattern_prev hf hd hn
    have hmid := hmid p
    rw [hn] at hp hmid ⊢
    have hv : patValue f p * den ≤ patValue f n * den := Nat.mul_le_mul_right _ (hmono (by omega))
    have hvn : patValue f n * den ≤ patValue f (n + 1) * den := Nat.mul_le_mul_right _ (hmono (by omega))
    rw [Nat.add_mul] at h1 h2
    refine ⟨abs_sub_le_of_midpoint_le (by exact_mod_cast hv.trans hvn) (by exact_mod_cast (by omega)), fun h hne => h2 ?_⟩
    have := hmid hne h
    rw [Nat.add_mul] at this
    omega
  · exact ⟨by rw [hp], fun _ hne => absurd hp hne⟩
  · obtain ⟨h1, h2⟩ := roundPattern_next (num := num) hf hd
    have hmid := hmid p
    generalize roundPattern f num den = n at *
    have hv : patValue f (n + 1) * den ≤ patValue f p * den := Nat.mul_le_mul_right _ (hmono hp)
    have hvn : patValue f n * den ≤ patValue f (n + 1) * den := Nat.mul_le_mul_right _ (hmono (by omega))
    rw [Nat.add_mul] at h1 h2
    refine ⟨abs_sub_le_of_le_midpoint (by exact_mod_cast hvn.trans hv) (by exact_mod_cast (by omega)), fun h hne => h2 ?_⟩
    have := hmid hne h
    rw [Nat.add_mul] at this
    omega

/-- The fractions rounded to an odd pattern or below it are those below the midpoint to the next pattern. -/
theorem roundPattern_le_iff {f num den p : Nat} (hf : 0 < f) (hd : 0 < den) (hp : p % 2 = 1) :
    roundPattern f num den ≤ p ↔ 2 * num < (patValue f p + patValue f (p + 1)) * den := by
  have hmono := patValue_strictMono f
  constructor
  · intro h
    obtain ⟨h1, h2⟩ := roundPattern_next (num := num) hf hd
    rcases Nat.lt_or_eq_of_le h with h | h
    · refine h1.trans_lt (Nat.mul_lt_mul_of_pos_right ?_ hd)
      exact Nat.add_lt_add (hmono h) (hmono (by omega))
    · rw [h] at h1 h2
      exact lt_of_le_of_ne h1 fun e => by
        have := h2 e
        omega
  · intro h
    by_contra hlt
    obtain ⟨n, hn⟩ : ∃ n, roundPattern f num den = n + 1 := ⟨roundPattern f num den - 1, by omega⟩
    obtain ⟨h1, -⟩ := roundPattern_prev hf hd hn
    have hle : patValue f p + patValue f (p + 1) ≤ patValue f n + patValue f (n + 1) :=
      Nat.add_le_add (hmono.monotone (by omega)) (hmono.monotone (by omega))
    exact absurd (h1.trans_lt h) (Nat.not_lt.2 (Nat.mul_le_mul_right _ hle))

/-! ### Binary32 -/

/-- Half a last place above the greatest finite value, in half units, is the midpoint to the first pattern of an infinity. -/
theorem overflow_midpoint : patValue 23 (255 * 2 ^ 23 - 1) + patValue 23 (255 * 2 ^ 23) = (2 ^ 25 - 1) * 2 ^ 253 := by
  have h1 : patValue 23 (253 * 2 ^ 23 + (2 * 2 ^ 23 - 1)) = (2 * 2 ^ 23 - 1) * 2 ^ 253 :=
    patValue_binade (.inr (by norm_num)) (by norm_num)
  have h2 : patValue 23 (253 * 2 ^ 23 + 2 * 2 ^ 23) = 2 * 2 ^ 23 * 2 ^ 253 :=
    patValue_binade (.inr (by norm_num)) (by norm_num)
  rw [show 255 * 2 ^ 23 - 1 = 253 * 2 ^ 23 + (2 * 2 ^ 23 - 1) by norm_num,
    show 255 * 2 ^ 23 = 253 * 2 ^ 23 + 2 * 2 ^ 23 by norm_num, h1, h2, ← Nat.add_mul,
    show 2 * 2 ^ 23 - 1 + 2 * 2 ^ 23 = 2 ^ 25 - 1 by norm_num]

/-- The magnitudes that do not overflow. -/
theorem roundPattern_finite_iff {num den : Nat} (hd : 0 < den) :
    roundPattern 23 num den < 255 * 2 ^ 23 ↔ 2 * num < (2 ^ 25 - 1) * 2 ^ 253 * den := by
  have h := roundPattern_le_iff (f := 23) (num := num) (p := 255 * 2 ^ 23 - 1) (by norm_num) hd (by norm_num)
  rw [show 255 * 2 ^ 23 - 1 + 1 = 255 * 2 ^ 23 by norm_num, overflow_midpoint] at h
  rw [← h]
  omega

/-- Settles O50: the rounded pattern is below the infinities exactly under the midpoint to them, and then no other pattern is
nearer. -/
theorem roundingIsNearest : Obligations.RoundingIsNearest := by
  intro neg num den hd
  have hiff := roundPattern_finite_iff (num := num) hd
  constructor
  · intro h
    exact pack_inf neg fun hlt => absurd (hiff.1 hlt) (Nat.not_lt.2 h)
  · intro h
    obtain ⟨e, m, hpack, hpat⟩ := pack_fin (k := binary32) neg (hiff.2 h)
    refine ⟨e, m, hpack, fun e' m' => ?_⟩
    obtain ⟨hnear, htie⟩ := roundPattern_nearest (f := 23) (num := num) (by norm_num) hd (patOf e' m')
    have hodd : patOf e m % 2 = m.toNat % 2 := binade_mod_two (f := 23) (by norm_num) e.val m.toNat
    rw [magnitude_eq, magnitude_eq, hpat]
    refine ⟨hnear, fun heq hne => ?_⟩
    rw [← hodd, hpat]
    refine htie heq fun hsame => hne ?_
    have : (pack neg (patOf e' m') : F) = pack neg (patOf e m) := by rw [hsame, hpat]
    rw [pack_patOf, pack_patOf] at this
    cases this
    rfl

end Sys2Proof.Machine
end

section
/-! SUPPORT. Proofs: exact values and their order, the rounding of a signed fraction, and the four operations as the exact
result rounded once (spec/00_scope.md R5). -/

namespace Sys2Proof.Machine

open Sys2Proof.Safety (exactValue RoundsTo)

variable {k : Format}

/-! ### Signed integers -/

theorem signedInt_zero (neg : Bool) : signedInt neg 0 = 0 := by cases neg <;> rfl

theorem signedInt_eq_zero {neg : Bool} {n : Nat} : signedInt neg n = 0 ↔ n = 0 := by cases neg <;> simp [signedInt]

theorem signedInt_not (neg : Bool) (n : Nat) : signedInt (!neg) n = -signedInt neg n := by cases neg <;> simp [signedInt]

theorem abs_signedInt (neg : Bool) (n : Nat) : |signedInt neg n| = n := by cases neg <;> simp [signedInt]

theorem signedInt_mul (neg neg' : Bool) (a b : Nat) :
    signedInt neg a * signedInt neg' b = signedInt (neg != neg') (a * b) := by
  cases neg <;> cases neg' <;> simp [signedInt]

/-- Scaling a magnitude scales the signed integer. -/
theorem signedInt_mul_nat (neg : Bool) (a b : Nat) : signedInt neg (a * b) = signedInt neg a * b := by
  cases neg <;> simp [signedInt]

theorem signedInt_natAbs (z : Int) : signedInt (decide (z < 0)) z.natAbs = z := by
  by_cases h : z < 0
  · simp only [signedInt, h, decide_true, if_true]
    omega
  · simp only [signedInt, h, decide_false, Bool.false_eq_true, if_false]
    omega

/-- A signed integer is negative by its sign, unless it is zero. -/
theorem signedInt_neg_iff {neg : Bool} {n : Nat} (h : n ≠ 0 ∨ neg = false) : decide (signedInt neg n < 0) = neg := by
  cases neg
  · simp [signedInt]
  · have : n ≠ 0 := by simpa using h
    simp only [signedInt, if_true, decide_eq_true_eq]
    omega

/-! ### Magnitudes and exact values -/

@[simp] theorem magnitude_zero : magnitude (0 : Fin (k.expTop + 1)) (0 : BitVec k.fracBits) = 0 := by
  simp [magnitude, significand]

/-- A finite magnitude is below the place of the infinities. -/
theorem magnitude_lt (e : Fin (k.expTop + 1)) (m : BitVec k.fracBits) : magnitude e m < 2 ^ (k.expTop + k.fracBits) := by
  have hm := m.isLt
  unfold magnitude significand
  split
  · rename_i he
    rw [he, Nat.zero_sub, pow_zero, Nat.mul_one, pow_add]
    exact hm.trans_le (Nat.le_mul_of_pos_left _ (Nat.two_pow_pos _))
  · rename_i he
    have hexp : e.val - 1 + (k.fracBits + 1) ≤ k.expTop + k.fracBits := by
      have := e.isLt
      omega
    calc (2 ^ k.fracBits + m.toNat) * 2 ^ (e.val - 1)
        < 2 ^ (k.fracBits + 1) * 2 ^ (e.val - 1) :=
          Nat.mul_lt_mul_of_pos_right (by rw [pow_succ]; omega) (Nat.two_pow_pos _)
      _ = 2 ^ (e.val - 1 + (k.fracBits + 1)) := by rw [← pow_add, Nat.add_comm]
      _ ≤ 2 ^ (k.expTop + k.fracBits) := Nat.pow_le_pow_right (by norm_num) hexp

theorem exactValue_fin (neg : Bool) (e : Fin (k.expTop + 1)) (m : BitVec k.fracBits) :
    exactValue (.fin neg e m) = signedInt neg (magnitude e m) / 2 ^ k.unit := rfl

/-- The unit of binary32 is 2^-149. -/
theorem exactValue_binary32 (neg : Bool) (e : Fin (binary32.expTop + 1)) (m : BitVec binary32.fracBits) :
    exactValue (.fin neg e m : F) = signedInt neg (magnitude e m) / 2 ^ 149 := rfl

@[simp] theorem exactValue_zeroOf (neg : Bool) : exactValue (zeroOf neg : Flt k) = 0 := by
  rw [zeroOf, exactValue_fin, magnitude_zero, signedInt_zero, Int.cast_zero, zero_div]

theorem exactValue_eq_zero {neg : Bool} {e : Fin (k.expTop + 1)} {m : BitVec k.fracBits} :
    exactValue (.fin neg e m) = 0 ↔ magnitude e m = 0 := by
  simp [exactValue_fin, signedInt_eq_zero]

theorem exactValue_fltNeg (a : Flt k) : exactValue (fltNeg a) = -exactValue a := by
  cases a with
  | nan => simp [fltNeg, exactValue]
  | inf neg => simp [fltNeg, exactValue]
  | fin neg e m => rw [fltNeg, exactValue_fin, exactValue_fin, signedInt_not, Int.cast_neg, neg_div]

/-- A value is finite when it has a sign, an exponent and a fraction. -/
theorem fltFinite_iff {a : Flt k} : fltFinite a = true ↔ ∃ neg e m, a = .fin neg e m := by
  cases a <;> simp

/-! ### The order of the values -/

/-- The comparison of finite values is that of their exact values. -/
theorem fltLt_iff {a b : Flt k} (ha : fltFinite a = true) (hb : fltFinite b = true) :
    fltLt a b = true ↔ exactValue a < exactValue b := by
  obtain ⟨n, e, m, rfl⟩ := fltFinite_iff.1 ha
  obtain ⟨n', e', m', rfl⟩ := fltFinite_iff.1 hb
  rw [fltLt_rank rfl rfl, exactValue_fin, exactValue_fin, div_lt_div_iff_of_pos_right (by positivity), decide_eq_true_eq,
    Int.cast_lt]

theorem fltLt_eq_false_iff {a b : Flt k} (ha : fltFinite a = true) (hb : fltFinite b = true) :
    fltLt a b = false ↔ exactValue b ≤ exactValue a := by
  rw [← not_lt, ← fltLt_iff ha hb, Bool.not_eq_true]

/-- Every place in the order is at most that of +Inf. -/
theorem rank_le_inf {a : Flt k} {x : Int} (h : rank a = some x) : |x| ≤ 2 ^ (k.expTop + k.fracBits) := by
  cases a with
  | nan => cases h
  | inf neg =>
    cases h
    rw [abs_signedInt]
    norm_cast
  | fin neg e m =>
    cases h
    rw [abs_signedInt]
    exact_mod_cast (magnitude_lt e m).le

/-- Nothing is above +Inf. -/
@[simp] theorem fltLt_inf_left (a : Flt k) : fltLt (.inf false) a = false := by
  cases ha : rank a with
  | none => rw [rank_eq_none.1 ha, fltLt_nan_right]
  | some x =>
    have h := (abs_le.1 (rank_le_inf ha)).2
    rw [fltLt_rank rfl ha, decide_eq_false_iff_not, not_lt]
    exact_mod_cast h

/-- Nothing is below -Inf. -/
@[simp] theorem fltLt_inf_right (a : Flt k) : fltLt a (.inf true) = false := by
  cases ha : rank a with
  | none => rw [rank_eq_none.1 ha, fltLt_nan_left]
  | some x =>
    have h := (abs_le.1 (rank_le_inf ha)).1
    rw [fltLt_rank ha rfl, decide_eq_false_iff_not, not_lt]
    simpa [signedInt] using h

/-! ### A signed fraction, rounded -/

/-- The size of a signed fraction is that of its magnitude. -/
theorem abs_signed_div (neg : Bool) (n : Nat) (d : ℚ) : |(signedInt neg n : ℚ) / d| = n / |d| := by
  rw [abs_div, ← Int.cast_abs, abs_signedInt, Int.cast_natCast]

/-- Two numbers of one sign are as far apart as their magnitudes. -/
theorem abs_signed_sub (neg : Bool) (a b : Nat) (c d : ℚ) :
    |(signedInt neg a : ℚ) / c - signedInt neg b / d| = |(a : ℚ) / c - b / d| := by
  cases neg
  · simp [signedInt]
  · rw [← abs_neg]
    simp only [signedInt, if_true, Int.cast_neg, Int.cast_natCast]
    congr 1
    ring

/-- Two numbers of opposite signs are as far apart as their magnitudes together. -/
theorem abs_signed_sub_not (neg : Bool) (a b : Nat) {c d : ℚ} (hc : 0 < c) (hd : 0 < d) :
    |(signedInt neg a : ℚ) / c - signedInt (!neg) b / d| = a / c + b / d := by
  rw [signedInt_not, Int.cast_neg, neg_div, sub_neg_eq_add]
  have hpos : 0 ≤ (a : ℚ) / c + b / d := by positivity
  cases neg
  · simp only [signedInt, Bool.false_eq_true, if_false, Int.cast_natCast]
    exact abs_of_nonneg hpos
  · simp only [signedInt, if_true, Int.cast_neg, Int.cast_natCast]
    rw [← abs_neg, ← abs_of_nonneg hpos]
    congr 1
    ring

/-- The distance of two magnitudes, as the integers of O50 have it. -/
theorem abs_fraction_sub (num a : Nat) {den : Nat} (hd : 0 < den) :
    |(num : ℚ) / (den * 2 ^ 149) - a / 2 ^ 149| = ((|(num : Int) - a * den| : Int) : ℚ) / (den * 2 ^ 149) := by
  have hden : (0 : ℚ) < den * 2 ^ 149 := by positivity
  rw [show (a : ℚ) / 2 ^ 149 = a * den / (den * 2 ^ 149) by field_simp, ← sub_div, abs_div, abs_of_pos hden]
  push_cast
  rfl

/-- The fraction `num / den` of units is no nearer to any magnitude than to that of `e` and `m`, whose fraction field is even
where another magnitude is as near. -/
def NearestMagnitude (num den : Nat) (e : Fin (binary32.expTop + 1)) (m : BitVec binary32.fracBits) : Prop :=
  ∀ (e' : Fin (binary32.expTop + 1)) (m' : BitVec binary32.fracBits),
    |(num : ℚ) / (den * 2 ^ 149) - magnitude e m / 2 ^ 149| ≤ |(num : ℚ) / (den * 2 ^ 149) - magnitude e' m' / 2 ^ 149| ∧
    (|(num : ℚ) / (den * 2 ^ 149) - magnitude e m / 2 ^ 149| = |(num : ℚ) / (den * 2 ^ 149) - magnitude e' m' / 2 ^ 149| →
      magnitude e' m' ≠ magnitude e m → m.toNat % 2 = 0)

/-- Below the overflow the rounding is finite and nearest, in rational numbers. -/
theorem roundNearest_nearestMagnitude (neg : Bool) {num den : Nat} (hd : 0 < den)
    (h : 2 * num < (2 ^ 25 - 1) * 2 ^ 253 * den) :
    ∃ e m, (roundNearest neg num den : F) = .fin neg e m ∧ NearestMagnitude num den e m := by
  have hden : (0 : ℚ) < den * 2 ^ 149 := by positivity
  obtain ⟨-, hfin⟩ := roundingIsNearest neg num den hd
  obtain ⟨e, m, hround, hnear⟩ := hfin h
  refine ⟨e, m, hround, fun e' m' => ?_⟩
  obtain ⟨h1, h2⟩ := hnear e' m'
  rw [abs_fraction_sub _ _ hd, abs_fraction_sub _ _ hd, div_le_div_iff_of_pos_right hden, div_left_inj' hden.ne',
    Int.cast_le, Int.cast_inj]
  exact ⟨h1, fun heq hne => h2 heq fun hsame => hne (by cases hsame; rfl)⟩

/-- The nearest magnitude with the fraction's sign is nearest among the values of both signs: one of the other sign is no
nearer than the zero. -/
theorem NearestMagnitude.signed {num den : Nat} {e : Fin (binary32.expTop + 1)} {m : BitVec binary32.fracBits}
    (hnear : NearestMagnitude num den e m) (hd : 0 < den) (neg : Bool) {v : F} (hv : fltFinite v = true) :
    |(signedInt neg num : ℚ) / (den * 2 ^ 149) - exactValue (.fin neg e m : F)| ≤
      |(signedInt neg num : ℚ) / (den * 2 ^ 149) - exactValue v| ∧
    (|(signedInt neg num : ℚ) / (den * 2 ^ 149) - exactValue (.fin neg e m : F)| =
        |(signedInt neg num : ℚ) / (den * 2 ^ 149) - exactValue v| →
      exactValue v ≠ exactValue (.fin neg e m : F) → m.toNat % 2 = 0) := by
  have hden : (0 : ℚ) < den * 2 ^ 149 := by positivity
  obtain ⟨neg', e', m', rfl⟩ := fltFinite_iff.1 hv
  rw [exactValue_binary32, exactValue_binary32, abs_signed_sub]
  by_cases hsame : neg' = neg
  · subst hsame
    rw [abs_signed_sub]
    obtain ⟨h1, h2⟩ := hnear e' m'
    exact ⟨h1, fun heq hne => h2 heq fun hmag => hne (by rw [hmag])⟩
  · obtain rfl : neg' = !neg := by rw [Bool.eq_not]; exact hsame
    rw [abs_signed_sub_not neg _ _ hden (by positivity)]
    obtain ⟨z1, z2⟩ := hnear 0 0
    have hX : 0 ≤ (num : ℚ) / (den * 2 ^ 149) := by positivity
    have hW : 0 ≤ (magnitude e' m' : ℚ) / 2 ^ 149 := by positivity
    rw [magnitude_zero, Nat.cast_zero, zero_div, sub_zero, abs_of_nonneg hX] at z1 z2
    refine ⟨by linarith, fun heq hne => z2 (by linarith) fun hmag => hne ?_⟩
    have hzero : (magnitude e' m' : ℚ) / 2 ^ 149 = 0 := by linarith
    have hmag' : magnitude e' m' = 0 := by simpa using hzero
    rw [hmag', ← hmag, signedInt_zero, signedInt_zero]

/-- A signed fraction, in units, is rounded once by `roundNearest`; the fraction zero counts as positive. -/
theorem roundsTo_roundNearest {neg : Bool} {num den : Nat} (hd : 0 < den) (hsign : num ≠ 0 ∨ neg = false) :
    RoundsTo (signedInt neg num / (den * 2 ^ 149)) (roundNearest neg num den) := by
  have hden : (0 : ℚ) < den * 2 ^ 149 := by positivity
  have hneg : decide ((signedInt neg num : ℚ) / (den * 2 ^ 149) < 0) = neg := by
    simpa only [div_lt_iff₀ hden, zero_mul, Int.cast_lt_zero] using signedInt_neg_iff hsign
  have hover : (2 : ℚ) ^ 128 - 2 ^ 103 ≤ |(signedInt neg num : ℚ) / (den * 2 ^ 149)| ↔
      (2 ^ 25 - 1) * 2 ^ 253 * den ≤ 2 * num := by
    rw [abs_signed_div, abs_of_pos hden, le_div_iff₀ hden, ← Nat.cast_le (α := ℚ)]
    push_cast
    constructor <;> intro h <;> linarith
  unfold RoundsTo
  rw [hneg]
  split
  · rename_i h
    exact (roundingIsNearest neg num den hd).1 (hover.1 h)
  · rename_i h
    obtain ⟨e, m, hround, hnear⟩ := roundNearest_nearestMagnitude neg hd (not_le.1 fun hle => h (hover.2 hle))
    rw [hround]
    exact ⟨e, m, rfl, fun v hv => hnear.signed hd neg hv⟩

/-- An exact integer of units, rounded once. -/
theorem roundsTo_roundInt (zeroNeg : Bool) {z : Int} (hz : z ≠ 0) :
    RoundsTo ((z : ℚ) / 2 ^ 149) (roundInt zeroNeg z) := by
  have h := roundsTo_roundNearest (neg := decide (z < 0)) (num := z.natAbs) (den := 1) Nat.one_pos (.inl (by omega))
  rw [signedInt_natAbs, Nat.cast_one, one_mul] at h
  rwa [roundInt, if_neg hz]

/-- A zero fraction rounds to the zero of its sign. -/
theorem roundNearest_zero (neg : Bool) {den : Nat} (hd : 0 < den) : (roundNearest neg 0 den : Flt k) = .fin neg 0 0 :=
  roundNearest_exact neg 0 0 hd (by rw [magnitude_zero, Nat.zero_mul])

/-! ### The operations on finite values -/

theorem fltAdd_fin (n n' : Bool) (e e' : Fin (k.expTop + 1)) (m m' : BitVec k.fracBits) :
    fltAdd (.fin n e m) (.fin n' e' m') =
      roundInt (n && n') (signedInt n (magnitude e m) + signedInt n' (magnitude e' m')) := rfl

theorem fltMul_fin (n n' : Bool) (e e' : Fin (k.expTop + 1)) (m m' : BitVec k.fracBits) :
    fltMul (.fin n e m) (.fin n' e' m') = roundNearest (n != n') (magnitude e m * magnitude e' m') (2 ^ k.unit) := rfl

theorem fltDiv_fin (n n' : Bool) (e e' : Fin (k.expTop + 1)) (m : BitVec k.fracBits) {m' : BitVec k.fracBits}
    (h : magnitude e' m' ≠ 0) :
    fltDiv (.fin n e m) (.fin n' e' m') = roundNearest (n != n') (magnitude e m * 2 ^ k.unit) (magnitude e' m') := by
  rw [fltDiv, if_neg h]

/-- The exact sum in units. -/
theorem exactValue_add (n n' : Bool) (e e' : Fin (k.expTop + 1)) (m m' : BitVec k.fracBits) :
    exactValue (.fin n e m) + exactValue (.fin n' e' m') =
      ((signedInt n (magnitude e m) + signedInt n' (magnitude e' m') : Int) : ℚ) / 2 ^ k.unit := by
  rw [exactValue_fin, exactValue_fin, ← add_div, Int.cast_add]

/-- The exact quotient, in units. -/
theorem exactValue_div {n n' : Bool} {e e' : Fin (k.expTop + 1)} {m m' : BitVec k.fracBits} (h : magnitude e' m' ≠ 0) :
    exactValue (.fin n e m) / exactValue (.fin n' e' m') =
      (signedInt (n != n') (magnitude e m * 2 ^ k.unit) : ℚ) / (magnitude e' m' * 2 ^ k.unit) := by
  have h' : (magnitude e' m' : ℚ) ≠ 0 := Nat.cast_ne_zero.2 h
  rw [exactValue_fin, exactValue_fin]
  cases n <;> cases n' <;> simp [signedInt] <;> field_simp

theorem fltAdd_roundsTo {a b : F} (ha : fltFinite a = true) (hb : fltFinite b = true)
    (h : exactValue a + exactValue b ≠ 0) : RoundsTo (exactValue a + exactValue b) (fltAdd a b) := by
  obtain ⟨n, e, m, rfl⟩ := fltFinite_iff.1 ha
  obtain ⟨n', e', m', rfl⟩ := fltFinite_iff.1 hb
  rw [exactValue_add] at h ⊢
  rw [fltAdd_fin]
  exact roundsTo_roundInt _ fun hz => h (by rw [hz, Int.cast_zero, zero_div])

theorem fltSub_roundsTo {a b : F} (ha : fltFinite a = true) (hb : fltFinite b = true)
    (h : exactValue a - exactValue b ≠ 0) : RoundsTo (exactValue a - exactValue b) (fltSub a b) := by
  rw [sub_eq_add_neg, ← exactValue_fltNeg] at h ⊢
  exact fltAdd_roundsTo ha (by rwa [fltNeg_finite]) h

theorem fltMul_roundsTo {a b : F} (ha : fltFinite a = true) (hb : fltFinite b = true)
    (h : exactValue a * exactValue b ≠ 0) : RoundsTo (exactValue a * exactValue b) (fltMul a b) := by
  obtain ⟨n, e, m, rfl⟩ := fltFinite_iff.1 ha
  obtain ⟨n', e', m', rfl⟩ := fltFinite_iff.1 hb
  rw [mul_ne_zero_iff, Ne, exactValue_eq_zero, Ne, exactValue_eq_zero] at h
  have hround := roundsTo_roundNearest (neg := n != n') (den := 2 ^ 149) (Nat.two_pow_pos _) (.inl (Nat.mul_ne_zero h.1 h.2))
  rw [← signedInt_mul, Int.cast_mul, Nat.cast_pow, Nat.cast_ofNat, ← div_mul_div_comm] at hround
  exact hround

theorem fltDiv_roundsTo {a b : F} (ha : fltFinite a = true) (hb : fltFinite b = true)
    (ha0 : exactValue a ≠ 0) (hb0 : exactValue b ≠ 0) : RoundsTo (exactValue a / exactValue b) (fltDiv a b) := by
  obtain ⟨n, e, m, rfl⟩ := fltFinite_iff.1 ha
  obtain ⟨n', e', m', rfl⟩ := fltFinite_iff.1 hb
  rw [Ne, exactValue_eq_zero] at ha0 hb0
  rw [exactValue_div hb0, fltDiv_fin n n' e e' m hb0]
  exact roundsTo_roundNearest (Nat.pos_of_ne_zero hb0) (.inl (Nat.mul_ne_zero ha0 (Nat.two_pow_pos _).ne'))

/-! ### Zero operands and exact zeros -/

theorem roundInt_zero (neg : Bool) : (roundInt neg 0 : Flt k) = .fin neg 0 0 := rfl

theorem fltAdd_exact_zero {n n' : Bool} {e e' : Fin (k.expTop + 1)} {m m' : BitVec k.fracBits}
    (h : exactValue (.fin n e m) + exactValue (.fin n' e' m') = 0) :
    fltAdd (.fin n e m) (.fin n' e' m') = .fin (n && n') 0 0 := by
  rw [exactValue_add, div_eq_zero_iff, or_iff_left (by positivity), Int.cast_eq_zero] at h
  rw [fltAdd_fin, h, roundInt_zero]

theorem fltMul_exact_zero {n n' : Bool} {e e' : Fin (k.expTop + 1)} {m m' : BitVec k.fracBits}
    (h : exactValue (.fin n e m) * exactValue (.fin n' e' m') = 0) :
    fltMul (.fin n e m) (.fin n' e' m') = .fin (n != n') 0 0 := by
  rw [mul_eq_zero, exactValue_eq_zero, exactValue_eq_zero, ← mul_eq_zero] at h
  rw [fltMul_fin, h, roundNearest_zero _ (Nat.two_pow_pos _)]

theorem fltDiv_zero_left {n n' : Bool} {e e' : Fin (k.expTop + 1)} {m m' : BitVec k.fracBits}
    (ha : exactValue (.fin n e m) = 0) (hb : exactValue (.fin n' e' m') ≠ 0) :
    fltDiv (.fin n e m) (.fin n' e' m') = .fin (n != n') 0 0 := by
  rw [exactValue_eq_zero] at ha
  rw [Ne, exactValue_eq_zero] at hb
  rw [fltDiv_fin _ _ _ _ _ hb, ha, Nat.zero_mul, roundNearest_zero _ (Nat.pos_of_ne_zero hb)]

theorem fltDiv_zero_right {n n' : Bool} {e e' : Fin (k.expTop + 1)} {m m' : BitVec k.fracBits}
    (hb : exactValue (.fin n' e' m') = 0) :
    fltDiv (.fin n e m) (.fin n' e' m') = if exactValue (.fin n e m) = 0 then .nan else .inf (n != n') := by
  rw [exactValue_eq_zero] at hb
  rw [fltDiv, if_pos hb]
  simp only [exactValue_eq_zero]

/-! ### Infinite operands -/

theorem fltMul_inf_left (n n' : Bool) (e : Fin (k.expTop + 1)) (m : BitVec k.fracBits) :
    fltMul (.inf n) (.fin n' e m) = if exactValue (.fin n' e m) = 0 then .nan else .inf (n != n') := by
  simp only [fltMul, exactValue_eq_zero]

theorem fltMul_inf_right (n n' : Bool) (e : Fin (k.expTop + 1)) (m : BitVec k.fracBits) :
    fltMul (.fin n' e m) (.inf n) = if exactValue (.fin n' e m) = 0 then .nan else .inf (n != n') := by
  simp only [fltMul, exactValue_eq_zero, bne_comm (a := n)]

theorem fltSub_inf (n n' : Bool) : fltSub (.inf n : Flt k) (.inf n') = if n = n' then .nan else .inf n := by
  cases n <;> cases n' <;> rfl

/-- Settles O51: each operation on finite values is `roundNearest` of the exact result, and the rest is the table of special
cases. -/
theorem arithmeticIsRoundedOnce : Obligations.ArithmeticIsRoundedOnce := by
  refine ⟨fun a b ha hb => ⟨fltAdd_roundsTo ha hb, fltSub_roundsTo ha hb, fltMul_roundsTo ha hb, fltDiv_roundsTo ha hb,
    fltLt_iff ha hb⟩, fun n n' e e' m m' => ?_, fun n n' => ?_, fun a => ?_⟩
  · refine ⟨fltAdd_exact_zero, fun h => ?_, fltMul_exact_zero, fltDiv_zero_left, fun ha hb => ?_, fun ha hb => ?_, rfl,
      rfl, rfl, rfl, rfl, fun h => ?_, fun h => ?_, rfl, ?_⟩
    · rw [sub_eq_add_neg, ← exactValue_fltNeg] at h
      exact fltAdd_exact_zero h
    · rw [fltDiv_zero_right hb, if_neg ha]
    · rw [fltDiv_zero_right hb, if_pos ha]
    · rw [fltMul_inf_left, fltMul_inf_right, if_pos h]
      exact ⟨rfl, rfl⟩
    · rw [fltMul_inf_left, fltMul_inf_right, if_neg h]
      exact ⟨rfl, rfl⟩
    · rw [bne_comm]
      rfl
  · exact ⟨rfl, fltSub_inf n n', rfl, rfl, rfl⟩
  · exact ⟨fltAdd_nan_left a, fltAdd_nan_right a, fltSub_nan_left a, fltSub_nan_right a, fltMul_nan_left a,
      fltMul_nan_right a, fltDiv_nan_left a, fltDiv_nan_right a, fltLt_nan_left a, fltLt_nan_right a⟩

end Sys2Proof.Machine
end

section
/-! SUPPORT. Proofs: what a rounding to nearest gives, its place among the values and its order (spec/00_scope.md R5), and the
sine and cosine of the default configuration as a number within 2^-287 of the exact one, rounded (R6). -/

namespace Sys2Proof.Machine

open Sys2Proof.Safety (exactValue RoundsTo)

/-! ### The nearest values to a rational number -/

/-- `r` is finite and as near to `q` as any finite value. -/
def NearestTo (q : ℚ) (r : F) : Prop :=
  fltFinite r = true ∧ ∀ v : F, fltFinite v = true → |q - exactValue r| ≤ |q - exactValue v|

/-- Short of the overflow, a rounding is finite with the sign of the number. -/
theorem roundsTo_fin {q : ℚ} {r : F} (h : RoundsTo q r) (hq : |q| < 2 ^ 128 - 2 ^ 103) :
    ∃ e m, r = .fin (decide (q < 0)) e m := by
  rw [RoundsTo, if_neg (not_le.2 hq)] at h
  obtain ⟨e, m, hr, -⟩ := h
  exact ⟨e, m, hr⟩

/-- From there on it is an infinity. -/
theorem roundsTo_inf {q : ℚ} {r : F} (h : RoundsTo q r) (hq : 2 ^ 128 - 2 ^ 103 ≤ |q|) : r = .inf (decide (q < 0)) := by
  rwa [RoundsTo, if_pos hq] at h

/-- Short of the overflow, a rounding is nearest. -/
theorem nearestTo_of_roundsTo {q : ℚ} {r : F} (h : RoundsTo q r) (hq : |q| < 2 ^ 128 - 2 ^ 103) : NearestTo q r := by
  rw [RoundsTo, if_neg (not_le.2 hq)] at h
  obtain ⟨e, m, hr, hnear⟩ := h
  exact ⟨by rw [hr]; rfl, fun v hv => (hnear v hv).1⟩

/-- A finite value is nearest to its own exact value. -/
theorem nearestTo_exactValue {r : F} (h : fltFinite r = true) : NearestTo (exactValue r) r :=
  ⟨h, fun v _ => by rw [sub_self, abs_zero]; exact abs_nonneg _⟩

/-- A value that is not above the number is not above its nearest value. -/
theorem NearestTo.ge {q : ℚ} {r v : F} (h : NearestTo q r) (hv : fltFinite v = true) (hle : exactValue v ≤ q) :
    exactValue v ≤ exactValue r := by
  by_contra hlt
  have hnear := h.2 v hv
  rw [abs_of_nonneg (by linarith), abs_of_nonneg (by linarith)] at hnear
  linarith

/-- A value that is not below the number is not below its nearest value. -/
theorem NearestTo.le {q : ℚ} {r v : F} (h : NearestTo q r) (hv : fltFinite v = true) (hle : q ≤ exactValue v) :
    exactValue r ≤ exactValue v := by
  by_contra hlt
  have hnear := h.2 v hv
  rw [abs_of_nonpos (by linarith), abs_of_nonpos (by linarith)] at hnear
  linarith

/-- The values are symmetric about zero. -/
theorem NearestTo.neg {q : ℚ} {r : F} (h : NearestTo q r) : NearestTo (-q) (fltNeg r) := by
  refine ⟨by rw [fltNeg_finite]; exact h.1, fun v hv => ?_⟩
  have hnear := h.2 (fltNeg v) (by rwa [fltNeg_finite])
  rw [exactValue_fltNeg] at hnear ⊢
  calc |-q - -exactValue r| = |q - exactValue r| := by rw [← abs_neg]; congr 1; ring
    _ ≤ |q - -exactValue v| := hnear
    _ = |-q - exactValue v| := by rw [← abs_neg]; congr 1; ring

/-- A greater number has no lower nearest value. -/
theorem NearestTo.mono {p q : ℚ} {r s : F} (hr : NearestTo p r) (hs : NearestTo q s) (h : p < q) :
    exactValue r ≤ exactValue s := by
  by_contra hlt
  have h1 := sq_le_sq.2 (hr.2 s hs.1)
  have h2 := sq_le_sq.2 (hs.2 r hr.1)
  have hpos : 0 < (exactValue r - exactValue s) * (q - p) := mul_pos (by linarith) (by linarith)
  nlinarith

/-- Rounding a greater number does not give a lower value, infinities included. -/
theorem roundsTo_mono {p q : ℚ} {r s : F} (hr : RoundsTo p r) (hs : RoundsTo q s) (h : p < q) : fltLt s r = false := by
  rcases lt_or_ge |p| (2 ^ 128 - 2 ^ 103) with hp | hp
  · rcases lt_or_ge |q| (2 ^ 128 - 2 ^ 103) with hq | hq
    · have hnr := nearestTo_of_roundsTo hr hp
      have hns := nearestTo_of_roundsTo hs hq
      exact (fltLt_eq_false_iff hns.1 hnr.1).2 (hnr.mono hns h)
    · have hq0 : ¬ q < 0 := fun hneg => by
        rw [abs_of_neg hneg] at hq
        linarith [neg_abs_le p]
      rw [roundsTo_inf hs hq, decide_eq_false hq0, fltLt_inf_left]
  · rw [roundsTo_inf hr hp]
    by_cases hp0 : p < 0
    · rw [decide_eq_true hp0, fltLt_inf_right]
    · have hq : 2 ^ 128 - 2 ^ 103 ≤ |q| := by
        rw [abs_of_nonneg (by linarith)] at hp ⊢
        linarith
      rw [roundsTo_inf hs hq, decide_eq_false (by linarith), fltLt_inf_left]

/-! ### An enclosure, rounded -/

/-- `z / 2^p` is rounded once by `roundScaled`. -/
theorem roundsTo_roundScaled (z : Int) (p : Nat) : RoundsTo ((z : ℚ) / 2 ^ p) (roundScaled z p) := by
  by_cases hz : z = 0
  · have h := roundsTo_roundNearest (neg := false) (num := 0) (den := 1) Nat.one_pos (.inr rfl)
    rw [roundNearest_zero _ Nat.one_pos, signedInt_zero, Int.cast_zero, zero_div] at h
    rwa [hz, Int.cast_zero, zero_div, roundScaled, if_pos rfl]
  · have h := roundsTo_roundNearest (neg := decide (z < 0)) (num := z.natAbs * 2 ^ 149) (den := 2 ^ p) (Nat.two_pow_pos p)
      (.inl (Nat.mul_ne_zero (by omega) (Nat.two_pow_pos _).ne'))
    rw [roundScaled, if_neg hz]
    convert h using 1
    rw [signedInt_mul_nat, signedInt_natAbs, Int.cast_mul, Int.cast_natCast, Nat.cast_pow, Nat.cast_pow, Nat.cast_ofNat,
      mul_div_mul_right _ _ (by positivity)]

/-- The value an enclosure names is one of its numbers, rounded. -/
theorem roundsTo_roundEnclosure (tie : Bool) {d : Enclosure} (h : d.lo ≤ d.hi) :
    ∃ z : Int, d.lo ≤ z ∧ z ≤ d.hi ∧ RoundsTo ((z : ℚ) / 2 ^ d.p) (roundEnclosure tie d) := by
  have hlo : d.lo ≤ d.lo ∧ d.lo ≤ d.hi ∧ RoundsTo ((d.lo : ℚ) / 2 ^ d.p) (roundScaled d.lo d.p) :=
    ⟨le_rfl, h, roundsTo_roundScaled _ _⟩
  have hhi : d.lo ≤ d.hi ∧ d.hi ≤ d.hi ∧ RoundsTo ((d.hi : ℚ) / 2 ^ d.p) (roundScaled d.hi d.p) :=
    ⟨h, le_rfl, roundsTo_roundScaled _ _⟩
  simp only [roundEnclosure]
  split
  · exact ⟨_, hlo⟩
  · split
    · exact ⟨_, hhi⟩
    · exact ⟨_, hlo⟩

/-- What it holds is in order. -/
theorem Encloses.lo_le_hi {d : Enclosure} {c : ℝ} (h : Encloses d c) : d.lo ≤ d.hi := by
  exact_mod_cast h.1.trans h.2

/-- Every number of an enclosure is within its width of the number it holds. -/
theorem Encloses.abs_sub_le {d : Enclosure} {c : ℝ} (h : Encloses d c) {z : Int} (h1 : d.lo ≤ z) (h2 : z ≤ d.hi) :
    |(z : ℝ) / 2 ^ d.p - c| ≤ (d.hi - d.lo) / 2 ^ d.p := by
  have hP : (0 : ℝ) < 2 ^ d.p := by positivity
  obtain ⟨hlo, hhi⟩ := h
  have h1' : (d.lo : ℝ) ≤ z := by exact_mod_cast h1
  have h2' : (z : ℝ) ≤ d.hi := by exact_mod_cast h2
  rw [show (z : ℝ) / 2 ^ d.p - c = (z - c * 2 ^ d.p) / 2 ^ d.p by field_simp, abs_div, abs_of_pos hP,
    div_le_div_iff_of_pos_right hP, abs_le]
  constructor <;> linarith

/-- The powers of one half fall. -/
theorem half_pow_le {m n : Nat} (h : m ≤ n) : (1 / 2 : ℝ) ^ n ≤ (1 / 2) ^ m :=
  pow_le_pow_of_le_one (by norm_num) (by norm_num) h

/-- Twice a power of one half is at most any earlier power. -/
theorem two_mul_half_pow_le (n j : Nat) : 2 * (1 / 2 : ℝ) ^ (n + j + 1) ≤ (1 / 2) ^ n := by
  rw [pow_succ', ← mul_assoc, mul_one_div_cancel (by norm_num), one_mul]
  exact half_pow_le (Nat.le_add_right n j)

/-! ### A number within 2^-287 of one in [-1, 1], rounded -/

/-- `r` is nearest to a number of [-1, 1] within 2^-287 of `c`. -/
def RoundsUnit (c : ℝ) (r : F) : Prop := ∃ q : ℚ, NearestTo q r ∧ |q| ≤ 1 ∧ |(q : ℝ) - c| ≤ (1 / 2) ^ 287

/-- The width of the enclosure about a computed sine or cosine. -/
theorem unitEnclosure_width (h : Nat) (a : Int) :
    (((unitEnclosure h a).hi : ℝ) - (unitEnclosure h a).lo) / 2 ^ (unitEnclosure h a).p ≤ (1 / 2) ^ 287 := by
  have hlo : a - 2 ^ (2 * h + 12) ≤ (unitEnclosure h a).lo := le_max_right _ _
  have hhi : (unitEnclosure h a).hi ≤ a + 2 ^ (2 * h + 12) := min_le_right _ _
  have hlo' : (a : ℝ) - 2 ^ (2 * h + 12) ≤ (unitEnclosure h a).lo := by exact_mod_cast hlo
  have hhi' : ((unitEnclosure h a).hi : ℝ) ≤ a + 2 ^ (2 * h + 12) := by exact_mod_cast hhi
  rw [show (unitEnclosure h a).p = 287 + (2 * h + 12) + 1 by simp only [unitEnclosure, anglePlaces]; omega,
    div_le_iff₀ (by positivity), add_assoc, pow_add 2 287, one_div, inv_pow, inv_mul_cancel_left₀ (by positivity), pow_succ]
  linarith

/-- A computed value near to one in [-1, 1], with its enclosure rounded. -/
theorem roundsUnit_unitEnclosure (tie : Bool) {h : Nat} {a : Int} {c : ℝ} (hc : Encloses (unitEnclosure h a) c) :
    RoundsUnit c (roundEnclosure tie (unitEnclosure h a)) := by
  obtain ⟨z, hlo, hhi, hround⟩ := roundsTo_roundEnclosure tie hc.lo_le_hi
  have hP : (0 : ℚ) < 2 ^ (unitEnclosure h a).p := by positivity
  have hz1 : -2 ^ (unitEnclosure h a).p ≤ z := (le_max_left _ _).trans hlo
  have hz2 : z ≤ 2 ^ (unitEnclosure h a).p := hhi.trans (min_le_left _ _)
  have hz : |(z : ℚ) / 2 ^ (unitEnclosure h a).p| ≤ 1 := by
    rw [abs_div, abs_of_pos hP, div_le_one hP]
    exact_mod_cast abs_le.2 ⟨hz1, hz2⟩
  refine ⟨_, nearestTo_of_roundsTo hround (hz.trans_lt (by norm_num)), hz, ?_⟩
  push_cast
  exact (hc.abs_sub_le hlo hhi).trans (unitEnclosure_width h a)

theorem RoundsUnit.neg {c : ℝ} {r : F} (h : RoundsUnit c r) : RoundsUnit (-c) (fltNeg r) := by
  obtain ⟨q, hnear, hq, hc⟩ := h
  refine ⟨-q, hnear.neg, by rwa [abs_neg], ?_⟩
  rw [Rat.cast_neg, ← abs_neg, show -(-(q : ℝ) - -c) = q - c by ring]
  exact hc

/-- A value in [-1, 1] is nearest to itself. -/
theorem roundsUnit_exactValue {r : F} (h : fltFinite r = true) (h1 : |exactValue r| ≤ 1) : RoundsUnit (exactValue r : ℚ) r :=
  ⟨_, nearestTo_exactValue h, h1, by rw [sub_self, abs_zero]; positivity⟩

/-- What is nearest to a number near `c` is nearest to `c`, up to twice the distance of the two. -/
theorem NearestTo.real {q : ℚ} {r v : F} {c w : ℝ} (h : NearestTo q r) (hw : |(q : ℝ) - c| ≤ w) (hv : fltFinite v = true) :
    |((exactValue r : ℚ) : ℝ) - c| ≤ |((exactValue v : ℚ) : ℝ) - c| + 2 * w := by
  have hnear : |(q : ℝ) - (exactValue r : ℚ)| ≤ |(q : ℝ) - (exactValue v : ℚ)| := by exact_mod_cast h.2 v hv
  generalize ((exactValue r : ℚ) : ℝ) = x at *
  generalize ((exactValue v : ℚ) : ℝ) = y at *
  calc |x - c| ≤ |x - q| + |q - c| := abs_sub_le _ _ _
    _ ≤ |q - y| + w := by rw [abs_sub_comm x]; linarith
    _ ≤ |q - c| + |c - y| + w := by linarith [abs_sub_le (q : ℝ) c y]
    _ ≤ |y - c| + 2 * w := by rw [abs_sub_comm c]; linarith

/-! ### Sine and cosine -/

/-- A finite value's number of units is below 2^277. -/
theorem magnitude_lt_binary32 (e : Fin (binary32.expTop + 1)) (m : BitVec binary32.fracBits) : magnitude e m < 2 ^ 277 :=
  (magnitude_lt e m).trans_eq (congrArg (2 ^ ·) (rfl : binary32.expTop + binary32.fracBits = 277))

@[simp] theorem exactValue_one : exactValue (f32 0x3F800000) = 1 := by decide +kernel

@[simp] theorem exactValue_negOne : exactValue (f32 0xBF800000) = -1 := by decide +kernel

/-- The exact value of a finite value, as the statements about real numbers write it. -/
theorem cast_exactValue (neg : Bool) (e : Fin (binary32.expTop + 1)) (m : BitVec binary32.fracBits) :
    ((exactValue (.fin neg e m : F) : ℚ) : ℝ) = (signedInt neg (magnitude e m) : ℝ) / 2 ^ 149 := by
  rw [exactValue_binary32]
  push_cast
  rfl

theorem cos_signedInt (neg : Bool) (n : Nat) : Real.cos ((signedInt neg n : ℝ) / 2 ^ 149) = Real.cos ((n : ℝ) / 2 ^ 149) := by
  cases neg
  · simp [signedInt]
  · simp [signedInt, neg_div]

theorem sin_signedInt (neg : Bool) (n : Nat) : Real.sin ((signedInt neg n : ℝ) / 2 ^ 149) =
    if neg then -Real.sin ((n : ℝ) / 2 ^ 149) else Real.sin ((n : ℝ) / 2 ^ 149) := by
  cases neg
  · simp [signedInt]
  · simp [signedInt, neg_div]

/-- The cosine answered is nearest to a number close to the exact cosine, whatever the free choice. -/
theorem roundsUnit_fltCos (tie neg : Bool) (e : Fin (binary32.expTop + 1)) (m : BitVec binary32.fracBits) :
    RoundsUnit (Real.cos ((signedInt neg (magnitude e m) : ℝ) / 2 ^ 149)) (fltCos tie (.fin neg e m)) := by
  have hn := magnitude_lt_binary32 e m
  rw [cos_signedInt]
  simp only [fltCos]
  split
  · rename_i h0
    have h := roundsUnit_exactValue (r := f32 0x3F800000) (by decide) (by rw [exactValue_one, abs_one])
    rw [exactValue_one, Rat.cast_one] at h
    rwa [h0, Nat.cast_zero, zero_div, Real.cos_zero, show pack false (127 * 2 ^ 23) = f32 0x3F800000 by decide]
  · exact roundsUnit_unitEnclosure tie (cos_enclosed hn)

/-- The sine answered is nearest to a number close to the exact sine, whatever the free choice. -/
theorem roundsUnit_fltSin (tie neg : Bool) (e : Fin (binary32.expTop + 1)) (m : BitVec binary32.fracBits) :
    RoundsUnit (Real.sin ((signedInt neg (magnitude e m) : ℝ) / 2 ^ 149)) (fltSin tie (.fin neg e m)) := by
  have hn := magnitude_lt_binary32 e m
  simp only [fltSin]
  split
  · rename_i h0
    have h := roundsUnit_exactValue (r := zeroOf neg) rfl (by simp)
    rw [exactValue_zeroOf, Rat.cast_zero] at h
    rwa [h0, signedInt_zero, Int.cast_zero, zero_div, Real.sin_zero]
  · have h := roundsUnit_unitEnclosure tie (sin_enclosed hn)
    rw [sin_signedInt]
    cases neg
    · simpa only [signedF, Bool.false_eq_true, if_false] using h
    · simpa only [signedF, if_true] using h.neg

/-- Nearest to the number it is near to, as O55 and O56 write it. -/
theorem RoundsUnit.nearest {c : ℝ} {r : F} (h : RoundsUnit c r) :
    ∃ neg' e' m', r = .fin neg' e' m' ∧
      ∀ neg'' (e'' : Fin (binary32.expTop + 1)) (m'' : BitVec binary32.fracBits),
        |(signedInt neg' (magnitude e' m') : ℝ) / 2 ^ 149 - c| ≤
          |(signedInt neg'' (magnitude e'' m'') : ℝ) / 2 ^ 149 - c| + (1 / 2) ^ 280 := by
  obtain ⟨q, hnear, -, hc⟩ := h
  obtain ⟨neg', e', m', rfl⟩ := fltFinite_iff.1 hnear.1
  refine ⟨neg', e', m', rfl, fun neg'' e'' m'' => ?_⟩
  have h := hnear.real hc (v := .fin neg'' e'' m'') rfl
  rw [cast_exactValue, cast_exactValue] at h
  exact h.trans (add_le_add_right (two_mul_half_pow_le 280 6) _)

/-- A rounded number of [-1, 1] is no NaN and in [-1, 1]. -/
theorem RoundsUnit.bounded {c : ℝ} {r : F} (h : RoundsUnit c r) :
    r ≠ .nan ∧ fltLt r (f32 0xBF800000) = false ∧ fltLt (f32 0x3F800000) r = false := by
  obtain ⟨q, hnear, hq, -⟩ := h
  obtain ⟨hq1, hq2⟩ := abs_le.1 hq
  have hpos : fltFinite (f32 0x3F800000) = true := by decide
  have hneg : fltFinite (f32 0xBF800000) = true := by decide
  refine ⟨fun e => absurd hnear.1 (by simp [e]), ?_, ?_⟩
  · exact (fltLt_eq_false_iff hnear.1 hneg).2 (hnear.ge hneg (by rwa [exactValue_negOne]))
  · exact (fltLt_eq_false_iff hpos hnear.1).2 (hnear.le hpos (by rwa [exactValue_one]))

/-- Settles O55: the rounded number is within 2^-287 of the cosine, so its nearest value is the cosine's up to twice that. -/
theorem cosineIsNearest : Obligations.CosineIsNearest :=
  fun neg e m => (roundsUnit_fltCos _ neg e m).nearest

/-- Settles O56: the rounded number is within 2^-287 of the sine, so its nearest value is the sine's up to twice that. -/
theorem sineIsNearest : Obligations.SineIsNearest :=
  fun neg e m => (roundsUnit_fltSin _ neg e m).nearest

/-- Settles O52: sine and cosine are rounded numbers of [-1, 1]; two to the power +0 is a whole power. -/
theorem sineCosineBounded : Obligations.SineCosineBounded := by
  refine ⟨fun neg e m r hr => ?_, ?_⟩
  · rcases List.mem_pair.1 hr with rfl | rfl
    · exact (roundsUnit_fltSin _ neg e m).bounded
    · exact (roundsUnit_fltCos _ neg e m).bounded
  · decide +kernel

end Sys2Proof.Machine
end

section
/-! SUPPORT. Proofs: two to the power as a number within 2^-308 of the exact power, rounded (spec/00_scope.md R6), its overflow
and its monotonicity. -/

namespace Sys2Proof.Machine

open Sys2Proof.Safety (exactValue RoundsTo)

/-! ### The exponent `n · 2^-149` and its power -/

/-- The exact power of two of the exponent `n` units. -/
noncomputable def exactPower (n : Int) : ℝ := 2 ^ ((n : ℝ) / 2 ^ 149)

theorem exactPower_pos (n : Int) : 0 < exactPower n := Real.rpow_pos_of_pos (by norm_num) _

/-- The power by the exponent's whole part and the rest. -/
theorem exactPower_split (n : Int) :
    exactPower n = 2 ^ (n / 2 ^ 149) * 2 ^ (((n % 2 ^ 149).toNat : ℝ) / 2 ^ 149) := by
  have hmod : 0 ≤ n % 2 ^ 149 := Int.emod_nonneg _ (by norm_num)
  have hn : (n : ℝ) = ((n / 2 ^ 149 : Int) : ℝ) * 2 ^ 149 + ((n % 2 ^ 149).toNat : ℝ) := by
    have h : (n / 2 ^ 149) * 2 ^ 149 + ((n % 2 ^ 149).toNat : Int) = n := by
      rw [Int.toNat_of_nonneg hmod]
      exact Int.ediv_mul_add_emod n _
    exact_mod_cast h.symm
  have hx : (n : ℝ) / 2 ^ 149 = ((n / 2 ^ 149 : Int) : ℝ) + ((n % 2 ^ 149).toNat : ℝ) / 2 ^ 149 := by
    rw [hn, add_div, mul_div_cancel_right₀ _ (by positivity)]
  rw [exactPower, hx, Real.rpow_add (by norm_num), Real.rpow_intCast]

/-- The rest of the exponent, below one. -/
theorem restPower_bounds (n : Int) :
    (n % 2 ^ 149).toNat < 2 ^ 149 ∧ (1 : ℝ) ≤ 2 ^ (((n % 2 ^ 149).toNat : ℝ) / 2 ^ 149) := by
  have hlt : n % 2 ^ 149 < 2 ^ 149 := Int.emod_lt_of_pos _ (by norm_num)
  exact ⟨by omega, Real.one_le_rpow (by norm_num) (by positivity)⟩

/-- A real exponent adds its logarithm's share at least. -/
theorem one_add_half_le_rpow {d : ℝ} (hd : 0 ≤ d) : 1 + d / 2 ≤ (2 : ℝ) ^ d := by
  have hlog : (1 : ℝ) / 2 ≤ Real.log 2 := by linarith [Real.log_two_gt_d9]
  rw [Real.rpow_def_of_pos (by norm_num)]
  have := Real.add_one_le_exp (Real.log 2 * d)
  nlinarith

/-- A larger exponent has a power larger by half the difference at least. -/
theorem exactPower_mul_le {n n' : Int} (h : n ≤ n') :
    exactPower n * (1 + ((n' - n : Int) : ℝ) / 2 ^ 149 / 2) ≤ exactPower n' := by
  have hd : (0 : ℝ) ≤ ((n' - n : Int) : ℝ) / 2 ^ 149 := div_nonneg (by exact_mod_cast (by omega : 0 ≤ n' - n)) (by positivity)
  have hsum : exactPower n' = exactPower n * 2 ^ (((n' - n : Int) : ℝ) / 2 ^ 149) := by
    rw [exactPower, exactPower, ← Real.rpow_add (by norm_num)]
    congr 1
    push_cast
    ring
  rw [hsum]
  exact mul_le_mul_of_nonneg_left (one_add_half_le_rpow hd) (exactPower_pos n).le

/-! ### Scaled enclosures -/

/-- A whole power of two by its positive and its negative part. -/
theorem zpow_mul_toNat (k : Int) : (2 : ℝ) ^ k * 2 ^ (-k).toNat = 2 ^ k.toNat := by
  rw [← zpow_natCast, ← zpow_natCast, ← zpow_add₀ (by norm_num)]
  congr 1
  omega

/-- A scaled enclosure holds the scaled number. -/
theorem Encloses.scale {d : Enclosure} {c : ℝ} (h : Encloses d c) (k : Int) :
    Encloses (scaleEnclosure k d) (2 ^ k * c) := by
  obtain ⟨hlo, hhi⟩ := h
  have hP : (0 : ℝ) < 2 ^ k.toNat := by positivity
  have hc : (2 : ℝ) ^ k * c * 2 ^ (d.p + (-k).toNat) = c * 2 ^ d.p * 2 ^ k.toNat := by
    rw [← zpow_mul_toNat k, pow_add]
    ring
  simp only [Encloses, scaleEnclosure]
  rw [hc]
  push_cast
  exact ⟨mul_le_mul_of_nonneg_right hlo hP.le, mul_le_mul_of_nonneg_right hhi hP.le⟩

/-- Scaling scales the width. -/
theorem scaleEnclosure_width (d : Enclosure) (k : Int) :
    (((scaleEnclosure k d).hi : ℝ) - (scaleEnclosure k d).lo) / 2 ^ (scaleEnclosure k d).p =
      2 ^ k * (((d.hi : ℝ) - d.lo) / 2 ^ d.p) := by
  simp only [scaleEnclosure]
  push_cast
  rw [← zpow_mul_toNat k, pow_add]
  field_simp

/-- The width of the enclosure of a power between 1 and 2. -/
theorem exp2Frac_width (fr : Nat) :
    (((exp2Frac fr).hi : ℝ) - (exp2Frac fr).lo) / 2 ^ (exp2Frac fr).p = (1 / 2) ^ 308 := by
  simp only [exp2Frac, show exp2Places = 12 + 308 from rfl]
  rw [Int.cast_add, add_sub_cancel_left, Int.cast_pow, Int.cast_ofNat, pow_add, one_div, inv_pow,
    div_mul_cancel_left₀ (by positivity)]

theorem exp2Frac_lo_nonneg (fr : Nat) : 0 ≤ (exp2Frac fr).lo := Int.natCast_nonneg _

/-! ### Two to the power, case by case -/

theorem exp2Int_underflow (tie : Bool) {n : Int} (h : n / 2 ^ 149 < -150) : exp2Int tie n = zeroOf false := by
  simp only [exp2Int]
  rw [if_pos h]

theorem exp2Int_overflow (tie : Bool) {n : Int} (h : 128 ≤ n / 2 ^ 149) : exp2Int tie n = .inf false := by
  simp only [exp2Int]
  rw [if_neg (by omega), if_pos h]

theorem exp2Int_whole (tie : Bool) {n : Int} (h1 : -150 ≤ n / 2 ^ 149) (h2 : n / 2 ^ 149 < 128)
    (h0 : (n % 2 ^ 149).toNat = 0) : exp2Int tie n = roundNearest false (2 ^ (n / 2 ^ 149 + 150).toNat) 2 := by
  simp only [exp2Int]
  rw [if_neg (by omega), if_neg (by omega), if_pos h0]

theorem exp2Int_enclosed (tie : Bool) {n : Int} (h1 : -150 ≤ n / 2 ^ 149) (h2 : n / 2 ^ 149 < 128)
    (h0 : (n % 2 ^ 149).toNat ≠ 0) :
    exp2Int tie n = roundEnclosure tie (scaleEnclosure (n / 2 ^ 149) (exp2Frac (n % 2 ^ 149).toNat)) := by
  simp only [exp2Int]
  rw [if_neg (by omega), if_neg (by omega), if_neg h0]

/-- Between the underflow and the overflow, the answer is a rounded number within 2^-308 of the exact power, relatively. -/
theorem exp2Int_near (tie : Bool) {n : Int} (h1 : -150 ≤ n / 2 ^ 149) (h2 : n / 2 ^ 149 < 128) :
    ∃ q : ℚ, RoundsTo q (exp2Int tie n) ∧ 0 ≤ q ∧ |(q : ℝ) - exactPower n| ≤ exactPower n * (1 / 2) ^ 308 := by
  obtain ⟨hfr, hrest⟩ := restPower_bounds n
  have hsplit := exactPower_split n
  by_cases h0 : (n % 2 ^ 149).toNat = 0
  · -- a whole exponent: the exact power itself
    have hround := roundsTo_roundNearest (neg := false) (num := 2 ^ (n / 2 ^ 149 + 150).toNat) (den := 2) Nat.two_pos (.inr rfl)
    have hq : (((signedInt false (2 ^ (n / 2 ^ 149 + 150).toNat) : ℚ) / ((2 : ℕ) * 2 ^ 149) : ℚ) : ℝ) = exactPower n := by
      rw [hsplit, h0, Nat.cast_zero, zero_div, Real.rpow_zero, mul_one]
      simp only [signedInt, Bool.false_eq_true, if_false]
      push_cast
      rw [← pow_succ', div_eq_iff (by positivity), ← zpow_natCast, ← zpow_natCast, ← zpow_add₀ (by norm_num)]
      congr 1
      omega
    rw [exp2Int_whole tie h1 h2 h0]
    refine ⟨_, hround, (Rat.cast_nonneg (K := ℝ)).1 (by rw [hq]; exact (exactPower_pos n).le), ?_⟩
    rw [hq, sub_self, abs_zero]
    exact mul_nonneg (exactPower_pos n).le (by positivity)
  · have henc := (exp2Frac_encloses hfr).scale (n / 2 ^ 149)
    rw [← hsplit] at henc
    obtain ⟨z, hlo, hhi, hround⟩ := roundsTo_roundEnclosure tie henc.lo_le_hi
    have hz : 0 ≤ z := (mul_nonneg (exp2Frac_lo_nonneg _) (by positivity)).trans hlo
    rw [exp2Int_enclosed tie h1 h2 h0]
    refine ⟨_, hround, by positivity, ?_⟩
    have hwidth := henc.abs_sub_le hlo hhi
    rw [scaleEnclosure_width, exp2Frac_width] at hwidth
    push_cast
    refine hwidth.trans (mul_le_mul_of_nonneg_right ?_ (by positivity))
    rw [hsplit]
    exact le_mul_of_one_le_right (by positivity) hrest

/-! ### Monotonicity -/

/-- A non-negative number's rounding is not below zero. -/
theorem roundsTo_nonneg {q : ℚ} {r : F} (h : RoundsTo q r) (hq : 0 ≤ q) : fltLt r (zeroOf false) = false := by
  have hsign : decide (q < 0) = false := decide_eq_false (not_lt.2 hq)
  rcases lt_or_ge |q| (2 ^ 128 - 2 ^ 103) with hlt | hge
  · have hnear := nearestTo_of_roundsTo h hlt
    exact (fltLt_eq_false_iff hnear.1 rfl).2 (hnear.ge rfl (by rwa [exactValue_zeroOf]))
  · rw [roundsTo_inf h hge, hsign, fltLt_inf_left]

/-- Two to the power is never below zero. -/
theorem exp2Int_nonneg (tie : Bool) (n : Int) : fltLt (exp2Int tie n) (zeroOf false) = false := by
  rcases lt_or_ge (n / 2 ^ 149) (-150) with h1 | h1
  · rw [exp2Int_underflow tie h1]
    rfl
  · rcases lt_or_ge (n / 2 ^ 149) 128 with h2 | h2
    · obtain ⟨q, hround, hq, -⟩ := exp2Int_near tie h1 h2
      exact roundsTo_nonneg hround hq
    · rw [exp2Int_overflow tie h2, fltLt_inf_left]

/-- One unit more in the exponent moves the power by far more than the enclosures are wide. -/
theorem exactPower_gap {n n' : Int} (h : n < n') :
    exactPower n * (1 + (1 / 2) ^ 308) < exactPower n' * (1 - (1 / 2) ^ 308) := by
  have hpos := exactPower_pos n
  have hle := exactPower_mul_le h.le
  have hone : (1 : ℝ) ≤ ((n' - n : Int) : ℝ) := by exact_mod_cast (by omega : 1 ≤ n' - n)
  have hstep : exactPower n * (1 + 1 / 2 ^ 149 / 2) ≤ exactPower n' := by
    refine le_trans (mul_le_mul_of_nonneg_left ?_ hpos.le) hle
    gcongr
  have hw : ((1 : ℝ) / 2) ^ 308 ≤ (1 / 2) ^ 160 := half_pow_le (by norm_num : 160 ≤ 308)
  have hw0 : (0 : ℝ) < (1 / 2) ^ 308 := by positivity
  generalize ((1 : ℝ) / 2) ^ 308 = w at *
  have hw1 : w < 1 := hw.trans_lt (by norm_num)
  calc exactPower n * (1 + w) < exactPower n * ((1 + 1 / 2 ^ 149 / 2) * (1 - w)) := by
        refine mul_lt_mul_of_pos_left ?_ hpos
        norm_num at hw ⊢
        linarith
    _ = exactPower n * (1 + 1 / 2 ^ 149 / 2) * (1 - w) := by ring
    _ ≤ exactPower n' * (1 - w) := mul_le_mul_of_nonneg_right hstep (by linarith)

/-- A larger exponent has no lower answer, whatever the two free choices. -/
theorem exp2Int_mono (tie tie' : Bool) {n n' : Int} (h : n < n') : fltLt (exp2Int tie' n') (exp2Int tie n) = false := by
  have hk : n / 2 ^ 149 ≤ n' / 2 ^ 149 := Int.ediv_le_ediv (by norm_num) h.le
  rcases lt_or_ge (n / 2 ^ 149) (-150) with h1 | h1
  · rw [exp2Int_underflow tie h1]
    exact exp2Int_nonneg tie' n'
  · rcases lt_or_ge (n' / 2 ^ 149) 128 with h2 | h2
    · obtain ⟨q, hround, -, hq⟩ := exp2Int_near tie h1 (by omega)
      obtain ⟨q', hround', -, hq'⟩ := exp2Int_near tie' (n := n') (by omega) h2
      refine roundsTo_mono hround hround' ?_
      have hgap := exactPower_gap h
      generalize ((1 : ℝ) / 2) ^ 308 = w at *
      have hreal : (q : ℝ) < q' := by linarith [(abs_le.1 hq).2, (abs_le.1 hq').1]
      exact_mod_cast hreal
    · rw [exp2Int_overflow tie' h2, fltLt_inf_left]

/-- The default configuration's power, with its free choice. -/
theorem cfg_fexp2_fin (neg : Bool) (e : Fin (binary32.expTop + 1)) (m : BitVec binary32.fracBits) :
    cfg.num.fexp2 (.fin neg e m) = exp2Int (Config.freeTie .exp2 (.fin neg e m)) (signedInt neg (magnitude e m)) := rfl

/-- Two to the power of anything is not below zero. -/
theorem fltExp2_nonneg (tie : Bool) (x : F) : fltLt (fltExp2 tie x) (zeroOf false) = false := by
  cases x with
  | nan => rfl
  | inf neg =>
    cases neg
    · exact fltLt_inf_left _
    · rfl
  | fin neg e m => exact exp2Int_nonneg tie _

/-- Settles O54: a finite operand's exponent counts in whole units, and one unit more is more than the enclosures can blur;
the infinities are at the ends of the order. -/
theorem exp2IsMonotone : Obligations.Exp2IsMonotone := by
  intro x y hxy
  change fltLt (fltExp2 _ y) (fltExp2 _ x) = false
  cases x with
  | nan => simp at hxy
  | inf neg =>
    cases neg
    · simp at hxy
    · exact fltExp2_nonneg _ y
  | fin neg e m =>
    cases y with
    | nan => simp at hxy
    | inf neg' =>
      cases neg'
      · exact fltLt_inf_left _
      · simp at hxy
    | fin neg' e' m' =>
      rw [fltLt_rank rfl rfl, decide_eq_true_eq] at hxy
      exact exp2Int_mono _ _ hxy

/-! ### Nearest -/

/-- The greatest value below 128 is 2^-17 below it: the last pattern of its binade. -/
theorem exponent_le_of_lt {neg : Bool} {e : Fin (binary32.expTop + 1)} {m : BitVec binary32.fracBits}
    (h : signedInt neg (magnitude e m) < 128 * 2 ^ 149) : signedInt neg (magnitude e m) ≤ 128 * 2 ^ 149 - 2 ^ 132 := by
  cases neg
  · have hmono := patValue_strictMono 23
    have h1 : patValue 23 (132 * 2 ^ 23 + (2 * 2 ^ 23 - 1)) = (2 * 2 ^ 23 - 1) * 2 ^ 132 :=
      patValue_binade (.inr (by norm_num)) (by norm_num)
    have h2 : patValue 23 (132 * 2 ^ 23 + 2 * 2 ^ 23) = 2 * 2 ^ 23 * 2 ^ 132 :=
      patValue_binade (.inr (by norm_num)) (by norm_num)
    have hmag : magnitude e m = patValue 23 (patOf e m) := magnitude_eq e m
    simp only [signedInt, Bool.false_eq_true, if_false, hmag] at h ⊢
    have hlt : patOf e m < 132 * 2 ^ 23 + 2 * 2 ^ 23 := hmono.lt_iff_lt.1 (by rw [h2]; omega)
    have hle := hmono.monotone (show patOf e m ≤ 132 * 2 ^ 23 + (2 * 2 ^ 23 - 1) by omega)
    rw [h1] at hle
    omega
  · simp only [signedInt, if_true]
    omega

/-- An exponent 2^-17 below 128 has a power below the overflow, with room for the enclosure. -/
theorem near_power_lt {n : Int} {q : ℚ} (hn : n ≤ 128 * 2 ^ 149 - 2 ^ 132)
    (hq : |(q : ℝ) - exactPower n| ≤ exactPower n * (1 / 2) ^ 308) : q < 2 ^ 128 - 2 ^ 103 := by
  have htop : exactPower (128 * 2 ^ 149) = 2 ^ 128 := by
    rw [exactPower, Int.cast_mul, Int.cast_pow, Int.cast_ofNat, Int.cast_ofNat, mul_div_cancel_right₀ _ (by positivity)]
    exact_mod_cast Real.rpow_natCast 2 128
  have hpos := exactPower_pos n
  have hgap : (2 : ℝ) ^ 132 ≤ ((128 * 2 ^ 149 - n : Int) : ℝ) := by exact_mod_cast (by omega : 2 ^ 132 ≤ 128 * 2 ^ 149 - n)
  have hle := exactPower_mul_le (n' := 128 * 2 ^ 149) (n := n) (by omega)
  rw [htop] at hle
  have hstep : exactPower n * (1 + 1 / 2 ^ 18) ≤ 2 ^ 128 := by
    refine le_trans (mul_le_mul_of_nonneg_left ?_ hpos.le) hle
    have : (2 : ℝ) ^ 132 / 2 ^ 149 / 2 ≤ ((128 * 2 ^ 149 - n : Int) : ℝ) / 2 ^ 149 / 2 := by gcongr
    norm_num at this ⊢
    linarith
  have hw : ((1 : ℝ) / 2) ^ 308 ≤ (1 / 2) ^ 40 := half_pow_le (by norm_num)
  have hreal : (q : ℝ) < 2 ^ 128 - 2 ^ 103 := by
    have := (abs_le.1 hq).2
    generalize ((1 : ℝ) / 2) ^ 308 = w at *
    norm_num at *
    nlinarith
  exact_mod_cast hreal

/-- Below the least whole exponent the power is less than half the least subnormal. -/
theorem exactPower_lt_of_underflow {n : Int} (h : n / 2 ^ 149 < -150) : exactPower n < 1 / 2 ^ 149 / 2 := by
  have hn : n < -150 * 2 ^ 149 := by omega
  have hx : (n : ℝ) / 2 ^ 149 < ((-150 : Int) : ℝ) := by
    rw [div_lt_iff₀ (by positivity)]
    exact_mod_cast hn
  calc exactPower n < 2 ^ ((-150 : Int) : ℝ) := Real.rpow_lt_rpow_of_exponent_lt (by norm_num) hx
    _ = 1 / 2 ^ 149 / 2 := by rw [Real.rpow_intCast]; norm_num

/-- Zero is the nearest number of units to a power that small. -/
theorem zero_nearest {P : ℝ} (h0 : 0 < P) (h : P < 1 / 2 ^ 149 / 2) (z : Int) : P ≤ |(z : ℝ) / 2 ^ 149 - P| := by
  rcases le_or_gt z 0 with hz | hz
  · have : (z : ℝ) / 2 ^ 149 ≤ 0 := div_nonpos_of_nonpos_of_nonneg (by exact_mod_cast hz) (by positivity)
    rw [abs_of_nonpos (by linarith)]
    linarith
  · have : (1 : ℝ) / 2 ^ 149 ≤ (z : ℝ) / 2 ^ 149 := div_le_div_of_nonneg_right (by exact_mod_cast hz) (by positivity)
    exact le_trans (by linarith) (le_abs_self _)

/-- Settles O57: from 128 on the overflow's case; below it a rounded number near the power that cannot overflow, or zero for a
power under half the least subnormal. -/
theorem exp2IsNearest : Obligations.Exp2IsNearest := by
  intro neg e m
  have hexp := exponent_le_of_lt (neg := neg) (e := e) (m := m)
  rw [cfg_fexp2_fin, ← exactPower]
  generalize signedInt neg (magnitude e m) = n at *
  refine ⟨fun h => exp2Int_overflow _ (by omega), fun h => ?_⟩
  have hpos := exactPower_pos n
  rcases lt_or_ge (n / 2 ^ 149) (-150) with h1 | h1
  · refine ⟨0, 0, exp2Int_underflow _ h1, fun neg'' e'' m'' => ?_⟩
    have hzero := zero_nearest hpos (exactPower_lt_of_underflow h1) (signedInt neg'' (magnitude e'' m''))
    rw [magnitude_zero, Nat.cast_zero, zero_div, zero_sub, abs_neg, abs_of_pos hpos]
    exact hzero.trans (le_add_of_nonneg_right (mul_nonneg hpos.le (by positivity)))
  · obtain ⟨q, hround, hq, hnear⟩ := exp2Int_near (Config.freeTie .exp2 (.fin neg e m)) h1 (by omega)
    have hlt : |q| < 2 ^ 128 - 2 ^ 103 := by
      rw [abs_of_nonneg hq]
      exact near_power_lt (hexp h) hnear
    obtain ⟨e', m', hr⟩ := roundsTo_fin hround hlt
    rw [decide_eq_false (not_lt.2 hq)] at hr
    have hnearest := nearestTo_of_roundsTo hround hlt
    rw [hr] at hnearest ⊢
    refine ⟨e', m', rfl, fun neg'' e'' m'' => ?_⟩
    have h := hnearest.real hnear (v := .fin neg'' e'' m'') rfl
    rw [cast_exactValue, cast_exactValue] at h
    have hslack : 2 * (exactPower n * (1 / 2) ^ 308) ≤ exactPower n * (1 / 2) ^ 300 := by
      rw [mul_left_comm]
      exact mul_le_mul_of_nonneg_left (two_mul_half_pow_le 300 7) hpos.le
    exact h.trans (add_le_add_right hslack _)

end Sys2Proof.Machine
end

section
/-! SUPPORT. Proofs: the angle of a design with an admitted effective cutoff lies well inside the half turn, so that its rounded
sine and cosine do too (spec/00_scope.md R6 P2; spec/42_coefficient_design.md R80). -/

namespace Sys2Proof.Machine

open Sys2Proof.Safety (exactValue RoundsTo within)

/-! ### Values between two values -/

/-- A rounded number between two values is finite and between them. -/
theorem roundsTo_between {q : ℚ} {r a b : F} (h : RoundsTo q r) (ha : fltFinite a = true) (hb : fltFinite b = true)
    (hq : |q| < 2 ^ 128 - 2 ^ 103) (h1 : exactValue a ≤ q) (h2 : q ≤ exactValue b) :
    fltFinite r = true ∧ exactValue a ≤ exactValue r ∧ exactValue r ≤ exactValue b := by
  have hnear := nearestTo_of_roundsTo h hq
  exact ⟨hnear.1, hnear.ge ha h1, hnear.le hb h2⟩

/-- What is no NaN and not outside the cutoff's clamp is a finite value from 5 to 20000. -/
theorem cutoff_bounds {fc : F} (hnan : fc ≠ .nan) (h : within (f32 0x40A00000) (f32 0x469C4000) fc = true) :
    fltFinite fc = true ∧ 5 ≤ exactValue fc ∧ exactValue fc ≤ 20000 := by
  simp only [within, Bool.and_eq_true, Bool.not_eq_true'] at h
  obtain ⟨hlo, hhi⟩ := h
  cases fc with
  | nan => exact absurd rfl hnan
  | inf neg =>
    cases neg
    · exact absurd hhi (by decide +kernel)
    · exact absurd hlo (by decide +kernel)
  | fin neg e m =>
    have h5 : exactValue (f32 0x40A00000) = 5 := by decide +kernel
    have h20000 : exactValue (f32 0x469C4000) = 20000 := by decide +kernel
    rw [fltLt_eq_false_iff rfl (by decide), h5] at hlo
    rw [fltLt_eq_false_iff (by decide) rfl, h20000] at hhi
    exact ⟨rfl, hlo, hhi⟩

/-! ### The angle -/

/-- The angle of a design at the default sample rate (R80). -/
def designAngle (fc : F) : F := fltDiv (fltMul (f32 0x40C90FDB) fc) (f32 0x472C4400)

/-- The rounded product and quotient leave the angle between 5 · 2^-13 and 23/8, which is less than π. -/
theorem designAngle_bounds {fc : F} (hfc : fltFinite fc = true) (h1 : 5 ≤ exactValue fc) (h2 : exactValue fc ≤ 20000) :
    fltFinite (designAngle fc) = true ∧ 5 / 2 ^ 13 ≤ exactValue (designAngle fc) ∧ exactValue (designAngle fc) ≤ 23 / 8 := by
  have hpi : exactValue (f32 0x40C90FDB) = 13176795 / 2 ^ 21 := by decide +kernel
  have hfs : exactValue (f32 0x472C4400) = 44100 := by decide +kernel
  -- 2π · fc, between 31 and 125700
  have h31 : exactValue (f32 0x41F80000) = 31 := by decide +kernel
  have h125700 : exactValue (f32 0x47F58200) = 125700 := by decide +kernel
  have hmul := fltMul_roundsTo (a := f32 0x40C90FDB) (by decide) hfc (by rw [hpi]; positivity)
  rw [hpi] at hmul
  obtain ⟨hp, hp1, hp2⟩ := roundsTo_between (a := f32 0x41F80000) (b := f32 0x47F58200) hmul (by decide) (by decide)
    (by rw [abs_of_pos (by positivity)]; linarith) (by rw [h31]; linarith) (by rw [h125700]; linarith)
  rw [h31] at hp1
  rw [h125700] at hp2
  -- the quotient by the sample rate
  have hlo : exactValue (f32 0x3A200000) = 5 / 2 ^ 13 := by decide +kernel
  have hhi : exactValue (f32 0x40380000) = 23 / 8 := by decide +kernel
  have hdiv := fltDiv_roundsTo (b := f32 0x472C4400) hp (by decide) (by positivity) (by rw [hfs]; norm_num)
  rw [hfs] at hdiv
  have hw := roundsTo_between (a := f32 0x3A200000) (b := f32 0x40380000) hdiv (by decide) (by decide)
    (by rw [abs_of_pos (by positivity)]; linarith) (by rw [hlo]; linarith) (by rw [hhi]; linarith)
  rwa [hlo, hhi] at hw

/-! ### Sine and cosine inside the half turn -/

/-- The sine is at least 2^-12 on the design's angles. -/
theorem sin_ge_of_angle {x : ℝ} (h1 : 5 / 2 ^ 13 ≤ x) (h2 : x ≤ 23 / 8) : 1 / 2 ^ 12 ≤ Real.sin x := by
  have hpi1 := Real.pi_gt_d2
  have hpi2 := Real.pi_lt_d2
  have hslope : (1 : ℝ) / 2 ≤ 2 / Real.pi := by
    rw [div_le_div_iff₀ (by norm_num) Real.pi_pos]
    linarith
  rcases le_or_gt x (Real.pi / 2) with hx | hx
  · have hsin := Real.mul_le_sin (by linarith) hx
    nlinarith
  · have hsin := Real.mul_le_sin (x := Real.pi - x) (by linarith) (by linarith)
    rw [Real.sin_pi_sub] at hsin
    nlinarith

/-- A turn of at least 5 · 2^-13 and at most π takes the cosine below 1 by more than the last place there. -/
theorem cos_le_of_angle {x : ℝ} (h1 : 5 / 2 ^ 13 ≤ x) (h2 : x ≤ Real.pi) : Real.cos x ≤ 1 - 1 / 5 * x ^ 2 := by
  have hcos := Real.cos_le_one_sub_mul_cos_sq (x := x) (by rw [abs_of_pos (by linarith)]; exact h2)
  have hslope : (1 : ℝ) / 5 ≤ 2 / Real.pi ^ 2 := by
    rw [div_le_div_iff₀ (by norm_num) (by positivity)]
    nlinarith [Real.pi_lt_d2, Real.pi_pos]
  nlinarith [sq_nonneg x]

/-- The cosine is inside (-1, 1) on the design's angles, by more than the last place at either end. -/
theorem cos_bounds_of_angle {x : ℝ} (h1 : 5 / 2 ^ 13 ≤ x) (h2 : x ≤ 23 / 8) :
    -(99 / 100) ≤ Real.cos x ∧ Real.cos x ≤ 1 - 1 / 2 ^ 24 - 1 / 2 ^ 30 := by
  have hpi := Real.pi_gt_d2
  have hleft := cos_le_of_angle (x := Real.pi - x) (by linarith) (by linarith)
  have hright := cos_le_of_angle h1 (by linarith)
  rw [Real.cos_pi_sub] at hleft
  constructor <;> nlinarith

/-! ### The rounded sine and cosine -/

/-- A rounded number is not below a value that is below the exact number by more than the enclosure's width. -/
theorem RoundsUnit.ge {c : ℝ} {r v : F} (h : RoundsUnit c r) (hv : fltFinite v = true)
    (hle : ((exactValue v : ℚ) : ℝ) + 1 / 2 ^ 30 ≤ c) : exactValue v ≤ exactValue r := by
  obtain ⟨q, hnear, -, hc⟩ := h
  have hw : ((1 : ℝ) / 2) ^ 287 ≤ (1 / 2) ^ 30 := half_pow_le (by norm_num)
  rw [one_div_pow 2 30] at hw
  generalize ((1 : ℝ) / 2) ^ 287 = w at *
  refine hnear.ge hv ?_
  have hreal : ((exactValue v : ℚ) : ℝ) ≤ q := by linarith [(abs_le.1 hc).1]
  exact_mod_cast hreal

/-- Nor above one that is above it by as much. -/
theorem RoundsUnit.le {c : ℝ} {r v : F} (h : RoundsUnit c r) (hv : fltFinite v = true)
    (hle : c + 1 / 2 ^ 30 ≤ ((exactValue v : ℚ) : ℝ)) : exactValue r ≤ exactValue v := by
  obtain ⟨q, hnear, -, hc⟩ := h
  have hw : ((1 : ℝ) / 2) ^ 287 ≤ (1 / 2) ^ 30 := half_pow_le (by norm_num)
  rw [one_div_pow 2 30] at hw
  generalize ((1 : ℝ) / 2) ^ 287 = w at *
  refine hnear.le hv ?_
  have hreal : (q : ℝ) ≤ (exactValue v : ℚ) := by linarith [(abs_le.1 hc).2]
  exact_mod_cast hreal

/-- A rounded number is finite. -/
theorem RoundsUnit.finite {c : ℝ} {r : F} (h : RoundsUnit c r) : fltFinite r = true := by
  obtain ⟨q, hnear, -⟩ := h
  exact hnear.1

/-- A rounded number well above zero is positive. -/
theorem RoundsUnit.pos {c : ℝ} {r : F} (h : RoundsUnit c r) (hc : 1 / 2 ^ 12 ≤ c) : fltLt (f32 0x00000000) r = true := by
  have h0 : exactValue (f32 0x00000000) = 0 := by decide +kernel
  have hv : exactValue (f32 0x39000000) = 1 / 2 ^ 13 := by decide +kernel
  have hle := h.ge (v := f32 0x39000000) (by decide) (by rw [hv]; push_cast; linarith)
  rw [hv] at hle
  rw [fltLt_iff (by decide) h.finite, h0]
  linarith

/-- A rounded number well above -1 is above it. -/
theorem RoundsUnit.gt_negOne {c : ℝ} {r : F} (h : RoundsUnit c r) (hc : -(99 / 100) ≤ c) :
    fltLt (f32 0xBF800000) r = true := by
  have hv : exactValue (f32 0xBF7E0000) = -(127 / 128) := by decide +kernel
  have hle := h.ge (v := f32 0xBF7E0000) (by decide) (by rw [hv]; push_cast; linarith)
  rw [hv] at hle
  rw [fltLt_iff (by decide) h.finite, exactValue_negOne]
  linarith

/-- A rounded number below 1 by more than the last place there is below 1. -/
theorem RoundsUnit.lt_one {c : ℝ} {r : F} (h : RoundsUnit c r) (hc : c ≤ 1 - 1 / 2 ^ 24 - 1 / 2 ^ 30) :
    fltLt r (f32 0x3F800000) = true := by
  have hv : exactValue (f32 0x3F7FFFFF) = 1 - 1 / 2 ^ 24 := by decide +kernel
  have hle := h.le (v := f32 0x3F7FFFFF) (by decide) (by rw [hv]; push_cast; linarith)
  rw [hv] at hle
  rw [fltLt_iff h.finite (by decide), exactValue_one]
  linarith

/-- Settles O53: the angle is inside the half turn with room for the roundings of its sine and cosine. -/
theorem designAngleInsideHalfTurn : Obligations.DesignAngleInsideHalfTurn := by
  intro fc hnan hwithin
  obtain ⟨hfc, h5, h20000⟩ := cutoff_bounds hnan hwithin
  obtain ⟨hfin, hlo, hhi⟩ := designAngle_bounds hfc h5 h20000
  change fltLt _ (cfg.num.fsin (designAngle fc)) = true ∧ fltLt _ (cfg.num.fcos (designAngle fc)) = true ∧
    fltLt (cfg.num.fcos (designAngle fc)) _ = true
  obtain ⟨neg, e, m, hw⟩ := fltFinite_iff.1 hfin
  rw [hw] at hlo hhi ⊢
  have hlo' : (5 : ℝ) / 2 ^ 13 ≤ ((exactValue (.fin neg e m : F) : ℚ) : ℝ) := by
    have h := (Rat.cast_le (K := ℝ)).2 hlo
    push_cast at h
    exact h
  have hhi' : ((exactValue (.fin neg e m : F) : ℚ) : ℝ) ≤ 23 / 8 := by
    have h := (Rat.cast_le (K := ℝ)).2 hhi
    push_cast at h
    exact h
  rw [cast_exactValue] at hlo' hhi'
  have hsin : RoundsUnit _ (cfg.num.fsin (.fin neg e m)) := roundsUnit_fltSin _ neg e m
  have hcos : RoundsUnit _ (cfg.num.fcos (.fin neg e m)) := roundsUnit_fltCos _ neg e m
  obtain ⟨hcos1, hcos2⟩ := cos_bounds_of_angle hlo' hhi'
  exact ⟨hsin.pos (sin_ge_of_angle hlo' hhi'), hcos.gt_negOne hcos1, hcos.lt_one hcos2⟩

end Sys2Proof.Machine
end

section
/-! SUPPORT. Proofs: what a command and a step can do to the unit (spec/60_exceptions.md R105 to R107, R112), and what
follows for its flags: a fault stays (spec/10_state.md R13), and so does CFG (R12). -/

namespace Sys2Proof.Machine

open Sys2Proof.Config (Cfg)

variable {V : Type}

/-! ### A property of the unit through the check sequence (R105) -/

/-- A property the unit has is kept by a guarded command if the command, on an unfaulted unit, establishes it. -/
theorem whenUnfaulted_keeps (P : BfuOf V → Prop) {b : BfuOf V} {run : Reply V} (hb : P b)
    (hrun : b.flt = false → P run.bfu) : P (whenUnfaulted b run).bfu := by
  cases hflt : b.flt
  · rw [whenUnfaulted_unfaulted hflt]; exact hrun hflt
  · rw [whenUnfaulted_faulted hflt]; exact hb

/-- The same for a command that needs a constructed unit: the fault entry has to keep the property too. -/
theorem whenConfigured_keeps (P : BfuOf V → Prop) {b : BfuOf V} {run : Reply V} (hb : P b)
    (hraise : P (raise .notConfigured b).bfu) (hrun : b.cfg = true → P run.bfu) : P (whenConfigured b run).bfu := by
  refine whenUnfaulted_keeps P hb fun _ => ?_
  cases hcfg : b.cfg
  · exact hraise
  · exact hrun hcfg

/-! ### A faulted unit -/

/-- Every instruction leaves a faulted unit as it is: NOP and RDREG write nothing, the others are refused (R107). -/
theorem instrUnder_bfu_of_faulted (c : Cfg V) (i : Instr) {b : BfuOf V} (h : b.flt = true) :
    (instrUnder c i b).bfu = b := by
  cases i with
  | nop => rfl
  | init tag => exact congrArg Reply.bfu (whenUnfaulted_faulted h _)
  | setcut v => exact congrArg Reply.bfu (whenConfigured_faulted h _)
  | setq v => exact congrArg Reply.bfu (whenConfigured_faulted h _)
  | modCut v => exact congrArg Reply.bfu (whenConfigured_faulted h _)
  | modQ v => exact congrArg Reply.bfu (whenConfigured_faulted h _)
  | modFwd tag v => exact congrArg Reply.bfu (whenConfigured_faulted h _)
  | clrmod => exact congrArg Reply.bfu (whenConfigured_faulted h _)
  | proc l r => exact congrArg Reply.bfu (whenConfigured_faulted h _)
  | step ch x => exact congrArg Reply.bfu (whenConfigured_faulted h _)
  | rdreg r => rfl

/-- An undecodable word is handled by the common checks, under any configuration. -/
theorem commandUnder_illegal (c : Cfg V) {w : CmdWord} {why : Illegal} (h : decode w = .illegal why) (b : BfuOf V) :
    commandUnder c w b = illegalWord b := by
  simp [commandUnder, h]

/-- Every command word, legal or not, leaves a faulted unit as it is. -/
theorem commandUnder_bfu_of_faulted (c : Cfg V) (w : CmdWord) {b : BfuOf V} (h : b.flt = true) :
    (commandUnder c w b).bfu = b := by
  cases hdecode : decode w with
  | ok i => rw [commandUnder_ok c hdecode, instrUnder_bfu_of_faulted c i h]
  | illegal why => rw [commandUnder_illegal c hdecode, illegalWord_faulted h, refuse_bfu]

/-! ### A constructed unit -/

/-- However a command ends, a constructed unit stays constructed (R12). -/
theorem Ends.keeps_cfg {b : BfuOf V} {r : Reply V} (h : Ends b r) (hcfg : b.cfg = true) : r.bfu.cfg = true := by
  cases h with
  | ok b' ra rb hflt hcause hkeep => exact hkeep hcfg
  | fault k hflt => exact hcfg
  | refused hflt => exact hcfg

/-! ### The step -/

/-- All a step can do to the unit: nothing, what one command does, or reset it (R109, R8, R120). -/
theorem step_bfu_cases {s t : State} (h : step s = .next t) :
    t.bfu = s.bfu ∨ (∃ w, t.bfu = (commandUnder cfg w s.bfu).bfu) ∨
      (∃ rest, s.port.pending = .reset :: rest) ∧ t.bfu = Bfu.reset := by
  rcases hpending : s.port.pending with _ | ⟨_ | _, rest⟩
  case nil =>
    rw [step_idle hpending] at h
    cases h
    exact .inl rfl
  case cons.command w =>
    rw [step_command hpending, runCommand_eq_commandUnder] at h
    exact .inr (.inl ⟨w, (deliver_next h).1⟩)
  case cons.reset =>
    rw [step_reset hpending] at h
    cases h
    exact .inr (.inr ⟨⟨rest, rfl⟩, rfl⟩)

/-- A step that is no reset: it leaves the unit, or does to it what one command does. -/
theorem step_bfu_cases_of_no_reset {s t : State} (hreset : ∀ rest, s.port.pending ≠ .reset :: rest)
    (h : step s = .next t) : t.bfu = s.bfu ∨ ∃ w, t.bfu = (commandUnder cfg w s.bfu).bfu := by
  rcases step_bfu_cases h with hidle | hcommand | ⟨⟨rest, hpending⟩, -⟩
  · exact .inl hidle
  · exact .inr hcommand
  · exact absurd hpending (hreset rest)

/-- Settles O16: an idle step changes nothing, and no command changes a faulted unit. -/
theorem faultIsStickyUntilReset : Obligations.FaultIsStickyUntilReset := by
  intro s t hflt hreset hstep
  rcases step_bfu_cases_of_no_reset hreset hstep with hidle | ⟨w, hw⟩
  · exact hidle
  · rw [hw, commandUnder_bfu_of_faulted cfg w hflt]

/-- Settles O17: none of the three ends of a command writes CFG to 0. -/
theorem configuredFlagIsKept : Obligations.ConfiguredFlagIsKept := by
  intro s t hcfg hreset hstep
  rcases step_bfu_cases_of_no_reset hreset hstep with hidle | ⟨w, hw⟩
  · rw [hidle, hcfg]
  · rw [hw, (commandUnder_ends cfg w s.bfu).keeps_cfg hcfg]

end Sys2Proof.Machine
end

section
/-! SUPPORT. Proofs: the unit's invariant (spec/10_state.md R13, R15, R16, R26), at reset and through every step. -/

namespace Sys2Proof.Machine

open Sys2Proof.Safety (legal causeLegal unbuiltClean parametersLegal within)

/-! ### The invariant, part by part -/

theorem legal_iff {b : Bfu} :
    legal b = true ↔ causeLegal b = true ∧ unbuiltClean b = true ∧ parametersLegal b = true := by
  simp [legal, and_assoc]

/-- Of a constructed unit the invariant says that CAUSE agrees with FLT and that CUT and Q are inside their clamps. -/
theorem legal_built_iff {b : Bfu} (hcfg : b.cfg = true) :
    legal b = true ↔ causeLegal b = true ∧ within (f32 0x40A00000) (f32 0x469C4000) b.cut = true ∧
      within (f32 0x3DCCCCCD) (f32 0x41A00000) b.q = true := by
  simp [legal_iff, unbuiltClean, parametersLegal, hcfg]

/-- A fault entry writes a legal CAUSE with FLT, and nothing else the invariant speaks of (R106). -/
theorem legal_raise (k : Cause) {b : Bfu} (h : legal b = true) : legal (raise k b).bfu = true := by
  obtain ⟨-, hunbuilt, hparams⟩ := legal_iff.1 h
  have hcause : causeLegal (raise k b).bfu = true := by cases k <;> rfl
  exact legal_iff.2 ⟨hcause, hunbuilt, hparams⟩

/-- A clamped value is not outside its bounds, where the bounds are not outside each other (R7). -/
theorem within_clamp {lo hi : F} (v : F) (hlo : within lo hi lo = true) (hhi : within lo hi hi = true) :
    within lo hi (clamp cfg v lo hi) = true := by
  rcases clamp_cases v lo hi with h | h | ⟨h, hge, hle⟩
  · rw [h, hlo]
  · rw [h, hhi]
  · rw [h, within, hge, hle]; rfl

/-! ### The commands -/

/-- A construction writes parameters inside their clamps, and leaves FLT and CAUSE (R60). -/
theorem legal_construct (ft : FilterType) {b : Bfu} (h : legal b = true) : legal (construct cfg ft b) = true := by
  obtain ⟨hcause, -, -⟩ := legal_iff.1 h
  have hcut : within (f32 0x40A00000) (f32 0x469C4000) cfg.cutInit = true := by decide
  have hq : within (f32 0x3DCCCCCD) (f32 0x41A00000) cfg.qInit = true := by decide
  exact (legal_built_iff rfl).2 ⟨hcause, hcut, hq⟩

/-- A command that needs a constructed unit keeps the invariant if it keeps CFG, FLT and CAUSE, and leaves CUT and Q inside
their clamps where they were. -/
theorem legal_whenConfigured {b : Bfu} {run : Reply F} (h : legal b = true)
    (hflags : run.bfu.cfg = b.cfg ∧ run.bfu.flt = b.flt ∧ run.bfu.cause = b.cause)
    (hcut : within (f32 0x40A00000) (f32 0x469C4000) b.cut = true →
      within (f32 0x40A00000) (f32 0x469C4000) run.bfu.cut = true)
    (hq : within (f32 0x3DCCCCCD) (f32 0x41A00000) b.q = true →
      within (f32 0x3DCCCCCD) (f32 0x41A00000) run.bfu.q = true) :
    legal (whenConfigured b run).bfu = true := by
  refine whenConfigured_keeps (legal · = true) h (legal_raise _ h) fun hcfg => ?_
  obtain ⟨hcfg', hflt', hcause'⟩ := hflags
  obtain ⟨hcause, hcut0, hq0⟩ := (legal_built_iff hcfg).1 h
  have hcauseLegal : causeLegal run.bfu = true := by rw [causeLegal, hflt', hcause']; exact hcause
  exact (legal_built_iff (hcfg'.trans hcfg)).2 ⟨hcauseLegal, hcut hcut0, hq hq0⟩

/-- Every instruction keeps the invariant. -/
theorem legal_instrUnder (i : Instr) {b : Bfu} (h : legal b = true) : legal (instrUnder cfg i b).bfu = true := by
  cases i with
  | nop => exact h
  | init tag =>
    refine whenUnfaulted_keeps (legal · = true) h fun _ => ?_
    cases filterOf tag with
    | none => exact legal_raise _ h
    | some ft => exact legal_construct ft h
  | setcut v =>
    exact legal_whenConfigured h ⟨rfl, rfl, rfl⟩ (fun _ => within_clamp (f32 v) (by decide) (by decide)) id
  | setq v =>
    exact legal_whenConfigured h ⟨rfl, rfl, rfl⟩ id (fun _ => within_clamp (f32 v) (by decide) (by decide))
  | modCut v => exact legal_whenConfigured h ⟨rfl, rfl, rfl⟩ id id
  | modQ v => exact legal_whenConfigured h ⟨rfl, rfl, rfl⟩ id id
  | modFwd tag v => exact legal_whenConfigured h ⟨rfl, rfl, rfl⟩ id id
  | clrmod => exact legal_whenConfigured h ⟨rfl, rfl, rfl⟩ id id
  | proc l r => exact legal_whenConfigured h ⟨rfl, rfl, rfl⟩ id id
  | step ch x => cases ch <;> exact legal_whenConfigured h ⟨rfl, rfl, rfl⟩ id id
  | rdreg r => exact h

/-- Every command word keeps the invariant, an illegal one by its fault entry or its refusal. -/
theorem legal_commandUnder (w : CmdWord) {b : Bfu} (h : legal b = true) : legal (commandUnder cfg w b).bfu = true := by
  cases hdecode : decode w with
  | ok i => rw [commandUnder_ok cfg hdecode]; exact legal_instrUnder i h
  | illegal why =>
    rw [commandUnder_illegal cfg hdecode]
    exact whenUnfaulted_keeps (legal · = true) h fun _ => legal_raise _ h

/-! ### At reset and through every step -/

/-- Settles O46: the reset column, checked against each part of the invariant. -/
theorem invariantAtReset : Obligations.InvariantAtReset := by
  unfold Obligations.InvariantAtReset
  decide

/-- Settles O47: an idle step changes nothing, every command keeps the invariant, and a reset establishes it. -/
theorem stepKeepsInvariant : Obligations.StepKeepsInvariant := by
  intro s t hlegal hstep
  rcases step_bfu_cases hstep with hidle | ⟨w, hw⟩ | ⟨-, hreset⟩
  · rw [hidle, hlegal]
  · rw [hw, legal_commandUnder w hlegal]
  · rw [hreset]; exact invariantAtReset

end Sys2Proof.Machine
end

section
/-! SUPPORT. Proofs: the status view (spec/10_state.md R11), the reset column (R28; spec/70_reset_and_hazards.md R120), and
the commands that leave the filter state (R21). -/

namespace Sys2Proof.Machine

open Sys2Proof.Config (Cfg)

variable {V : Type}

/-! ### STATUS, bit by bit -/

@[simp] theorem flagBit_getLsbD (f : Bool) (i : Nat) : (flagBit f).getLsbD i = (decide (i = 0) && f) := by
  cases f <;> simp [flagBit]

@[simp] theorem filterBit_getLsbD (ft : FilterType) (i : Nat) :
    (filterBit ft).getLsbD i = (decide (i = 0) && ft == .highPass) := by
  cases ft <;> simp [filterBit]

/-- Every bit of STATUS: the two flags, the filter type, and CAUSE from bit 8 on, zeros between and above (R11). -/
theorem statusWord_getLsbD (b : BfuOf V) (i : Nat) :
    (statusWord b).getLsbD i =
      if i = 0 then b.cfg else if i = 1 then b.flt else if i = 2 then b.ft == .highPass
      else decide (8 ≤ i) && b.cause.getLsbD (i - 8) := by
  have e : statusWord b =
      ((((((0 : BitVec 16) ++ b.cause) ++ (0 : BitVec 5)) ++ filterBit b.ft) ++ flagBit b.flt) ++ flagBit b.cfg) := rfl
  rw [e]
  simp only [BitVec.getLsbD_append, flagBit_getLsbD, filterBit_getLsbD]
  rcases i with _ | _ | _ | i
  · simp
  · simp
  · simp
  · by_cases h5 : i < 5
    · simp [h5, show ¬ 8 ≤ i + 3 by omega]
    · by_cases h13 : i - 5 < 8
      · simp [h5, h13, show 8 ≤ i + 3 by omega]
      · have hhigh : b.cause.getLsbD (i - 5) = false := BitVec.getLsbD_of_ge _ _ (by omega)
        simp [h5, h13, hhigh]

/-- Settles O32: the bits of each field, read off the layout. -/
theorem statusWordLayout : Obligations.StatusWordLayout := by
  intro b
  refine ⟨statusWord_getLsbD b 0, statusWord_getLsbD b 1, statusWord_getLsbD b 2, ?_, ?_, ?_⟩ <;>
    refine BitVec.eq_of_getLsbD_eq fun i hi => ?_
  · simp [statusWord_getLsbD, show ¬ 8 ≤ 3 + i by omega, show 3 + i ≠ 1 by omega, show 3 + i ≠ 2 by omega]
  · simp [statusWord_getLsbD, hi, show 8 + i ≠ 1 by omega, show 8 + i ≠ 2 by omega]
  · simp [statusWord_getLsbD, show 16 + i ≠ 1 by omega, show 16 + i ≠ 2 by omega, show 8 ≤ 16 + i - 8 by omega]

/-- Settles O10: the fields of the reset column, and STATUS made of them, run. -/
theorem resetStateIsAllZero : Obligations.ResetStateIsAllZero := by
  unfold Obligations.ResetStateIsAllZero
  decide

/-! ### The filter state -/

/-- A command that needs a constructed unit leaves a channel's registers if it does so when it executes; a fault entry and a
refusal write none. -/
theorem whenConfigured_getDelay {b : BfuOf V} {run : Reply V} {ch : Channel} (h : getDelay run.bfu ch = getDelay b ch) :
    getDelay (whenConfigured b run).bfu ch = getDelay b ch :=
  whenConfigured_keeps (getDelay · ch = getDelay b ch) rfl rfl fun _ => h

/-- Only INIT, PROC and STEP write a channel's registers, under any configuration (R21). -/
theorem instrUnder_getDelay (c : Cfg V) {i : Instr} (hinit : ∀ tag, i ≠ .init tag) (hproc : ∀ l r, i ≠ .proc l r)
    (hstep : ∀ ch x, i ≠ .step ch x) (b : BfuOf V) (ch : Channel) :
    getDelay (instrUnder c i b).bfu ch = getDelay b ch := by
  cases i with
  | nop => rfl
  | init tag => exact absurd rfl (hinit tag)
  | setcut v => exact whenConfigured_getDelay rfl
  | setq v => exact whenConfigured_getDelay rfl
  | modCut v => exact whenConfigured_getDelay rfl
  | modQ v => exact whenConfigured_getDelay rfl
  | modFwd tag v => exact whenConfigured_getDelay rfl
  | clrmod => exact whenConfigured_getDelay rfl
  | proc l r => exact absurd rfl (hproc l r)
  | step ch' x => exact absurd rfl (hstep ch' x)
  | rdreg r => rfl

/-- Settles O33: an instruction that is none of the three keeps both channels' registers. -/
theorem filterStateWriters : Obligations.FilterStateWriters := by
  intro i s t hinit hproc hstep hexec
  rw [exec_eq_instrUnder] at hexec
  obtain ⟨hbfu, -, -⟩ := deliver_next hexec
  have hkeep := instrUnder_getDelay cfg hinit hproc hstep s.bfu
  rw [← hbfu] at hkeep
  obtain ⟨hxl1, hxl2, hyl1, hyl2⟩ := Delay.mk.inj (hkeep .left)
  obtain ⟨hxr1, hxr2, hyr1, hyr2⟩ := Delay.mk.inj (hkeep .right)
  exact ⟨hxl1, hxl2, hyl1, hyl2, hxr1, hxr2, hyr1, hyr2⟩

end Sys2Proof.Machine
end

section
/-! SUPPORT. Proofs: the byte form of a word (spec/20_memory.md R32) and the readback of a register (R34). -/

namespace Sys2Proof

/-! ### The byte form of a word -/

/-- A slice of a slice is a slice of the whole: the two offsets add. -/
theorem extractLsb'_of_extractLsb' {n : Nat} (x : BitVec n) {start len lo width : Nat} (h : lo + width ≤ len) :
    (x.extractLsb' start len).extractLsb' lo width = x.extractLsb' (start + lo) width := by
  refine BitVec.eq_of_getLsbD_eq fun i hi => ?_
  simp only [BitVec.getLsbD_extractLsb', hi, show lo + i < len by omega, decide_true, Bool.true_and, Nat.add_assoc]

/-- The nine bytes by the fields they lie in: the opcode, then `a` and `b`, each most significant byte first. -/
theorem bytesOfWord_eq_fields (w : BitVec 72) :
    bytesOfWord w =
      [opField w, (aField w).extractLsb' 24 8, (aField w).extractLsb' 16 8, (aField w).extractLsb' 8 8,
       (aField w).extractLsb' 0 8, (bField w).extractLsb' 24 8, (bField w).extractLsb' 16 8,
       (bField w).extractLsb' 8 8, (bField w).extractLsb' 0 8] := by
  simp [bytesOfWord, opField, aField, bField, extractLsb'_of_extractLsb']

/-- A slice and the byte below it join into one slice. -/
theorem extractLsb'_append_byte {n : Nat} (x : BitVec n) (start len : Nat) :
    x.extractLsb' (start + 8) len ++ x.extractLsb' start 8 = x.extractLsb' start (len + 8) :=
  BitVec.extractLsb'_append_extractLsb'_eq_extractLsb' rfl

/-- Reading the nine bytes of any word gives the word back and leaves the bytes after them: byte by byte the bytes join into
one slice, which is the word. -/
theorem wordOfBytes_bytesOfWord (w : BitVec 72) (rest : List Byte) :
    wordOfBytes (bytesOfWord w ++ rest) = some (w, rest) := by
  simp only [bytesOfWord, List.cons_append, List.nil_append, wordOfBytes, extractLsb'_append_byte]
  rw [BitVec.extractLsb'_eq_self]

end Sys2Proof

namespace Sys2Proof.Machine

open Sys2Proof.Safety (after execAll)

/-- Settles O5: every word is read back from its nine bytes, and an assembled word's fields are what it was assembled of. -/
theorem wordBytesRoundTrip : Obligations.WordBytesRoundTrip := by
  intro op a b rest
  refine ⟨wordOfBytes_bytesOfWord _ rest, ?_⟩
  rw [bytesOfWord_eq_fields, opField_assembleWord, aField_assembleWord, bField_assembleWord]

/-! ### The readback of a register -/

/-- The next state of a RDREG: the unit as it was, and a response that only the unit and the index decide (R96). -/
theorem exec_rdreg (i : Reg) (s : State) :
    exec (.rdreg i) s =
      .next (after s s.bfu statusOk (regRead cfg (Config.freeNan s.bfu (.rdreg i) .ra) s.bfu i) 0) := rfl

/-- A list whose first instruction answers a next state runs on from that state. -/
theorem execAll_cons_next {i : Instr} {s t : State} (h : exec i s = .next t) (is : List Instr) :
    execAll (i :: is) s = execAll is t := by
  simp only [execAll, h]

/-- Settles O31: the second read meets the unit the first one met, so it gives the same response. -/
theorem rdregIsIdempotent : Obligations.RdregIsIdempotent := by
  intro s i
  rw [execAll_cons_next (exec_rdreg i s), execAll_cons_next (exec_rdreg i _)]
  exact ⟨_, _, rfl, rfl, rfl⟩

end Sys2Proof.Machine
end

section
/-! SUPPORT. Proofs: decoding and encoding are inverse, which words are illegal, and the rows of the opcode map
(spec/30_encoding.md R45 to R52, R54). -/

namespace Sys2Proof

/-! ### Decoding an encoded instruction -/

/-- A word under one of the nine opcodes is decoded by its operands (R46). -/
theorem decode_assembleWord_opcodeByte (o : Opcode) (a b : Word32) :
    decode (assembleWord (opcodeByte o) a b) = decodeOperands o a b := by
  simp [decode]

/-- A tag of 2 or above selects MOD.FWD (R45, R52). -/
theorem decodeMod_of_fwdTagOk {tag : Word32} (h : fwdTagOk tag = true) (v : Word32) :
    decodeMod tag v = .ok (.modFwd tag v) := by
  have htag : 2 ≤ tag.toNat := of_decide_eq_true h
  rw [decodeMod, if_neg (by bv_omega), if_neg (by bv_omega)]

/-- A well-formed instruction's operands decode to it under its opcode. -/
theorem decodeOperands_instr {i : Instr} (h : i.wf = true) :
    decodeOperands (instrOpcode i) (instrA i) (instrB i) = .ok i := by
  cases i with
  | modFwd tag v => exact decodeMod_of_fwdTagOk h v
  | step c x => simp [instrOpcode, instrA, instrB, decodeOperands, decodeStep]
  | rdreg r => simp [instrOpcode, instrA, instrB, decodeOperands, decodeRdreg, whenZero]
  | nop | init | setcut | setq | modCut | modQ | clrmod | proc => rfl

/-- Settles O1: the word's opcode is read back, and the operands decode constructor by constructor. -/
theorem decodeInvertsEncode : Obligations.DecodeInvertsEncode := by
  intro i hwf
  rw [encode, decode_assembleWord_opcodeByte, decodeOperands_instr hwf]

/-! ### Encoding a decoded instruction -/

/-- The instruction `i` is well-formed and its word is `opcodeByte o ++ a ++ b`. -/
def HasFields (i : Instr) (o : Opcode) (a b : Word32) : Prop :=
  instrOpcode i = o ∧ instrA i = a ∧ instrB i = b ∧ i.wf = true

theorem decodeMod_ok {a b : Word32} {i : Instr} (h : decodeMod a b = .ok i) : HasFields i .mod a b := by
  unfold decodeMod at h
  split at h
  next h0 => cases h; exact ⟨rfl, h0.symm, rfl, rfl⟩
  next h0 =>
    split at h
    next h1 => cases h; exact ⟨rfl, h1.symm, rfl, rfl⟩
    next h1 =>
      cases h
      have htag : 2 ≤ a.toNat := by bv_omega
      exact ⟨rfl, rfl, rfl, decide_eq_true htag⟩

theorem decodeStep_ok {a b : Word32} {i : Instr} (h : decodeStep a b = .ok i) : HasFields i .step a b := by
  unfold decodeStep at h
  split at h
  next hc => cases h; exact ⟨rfl, channelCode_of_channelOf hc, rfl, rfl⟩
  next => cases h

theorem decodeRdreg_ok {a : Word32} {i : Instr} (h : decodeRdreg a = .ok i) : HasFields i .rdreg a 0 := by
  unfold decodeRdreg at h
  split at h
  next hr => cases h; exact ⟨rfl, regIndex_of_regOf hr, rfl, rfl⟩
  next => cases h

/-- Operands that decode are those of the instruction: a must-be-zero field that passed is the zero it is encoded as (R48). -/
theorem decodeOperands_ok {o : Opcode} {a b : Word32} {i : Instr} (h : decodeOperands o a b = .ok i) :
    HasFields i o a b := by
  cases o with
  | mod => exact decodeMod_ok h
  | step => exact decodeStep_ok h
  | proc => cases h; exact ⟨rfl, rfl, rfl, rfl⟩
  | rdreg =>
    obtain ⟨rfl, hr⟩ := whenZero_ok.1 h
    exact decodeRdreg_ok hr
  | nop | clrmod =>
    obtain ⟨rfl, hb⟩ := whenZero_ok.1 h
    obtain ⟨rfl, hi⟩ := whenZero_ok.1 hb
    cases hi
    exact ⟨rfl, rfl, rfl, rfl⟩
  | init | setcut | setq =>
    obtain ⟨rfl, hi⟩ := whenZero_ok.1 h
    cases hi
    exact ⟨rfl, rfl, rfl, rfl⟩

/-- Settles O2: the decoded instruction has the word's opcode and fields, and a word is the assembly of its fields. -/
theorem encodeInvertsDecode : Obligations.EncodeInvertsDecode := by
  intro w i h
  unfold decode at h
  split at h
  next o ho =>
    obtain ⟨hop, ha, hb, hwf⟩ := decodeOperands_ok h
    exact ⟨by rw [encode, hop, ha, hb, opcodeByte_of_opcodeOf ho, assembleWord_fields], hwf⟩
  next => cases h

/-- Settles O3: each of the spec's words is decoded. -/
theorem specWordsDecode : Obligations.SpecWordsDecode := by
  unfold Obligations.SpecWordsDecode
  decide

/-! ### Illegal words -/

@[simp] theorem decodedInstr_ok (i : Instr) : decodedInstr (.ok i) = some i := rfl

@[simp] theorem decodedInstr_illegal (why : Illegal) : decodedInstr (.illegal why) = none := rfl

/-- A reserved opcode is none of the nine (R47). -/
theorem opcodeOf_eq_none_iff (op : BitVec 8) :
    opcodeOf op = none ↔ op ∉ ([0x00, 0x01, 0x10, 0x11, 0x20, 0x21, 0x30, 0x31, 0x40] : List (BitVec 8)) := by
  simp [opcodeOf, ite_eq_iff]

/-- A channel of 2 or above is none (R51). -/
theorem channelOf_eq_none_iff (c : Word32) : channelOf c = none ↔ 2 ≤ c.toNat := by
  simp only [channelOf, ite_eq_iff, reduceCtorEq, and_false, false_or, and_true]
  bv_omega

/-- The indices that name no register lie outside the three blocks of the readback space (R26, R50). -/
theorem regOf_eq_none_iff (i : Word32) :
    regOf i = none ↔
      ¬ (i.toNat ≤ 0x06 ∨ (0x08 ≤ i.toNat ∧ i.toNat ≤ 0x0D) ∨ (0x10 ≤ i.toNat ∧ i.toNat ≤ 0x17)) := by
  simp only [regOf, ite_eq_iff, reduceCtorEq, and_false, false_or, and_true]
  bv_omega

theorem decodedInstr_whenZero_eq_none (z : Word32) (d : Decoded) :
    decodedInstr (whenZero z d) = none ↔ z ≠ 0 ∨ decodedInstr d = none := by
  unfold whenZero
  split <;> simp_all

theorem decodedInstr_decodeMod_ne_none (tag v : Word32) : decodedInstr (decodeMod tag v) ≠ none := by
  unfold decodeMod
  split
  · exact Option.some_ne_none _
  · split <;> exact Option.some_ne_none _

theorem decodedInstr_decodeStep_eq_none (c x : Word32) :
    decodedInstr (decodeStep c x) = none ↔ 2 ≤ c.toNat := by
  rw [← channelOf_eq_none_iff, decodeStep]
  cases channelOf c <;> simp

theorem decodedInstr_decodeRdreg_eq_none (i : Word32) :
    decodedInstr (decodeRdreg i) = none ↔
      ¬ (i.toNat ≤ 0x06 ∨ (0x08 ≤ i.toNat ∧ i.toNat ≤ 0x0D) ∨ (0x10 ≤ i.toNat ∧ i.toNat ≤ 0x17)) := by
  rw [← regOf_eq_none_iff, decodeRdreg]
  cases regOf i <;> simp

/-- Settles O4: an opcode byte is reserved or one of the nine, and under each of the nine the operands' checks are read off. -/
theorem illegalWordsExactly : Obligations.IllegalWordsExactly := by
  intro op a b
  cases ho : opcodeOf op with
  | none =>
    have hillegal : decodedInstr (decode (assembleWord op a b)) = none := by simp [decode, ho]
    exact iff_of_true hillegal (.inl ((opcodeOf_eq_none_iff op).1 ho))
  | some o =>
    obtain rfl := opcodeByte_of_opcodeOf ho
    rw [decode_assembleWord_opcodeByte]
    cases o with
    | mod => simpa [opcodeByte, decodeOperands] using decodedInstr_decodeMod_ne_none a b
    | step => simpa [opcodeByte, decodeOperands] using decodedInstr_decodeStep_eq_none a b
    | rdreg =>
      simp only [decodeOperands, decodedInstr_whenZero_eq_none, decodedInstr_decodeRdreg_eq_none]
      simp [opcodeByte]
    | proc => simp [decodeOperands, opcodeByte]
    | nop | init | setcut | setq | clrmod =>
      simp [decodeOperands, decodedInstr_whenZero_eq_none, opcodeByte]

/-! ### The rows of the opcode map -/

/-- The word `w` selects the row of `i`: the row's `match` under its `mask`, with the row's extra constraint (R45). -/
def SelectsRow (w : CmdWord) (i : Instr) : Prop :=
  w &&& rowMask i = rowMatch i ∧ (∀ g v, i = .modFwd g v → 2 ≤ (aField w).toNat) ∧
    (∀ r, i = .rdreg r → ∃ r', aField w = regIndex r')

/-- Every instruction's word lies in its row. -/
theorem encode_inRow (i : Instr) : encode i &&& rowMask i = rowMatch i := by
  cases i with
  | nop => exact Laws.InRow.nop
  | init tag => exact Laws.InRow.init tag
  | setcut v => exact Laws.InRow.setcut v
  | setq v => exact Laws.InRow.setq v
  | modCut v => exact Laws.InRow.modCut v
  | modQ v => exact Laws.InRow.modQ v
  | modFwd tag v => exact Laws.InRow.modFwd tag v
  | clrmod => exact Laws.InRow.clrmod
  | proc l r => exact Laws.InRow.proc l r
  | step c x => exact Laws.InRow.step c x
  | rdreg r => exact Laws.InRow.rdreg r

theorem selectsRow_of_decode {w : CmdWord} {i : Instr} (h : decode w = .ok i) : SelectsRow w i := by
  obtain ⟨rfl, hwf⟩ := encodeInvertsDecode w i h
  refine ⟨encode_inRow i, ?_, ?_⟩
  · rintro g v rfl
    rw [encode, aField_assembleWord]
    exact of_decide_eq_true hwf
  · rintro r rfl
    exact ⟨r, aField_assembleWord _ _ _⟩

/-- Every row fixes the whole opcode byte. -/
theorem opField_of_inRow {w : CmdWord} {i : Instr} (h : w &&& rowMask i = rowMatch i) :
    opField w = opcodeByte (instrOpcode i) := by
  have hop : opField w &&& opField (rowMask i) = opField (rowMatch i) := by
    rw [← h]; exact BitVec.extractLsb'_and.symm
  have hmask : opField (rowMask i) = BitVec.allOnes 8 := by cases i <;> rw [rowMask] <;> decide
  have hmatch : opField (rowMatch i) = opcodeByte (instrOpcode i) := by
    cases i <;> rw [rowMatch, instrOpcode] <;> decide
  rw [← hmatch, ← hop, hmask, BitVec.and_allOnes]

/-- The rows that one word selects are of one opcode. -/
theorem opcodeOf_opField_of_inRow {w : CmdWord} {i : Instr} (h : w &&& rowMask i = rowMatch i) :
    opcodeOf (opField w) = some (instrOpcode i) := by
  rw [opField_of_inRow h, opcodeOf_opcodeByte]

/-- A row whose mask covers field `a` fixes it. -/
theorem aField_of_inRow {w : CmdWord} {i : Instr} {a : Word32} (h : w &&& rowMask i = rowMatch i)
    (hmask : aField (rowMask i) = BitVec.allOnes 32) (hmatch : aField (rowMatch i) = a) : aField w = a := by
  have ha : aField w &&& aField (rowMask i) = aField (rowMatch i) := by
    rw [← h]; exact BitVec.extractLsb'_and.symm
  rw [← hmatch, ← ha, hmask, BitVec.and_allOnes]

/-- An instruction of the row that an opcode and a field `a` select: opcode 0x20 is told apart by the tag, and each other
opcode has one row. -/
def rowInstr : Opcode → Word32 → Instr
  | .nop, _ => .nop
  | .init, _ => .init 0
  | .setcut, _ => .setcut 0
  | .setq, _ => .setq 0
  | .mod, a => if a = 0 then .modCut 0 else if a = 1 then .modQ 0 else .modFwd a 0
  | .clrmod, _ => .clrmod
  | .proc, _ => .proc 0 0
  | .step, _ => .step .left 0
  | .rdreg, _ => .rdreg .status

/-- The row a word selects is decided by its opcode and its field `a`. -/
theorem row_of_selectsRow {w : CmdWord} {i : Instr} (h : SelectsRow w i) :
    rowMask i = rowMask (rowInstr (instrOpcode i) (aField w)) ∧
      rowMatch i = rowMatch (rowInstr (instrOpcode i) (aField w)) := by
  obtain ⟨hrow, htag, -⟩ := h
  cases i with
  | modCut v =>
    have ha : aField w = 0 := aField_of_inRow hrow (by rw [rowMask]; decide) (by rw [rowMatch]; decide)
    have hinstr : rowInstr .mod (aField w) = .modCut 0 := if_pos ha
    rw [instrOpcode, hinstr]
    exact ⟨rfl, rfl⟩
  | modQ v =>
    have ha : aField w = 1 := aField_of_inRow hrow (by rw [rowMask]; decide) (by rw [rowMatch]; decide)
    have hinstr : rowInstr .mod (aField w) = .modQ 0 := by rw [rowInstr, if_neg (by bv_omega), if_pos ha]
    rw [instrOpcode, hinstr]
    exact ⟨rfl, rfl⟩
  | modFwd tag v =>
    have ha : 2 ≤ (aField w).toNat := htag tag v rfl
    have hinstr : rowInstr .mod (aField w) = .modFwd (aField w) 0 := by
      rw [rowInstr, if_neg (by bv_omega), if_neg (by bv_omega)]
    rw [instrOpcode, hinstr]
    exact ⟨rfl, rfl⟩
  | nop | init | setcut | setq | clrmod | proc | step | rdreg => exact ⟨rfl, rfl⟩

/-- Settles O6: a decoded word is its instruction's encoding, which lies in its row, and two rows that a word selects are
both the one its opcode and its field `a` decide. -/
theorem rowsAreDisjoint : Obligations.RowsAreDisjoint := by
  refine ⟨fun w i h => selectsRow_of_decode h, fun w i j hi hj => ?_⟩
  have hopcode : instrOpcode i = instrOpcode j :=
    Option.some.inj ((opcodeOf_opField_of_inRow hi.1).symm.trans (opcodeOf_opField_of_inRow hj.1))
  obtain ⟨hmaski, hmatchi⟩ := row_of_selectsRow hi
  obtain ⟨hmaskj, hmatchj⟩ := row_of_selectsRow hj
  rw [hmaski, hmatchi, hmaskj, hmatchj, hopcode]
  exact ⟨rfl, rfl⟩

end Sys2Proof
end

section
/-! SUPPORT. Proofs: construction and base parameters (spec/40_construction_parameters.md R60 to R62), and what the parameter
and modulation commands leave unchanged (R61, R62, R70 to R73; spec/60_exceptions.md R106). -/

namespace Sys2Proof.Machine

open Sys2Proof.Config (Cfg)
open Sys2Proof.Safety (after ready)

variable {V : Type}

/-! ### A command that completes, as the machine answers it -/

/-- A completed command, delivered, is what claims write as `after` with the status OK (R44). -/
theorem deliver_complete (s : State) (b : Bfu) (ra rb : Word32) :
    deliver s (complete b ra rb) = .next (after s b 0x00 ra rb) := rfl

/-- On a ready unit an instruction that needs a constructed one passes both checks and completes (R105). -/
theorem exec_of_ready {i : Instr} {s : State} {b : Bfu} {ra rb : Word32} (hready : ready s)
    (hi : instrUnder cfg i s.bfu = whenConfigured s.bfu (complete b ra rb)) : exec i s = .next (after s b 0x00 ra rb) := by
  obtain ⟨hcfg, hflt⟩ := hready
  rw [exec_eq_instrUnder, hi, whenConfigured_ready hflt hcfg, deliver_complete]

/-! ### Construction (R60) -/

/-- A construction writes every field but FLT and CAUSE, with the default configuration's values. -/
theorem construct_default (ft : FilterType) (b : Bfu) :
    construct cfg ft b =
      { cfg := true, flt := b.flt, ft := ft, cause := b.cause,
        cut := f32 0x447A0000, q := f32 0x3F34FDF4, cutmod := f32 0x00000000, qmod := f32 0x00000000,
        xl1 := f32 0x00000000, xl2 := f32 0x00000000, yl1 := f32 0x00000000, yl2 := f32 0x00000000,
        xr1 := f32 0x00000000, xr2 := f32 0x00000000, yr1 := f32 0x00000000, yr2 := f32 0x00000000 } := rfl

/-- INIT with a tag that names a filter type constructs the unit, whether or not it was constructed before. -/
theorem exec_init_of_known {tag : Word32} {ft : FilterType} {s : State} (hflt : s.bfu.flt = false)
    (htag : filterOf tag = some ft) : exec (.init tag) s = .next (after s (construct cfg ft s.bfu) 0x00 0 0) := by
  rw [exec_eq_instrUnder, instrUnder, initUnder, whenUnfaulted_unfaulted hflt, htag, deliver_complete]

/-- Settles O21: each tag names its filter type, and the construction leaves FLT, which is 0. -/
theorem initConstructsAfresh : Obligations.InitConstructsAfresh := by
  intro s tag hflt htag
  have hft : filterOf tag = some (if tag = 0 then .lowPass else .highPass) := by
    rcases htag with rfl | rfl <;> rfl
  rw [exec_init_of_known hflt hft, construct_default, hflt]

/-! ### Base parameters (R61, R62) -/

/-- Settles O22: SETCUT passes the checks on a ready unit and writes the clamped operand. -/
theorem setcutClampsBase : Obligations.SetcutClampsBase := by
  intro s v hready
  rw [← clamp_cfg]
  exact exec_of_ready hready rfl

/-- Settles O23: SETQ passes the checks on a ready unit and writes the clamped operand. -/
theorem setqClampsBase : Obligations.SetqClampsBase := by
  intro s v hready
  rw [← clamp_cfg]
  exact exec_of_ready hready rfl

/-! ### The frame of the parameter and modulation commands -/

/-- A property the unit has is kept by a command that needs a constructed unit if the command establishes it when it executes,
and the fault entry does so on the one unit that takes it, unfaulted and not constructed (R103, R106). -/
theorem whenConfigured_keeps_of_unbuilt (P : BfuOf V → Prop) {b : BfuOf V} {run : Reply V} (hb : P b)
    (hraise : b.flt = false → b.cfg = false → P (raise .notConfigured b).bfu) (hrun : P run.bfu) :
    P (whenConfigured b run).bfu := by
  refine whenUnfaulted_keeps P hb fun hflt => ?_
  cases hcfg : b.cfg
  · exact hraise hflt hcfg
  · exact hrun

/-- The six commands that write a base parameter or an accumulator, or none (MOD.FWD). -/
def IsParameterCommand (i : Instr) : Prop :=
  (∃ v, i = .setcut v) ∨ (∃ v, i = .setq v) ∨ (∃ v, i = .modCut v) ∨ (∃ v, i = .modQ v) ∨
    (∃ g v, i = .modFwd g v) ∨ i = .clrmod

/-- What instruction `i` leaves of unit `b` in `b'` if it writes at most the parameter or the accumulators it is named for, and
takes at most the fault of an unfaulted unit that is not constructed. -/
structure ParameterFrame (i : Instr) (b b' : BfuOf V) : Prop where
  cut : (∀ v, i ≠ .setcut v) → b'.cut = b.cut
  q : (∀ v, i ≠ .setq v) → b'.q = b.q
  cutmod : (∀ v, i ≠ .modCut v) → i ≠ .clrmod → b'.cutmod = b.cutmod
  qmod : (∀ v, i ≠ .modQ v) → i ≠ .clrmod → b'.qmod = b.qmod
  delay : ∀ ch, getDelay b' ch = getDelay b ch
  cfg : b'.cfg = b.cfg
  ft : b'.ft = b.ft
  fault : b.flt = true ∨ b.cfg = true → b'.flt = b.flt ∧ b'.cause = b.cause

/-- An unchanged unit is inside every instruction's frame. -/
theorem ParameterFrame.refl (i : Instr) (b : BfuOf V) : ParameterFrame i b b :=
  ⟨fun _ => rfl, fun _ => rfl, fun _ _ => rfl, fun _ _ => rfl, fun _ => rfl, rfl, rfl, fun _ => ⟨rfl, rfl⟩⟩

/-- The checks keep a command inside its frame: a refusal writes nothing, and NotConfigured nothing but FLT and CAUSE. -/
theorem ParameterFrame.whenConfigured {i : Instr} {b : BfuOf V} {run : Reply V} (h : ParameterFrame i b run.bfu) :
    ParameterFrame i b (whenConfigured b run).bfu :=
  whenConfigured_keeps_of_unbuilt (ParameterFrame i b) (.refl i b)
    (fun hflt hcfg => { ParameterFrame.refl i b with fault := by simp [hflt, hcfg] }) h

/-- Each of the six commands writes inside its frame, in every state and under every configuration. -/
theorem parameterFrame_instrUnder (c : Cfg V) {i : Instr} (hi : IsParameterCommand i) (b : BfuOf V) :
    ParameterFrame i b (instrUnder c i b).bfu := by
  rcases hi with ⟨v, rfl⟩ | ⟨v, rfl⟩ | ⟨v, rfl⟩ | ⟨v, rfl⟩ | ⟨g, v, rfl⟩ | rfl <;> refine .whenConfigured ?_
  · exact { ParameterFrame.refl (.setcut v) b with cut := fun h => absurd rfl (h v) }
  · exact { ParameterFrame.refl (.setq v) b with q := fun h => absurd rfl (h v) }
  · exact { ParameterFrame.refl (.modCut v) b with cutmod := fun h => absurd rfl (h v) }
  · exact { ParameterFrame.refl (.modQ v) b with qmod := fun h => absurd rfl (h v) }
  · exact .refl (.modFwd g v) b
  · exact { ParameterFrame.refl .clrmod b with cutmod := fun _ h => absurd rfl h, qmod := fun _ h => absurd rfl h }

/-- Settles O34: the machine delivers what the command does to its unit, which is inside the command's frame. -/
theorem parameterCommandsFrame : Obligations.ParameterCommandsFrame := by
  intro i s t hi hexec
  rw [exec_eq_instrUnder] at hexec
  obtain ⟨hbfu, hpending, -⟩ := deliver_next hexec
  have hframe := parameterFrame_instrUnder cfg hi s.bfu
  rw [← hbfu] at hframe
  obtain ⟨hcut, hq, hcutmod, hqmod, hdelay, hcfg, hft, hfault⟩ := hframe
  exact ⟨hcut, hq, hcutmod, hqmod, hdelay .left, hdelay .right, hcfg, hft, hfault, hpending⟩

end Sys2Proof.Machine
end

section
/-! SUPPORT. Proofs: zeros, ones and bounds in the arithmetic of every format (spec/00_scope.md R5): what an operand that is a
zero or a one leaves, and what a value between two finite values is. -/

namespace Sys2Proof.Machine

open Sys2Proof.Safety (exactValue within)

variable {k : Format}

/-! ### Zeros -/

/-- A finite value without magnitude is the zero of its sign. -/
theorem fin_eq_zeroOf {neg : Bool} {e : Fin (k.expTop + 1)} {m : BitVec k.fracBits} (h : magnitude e m = 0) :
    (.fin neg e m : Flt k) = zeroOf neg := by
  rw [← roundNearest_exact neg e m Nat.one_pos (by rw [h] : 0 = magnitude e m * 1), roundNearest_zero neg Nat.one_pos, zeroOf]

/-- A number of units that is a finite value's, not zero, rounds to that value. -/
theorem roundInt_exact (zeroNeg neg : Bool) {e : Fin (k.expTop + 1)} {m : BitVec k.fracBits} (h : magnitude e m ≠ 0) :
    roundInt zeroNeg (signedInt neg (magnitude e m)) = .fin neg e m := by
  rw [roundInt, if_neg (mt signedInt_eq_zero.1 h), signedInt_neg_iff (.inl h)]
  refine roundNearest_exact neg e m Nat.one_pos ?_
  rw [Nat.mul_one, ← Int.natAbs_abs, abs_signedInt, Int.natAbs_natCast]

/-- The sum of two zeros is -0 only if both are. -/
theorem fltAdd_zeroOf_zeroOf (n n' : Bool) : fltAdd (zeroOf n) (zeroOf n' : Flt k) = zeroOf (n && n') :=
  fltAdd_exact_zero (by rw [← zeroOf, ← zeroOf, exactValue_zeroOf, exactValue_zeroOf, add_zero])

/-- A zero changes nothing it is added to but the sign of -0. -/
theorem fltAdd_zeroOf {a : Flt k} (n : Bool) (ha : a ≠ zeroOf true) : fltAdd a (zeroOf n) = a := by
  cases a with
  | nan => rfl
  | inf neg => rfl
  | fin neg e m =>
    by_cases h : magnitude e m = 0
    · rw [fin_eq_zeroOf h] at ha ⊢
      cases neg
      · rw [fltAdd_zeroOf_zeroOf, Bool.false_and]
      · exact absurd rfl ha
    · rw [zeroOf, fltAdd_fin, magnitude_zero, signedInt_zero, Int.add_zero, roundInt_exact _ _ h]

/-- Added to +0, -0 becomes +0 and every other value stays. -/
theorem fltAdd_posZero (a : Flt k) : fltAdd (zeroOf false) a = if a = zeroOf true then zeroOf false else a := by
  split
  · rename_i h
    rw [h, fltAdd_zeroOf_zeroOf, Bool.false_and]
  · rename_i h
    rw [fltAdd_comm, fltAdd_zeroOf false h]

/-- Nothing added to +0 gives -0. -/
theorem fltAdd_posZero_ne (a : Flt k) : fltAdd (zeroOf false) a ≠ zeroOf true := by
  rw [fltAdd_posZero]
  split
  · simp [zeroOf]
  · assumption

/-- Two summands taken to +0 in either order: a -0 among them adds nothing, and two others are added (spec/90_conflicts.md
C5). -/
theorem fltAdd_posZero_comm (a b : Flt k) :
    fltAdd (fltAdd (zeroOf false) a) b = fltAdd (fltAdd (zeroOf false) b) a := by
  by_cases ha : a = zeroOf true
  · rw [fltAdd_posZero a, if_pos ha, ha, fltAdd_zeroOf true (fltAdd_posZero_ne b)]
  · by_cases hb : b = zeroOf true
    · rw [fltAdd_posZero b, if_pos hb, hb, fltAdd_zeroOf true (fltAdd_posZero_ne a)]
    · rw [fltAdd_posZero a, if_neg ha, fltAdd_posZero b, if_neg hb, fltAdd_comm]

/-- A value above zero is finite with the positive sign. -/
theorem eq_fin_of_exactValue_pos {a : Flt k} (h : 0 < exactValue a) : ∃ e m, a = .fin false e m := by
  cases a with
  | nan => exact absurd h (lt_irrefl 0)
  | inf neg => exact absurd h (lt_irrefl 0)
  | fin neg e m =>
    cases neg
    · exact ⟨e, m, rfl⟩
    · have hle : exactValue (.fin true e m) ≤ 0 := by
        rw [← Bool.not_false, ← fltNeg, exactValue_fltNeg, exactValue_fin, signedInt, if_neg Bool.false_ne_true, Int.cast_natCast]
        exact neg_nonpos.2 (by positivity)
      exact absurd h (not_lt.2 hle)

/-! ### Order and bounds -/

/-- What is not above a value is below everything above that value. -/
theorem fltLt_of_not_lt_of_lt {a b c : Flt k} (ha : a ≠ .nan) (hab : fltLt b a = false) (hbc : fltLt b c = true) :
    fltLt a c = true := by
  obtain ⟨x, hx⟩ := Option.ne_none_iff_exists'.1 (mt rank_eq_none.1 ha)
  cases hy : rank b with
  | none => simp [fltLt, hy] at hbc
  | some y =>
    cases hz : rank c with
    | none => simp [fltLt, hz] at hbc
    | some z =>
      rw [fltLt_rank hy hx, decide_eq_false_iff_not] at hab
      rw [fltLt_rank hy hz, decide_eq_true_eq] at hbc
      rw [fltLt_rank hx hz, decide_eq_true_eq]
      omega

/-- The comparison is one-sided. -/
theorem fltLt_asymm {a b : Flt k} (h : fltLt a b = true) : fltLt b a = false := by
  cases hx : rank a with
  | none => simp [fltLt, hx] at h
  | some x =>
    cases hy : rank b with
    | none => simp [fltLt, hy] at h
    | some y =>
      rw [fltLt_rank hx hy, decide_eq_true_eq] at h
      rw [fltLt_rank hy hx, decide_eq_false_iff_not]
      omega

/-- A finite value's place in the order is strictly between those of the infinities. -/
theorem abs_signedInt_magnitude_lt (neg : Bool) (e : Fin (k.expTop + 1)) (m : BitVec k.fracBits) :
    |signedInt neg (magnitude e m)| < 2 ^ (k.expTop + k.fracBits) := by
  rw [abs_signedInt]
  exact_mod_cast magnitude_lt e m

/-- Every finite value is below +Inf. -/
theorem fltLt_inf_of_finite {a : Flt k} (h : fltFinite a = true) : fltLt a (.inf false) = true := by
  obtain ⟨neg, e, m, rfl⟩ := fltFinite_iff.1 h
  rw [fltLt_rank rfl rfl, decide_eq_true_eq]
  exact (abs_lt.1 (abs_signedInt_magnitude_lt neg e m)).2

/-- Every finite value is above -Inf. -/
theorem fltLt_negInf_of_finite {a : Flt k} (h : fltFinite a = true) : fltLt (.inf true) a = true := by
  obtain ⟨neg, e, m, rfl⟩ := fltFinite_iff.1 h
  rw [fltLt_rank rfl rfl, decide_eq_true_eq]
  exact (abs_lt.1 (abs_signedInt_magnitude_lt neg e m)).1

theorem within_iff {lo hi v : F} : within lo hi v = true ↔ fltLt v lo = false ∧ fltLt hi v = false := by
  simp [within]

/-- What is no NaN and not outside two finite bounds is finite and between them. -/
theorem finite_of_within {lo hi v : F} (hlo : fltFinite lo = true) (hhi : fltFinite hi = true) (hnan : v ≠ .nan)
    (h : within lo hi v = true) : fltFinite v = true ∧ exactValue lo ≤ exactValue v ∧ exactValue v ≤ exactValue hi := by
  obtain ⟨hge, hle⟩ := within_iff.1 h
  cases v with
  | nan => exact absurd rfl hnan
  | inf neg =>
    cases neg
    · rw [fltLt_inf_of_finite hhi] at hle
      cases hle
    · rw [fltLt_negInf_of_finite hlo] at hge
      cases hge
  | fin neg e m => exact ⟨rfl, (fltLt_eq_false_iff rfl hlo).1 hge, (fltLt_eq_false_iff hhi rfl).1 hle⟩

/-! ### Binary32 -/

theorem f32_zero : f32 0x00000000 = zeroOf false := by decide

/-- A finite value times one is that value. -/
theorem fltMul_one {a : F} (ha : fltFinite a = true) : fltMul a (f32 0x3F800000) = a := by
  obtain ⟨neg, e, m, rfl⟩ := fltFinite_iff.1 ha
  have hone : f32 0x3F800000 = .fin false 127 0 := by decide
  have hmag : magnitude (k := binary32) 127 0 = 2 ^ 149 := by decide +kernel
  rw [hone, fltMul_fin, hmag, Bool.bne_false]
  exact roundNearest_exact neg e m (Nat.two_pow_pos 149) rfl

end Sys2Proof.Machine
end

section
/-! SUPPORT. Proofs: the effective cutoff and the effective Q (spec/41_modulation.md R74, R75). -/

namespace Sys2Proof.Machine

open Sys2Proof.Safety (exactValue within)

/-! ### A clamp's corner cases (R7) -/

@[simp] theorem clamp_nan (lo hi : F) : clamp cfg .nan lo hi = .nan :=
  clamp_inside (fltLt_nan_left lo) (fltLt_nan_right hi)

/-- A value within the bounds is not changed by a clamp. -/
theorem clamp_within {lo hi v : F} (h : within lo hi v = true) : clamp cfg v lo hi = v := by
  obtain ⟨hge, hle⟩ := within_iff.1 h
  exact clamp_inside hge hle

/-! ### The effective Q -/

/-- The effective Q of the default configuration is the clamped sum. -/
theorem effQ_eq (q qmod : F) :
    effQ cfg q qmod = clamp cfg (fltAdd q qmod) (f32 0x3DCCCCCD) (f32 0x41A00000) := rfl

theorem effQ_within (q qmod : F) : within (f32 0x3DCCCCCD) (f32 0x41A00000) (effQ cfg q qmod) = true :=
  within_clamp (fltAdd q qmod) (by decide) (by decide)

/-- What is no NaN and not outside the Q's clamp is a finite value from its least to 20. -/
theorem q_bounds {q : F} (hnan : q ≠ .nan) (h : within (f32 0x3DCCCCCD) (f32 0x41A00000) q = true) :
    fltFinite q = true ∧ exactValue (f32 0x3DCCCCCD) ≤ exactValue q ∧ exactValue q ≤ 20 := by
  have h20 : exactValue (f32 0x41A00000) = 20 := by decide +kernel
  have hq := finite_of_within (by decide) (by decide) hnan h
  rwa [h20] at hq

theorem qMin_pos : 0 < exactValue (f32 0x3DCCCCCD) := by decide +kernel

/-- Twice a Q inside the clamp, the design's divisor (R80), is positive and finite. -/
theorem twice_q_pos_finite {q : F} (hnan : q ≠ .nan) (h : within (f32 0x3DCCCCCD) (f32 0x41A00000) q = true) :
    fltLt (f32 0x00000000) (fltMul (f32 0x40000000) q) = true ∧ fltFinite (fltMul (f32 0x40000000) q) = true := by
  have h2 : exactValue (f32 0x40000000) = 2 := by decide +kernel
  have h40 : exactValue (f32 0x42200000) = 40 := by decide +kernel
  have hmin := qMin_pos
  obtain ⟨hfin, hge, hle⟩ := q_bounds hnan h
  have hround := fltMul_roundsTo (a := f32 0x40000000) (by decide) hfin (by rw [h2]; linarith)
  rw [h2] at hround
  obtain ⟨hfin', hge', -⟩ := roundsTo_between (a := f32 0x3DCCCCCD) (b := f32 0x42200000) hround (by decide) (by decide)
    (by rw [abs_of_pos (by linarith)]; linarith) (by linarith) (by rw [h40]; linarith)
  refine ⟨?_, hfin'⟩
  rw [fltLt_iff (by decide) hfin', f32_zero, exactValue_zeroOf]
  linarith

/-- A zero accumulator leaves a base inside the clamp. -/
theorem effQ_zero {q : F} (h : within (f32 0x3DCCCCCD) (f32 0x41A00000) q = true) :
    effQ cfg q (f32 0x00000000) = q := by
  have hne : q ≠ zeroOf true := fun e => by
    rw [e] at h
    exact absurd h (by decide)
  rw [effQ_eq, f32_zero, fltAdd_zeroOf false hne, clamp_within h]

/-- An infinite accumulator takes a finite base to the bound. -/
theorem effQ_inf {q : F} (h : fltFinite q = true) :
    effQ cfg q (.inf true) = f32 0x3DCCCCCD ∧ effQ cfg q (.inf false) = f32 0x41A00000 := by
  obtain ⟨neg, e, m, rfl⟩ := fltFinite_iff.1 h
  have hlo : clamp cfg (.inf true) (f32 0x3DCCCCCD) (f32 0x41A00000) = f32 0x3DCCCCCD := by decide +kernel
  have hhi : clamp cfg (.inf false) (f32 0x3DCCCCCD) (f32 0x41A00000) = f32 0x41A00000 := by decide +kernel
  exact ⟨hlo, hhi⟩

/-- Settles O41: the clamp's definition and its bounds, the divisor inside twice the bounds, the corner cases, and the three
vectors, run. -/
theorem effectiveQClamped : Obligations.EffectiveQClamped := by
  refine ⟨fun _ _ => clamp_cfg _ _ _, fun q qmod => .inr (within_iff.1 (effQ_within q qmod)),
    fun q qmod hnan => twice_q_pos_finite hnan (effQ_within q qmod), fun q hnan h => ?_, fun v => ?_, ?_, ?_, ?_⟩
  · obtain ⟨hfin, -, -⟩ := q_bounds hnan h
    obtain ⟨hlo, hhi⟩ := effQ_inf hfin
    exact ⟨effQ_zero h, hlo, hhi⟩
  · rw [effQ_eq, effQ_eq, fltAdd_nan_right, fltAdd_nan_left, clamp_nan]
    exact ⟨rfl, rfl⟩
  · decide +kernel
  · decide +kernel
  · decide +kernel

/-! ### The effective cutoff -/

/-- Half the default sample rate is 22050. -/
theorem nyquist_eq : fltDiv (f32 0x472C4400) (f32 0x40000000) = f32 0x46AC4400 := by decide +kernel

/-- The cutoff's upper clamp is below half the sample rate (R4). -/
theorem fHi_lt_nyquist : fltLt (f32 0x469C4000) (f32 0x46AC4400) = true := by decide +kernel

/-- The effective cutoff of the default configuration: the base scaled, held under half the sample rate, and clamped. -/
theorem effCut_eq (cut cutmod : F) :
    effCut cfg cut cutmod =
      clamp cfg (minNyquist cfg (fltMul cut (cfg.num.fexp2 (fltDiv cutmod (f32 0x41400000)))) (f32 0x46AC4400))
        (f32 0x40A00000) (f32 0x469C4000) := by
  simp only [effCut, cfg_fdiv, cfg_fmul, cfg_twelve, cfg_fs, cfg_two, cfg_fLo, cfg_fHi, nyquist_eq]

theorem effCut_within (cut cutmod : F) : within (f32 0x40A00000) (f32 0x469C4000) (effCut cfg cut cutmod) = true :=
  within_clamp _ (by decide) (by decide)

/-- What is inside the cutoff's clamp is below half the sample rate. -/
theorem lt_nyquist_of_within {v : F} (hnan : v ≠ .nan) (h : within (f32 0x40A00000) (f32 0x469C4000) v = true) :
    fltLt v (f32 0x46AC4400) = true := by
  obtain ⟨-, hle⟩ := within_iff.1 h
  exact fltLt_of_not_lt_of_lt hnan hle fHi_lt_nyquist

/-- Settles O40: a clamp's answer is not outside its bounds, and the upper bound is below half the sample rate. -/
theorem effectiveCutoffInRange : Obligations.EffectiveCutoffInRange := by
  intro cut cutmod
  have hwithin := effCut_within cut cutmod
  by_cases hnan : effCut cfg cut cutmod = .nan
  · exact .inl hnan
  · obtain ⟨hge, hle⟩ := within_iff.1 hwithin
    rw [nyquist_eq]
    exact .inr ⟨hge, hle, lt_nyquist_of_within hnan hwithin⟩

/-- Half the sample rate holds down nothing that is inside the clamp. -/
theorem minNyquist_within {v : F} (hnan : v ≠ .nan) (h : within (f32 0x40A00000) (f32 0x469C4000) v = true) :
    minNyquist cfg v (f32 0x46AC4400) = v := by
  rw [minNyquist, cfg_lt, fltLt_asymm (lt_nyquist_of_within hnan h), if_neg Bool.false_ne_true]

/-- A NaN is held down by nothing. -/
@[simp] theorem minNyquist_nan (ny : F) : minNyquist cfg .nan ny = .nan := by
  rw [minNyquist, cfg_lt, fltLt_nan_right, if_neg Bool.false_ne_true]

@[simp] theorem cfg_fexp2_nan : cfg.num.fexp2 .nan = .nan := rfl
@[simp] theorem cfg_fexp2_inf : cfg.num.fexp2 (.inf false) = .inf false := rfl
@[simp] theorem cfg_fexp2_negInf : cfg.num.fexp2 (.inf true) = zeroOf false := rfl

/-- A zero accumulator leaves a base inside the clamp: its factor is exactly 1 (R6 P3). -/
theorem effCut_zero {cut : F} (hnan : cut ≠ .nan) (h : within (f32 0x40A00000) (f32 0x469C4000) cut = true) :
    effCut cfg cut (f32 0x00000000) = cut := by
  obtain ⟨hfin, -, -⟩ := cutoff_bounds hnan h
  have hquot : fltDiv (f32 0x00000000) (f32 0x41400000) = f32 0x00000000 := by decide +kernel
  obtain ⟨-, hgain⟩ := sineCosineBounded
  rw [effCut_eq, hquot, hgain, fltMul_one hfin, minNyquist_within hnan h, clamp_within h]

/-- An infinite accumulator takes a base above zero to the bound: its factor is +Inf or +0. -/
theorem effCut_inf {cut : F} (h : 0 < exactValue cut) :
    effCut cfg cut (.inf false) = f32 0x469C4000 ∧ effCut cfg cut (.inf true) = f32 0x40A00000 := by
  obtain ⟨e, m, rfl⟩ := eq_fin_of_exactValue_pos h
  have hup : fltDiv (.inf false) (f32 0x41400000) = .inf false := by decide
  have hdown : fltDiv (.inf true) (f32 0x41400000) = .inf true := by decide
  have hzero : fltMul (.fin false e m) (zeroOf false : F) = zeroOf false :=
    fltMul_exact_zero (by rw [← zeroOf, exactValue_zeroOf, mul_zero])
  rw [effCut_eq, effCut_eq, hup, hdown, cfg_fexp2_inf, cfg_fexp2_negInf, fltMul_inf_right, if_neg h.ne', hzero]
  exact ⟨by decide +kernel, by decide +kernel⟩

/-- Settles O42: the corner cases by the factor of an infinity and of a NaN, and the spec's seven vectors, run; each enclosure
of a power rounds to one value at both ends, so that the free choice is not asked. -/
theorem effectiveCutoffCorners : Obligations.EffectiveCutoffCorners := by
  refine ⟨fun cut hnan h => ?_, fun v => ?_, ?_, ?_, ?_, ?_, ?_, ?_, ?_⟩
  · obtain ⟨-, h5, -⟩ := cutoff_bounds hnan h
    exact effCut_inf (by linarith)
  · rw [effCut_eq, effCut_eq]
    simp
  · decide +kernel
  · decide +kernel
  · decide +kernel
  · decide +kernel
  · decide +kernel
  · decide +kernel
  · decide +kernel

end Sys2Proof.Machine
end

section
/-! SUPPORT. Proofs: the modulation commands on a ready unit (spec/41_modulation.md R70 to R73) and the order of routes
(spec/90_conflicts.md C5). -/

namespace Sys2Proof.Machine

open Sys2Proof.Safety (after ready execAll)

/-! ### Each command -/

/-- Settles O24: MOD.CUT passes the checks on a ready unit and completes with the sum. -/
theorem modCutAccumulates : Obligations.ModCutAccumulates :=
  fun _ _ hready => exec_of_ready hready rfl

/-- Settles O25: MOD.Q passes the checks on a ready unit and completes with the sum. -/
theorem modQAccumulates : Obligations.ModQAccumulates :=
  fun _ _ hready => exec_of_ready hready rfl

/-- Settles O26: MOD.FWD passes the checks on a ready unit and completes with the unit it met. -/
theorem modFwdChangesNothing : Obligations.ModFwdChangesNothing :=
  fun _ _ _ hready => exec_of_ready hready rfl

/-- Settles O27: CLRMOD passes the checks on a ready unit and completes with both accumulators cleared. -/
theorem clrmodClearsAccumulators : Obligations.ClrmodClearsAccumulators :=
  fun _ hready => exec_of_ready hready rfl

/-- Settles O43: with both accumulators +0.0 the two effective parameters are the bases, which CLRMOD leaves. -/
theorem clrmodRestoresBaseParameters : Obligations.ClrmodRestoresBaseParameters := by
  intro s hready hcutNan _ hcut hq
  exact ⟨_, clrmodClearsAccumulators s hready, effCut_zero hcutNan hcut, effQ_zero hq⟩

/-! ### Two routes after CLRMOD -/

/-- CLRMOD and two MOD.CUT on a ready unit: the two operands taken to +0.0 in order, each sum rounded. -/
theorem execAll_two_modCut {s : State} (hready : ready s) (v w : Word32) :
    ∃ t, execAll [.clrmod, .modCut v, .modCut w] s = .next t ∧
      t.bfu = { s.bfu with cutmod := fltAdd (fltAdd (f32 0x00000000) (f32 v)) (f32 w), qmod := f32 0x00000000 } := by
  rw [execAll_cons_next (clrmodClearsAccumulators s hready), execAll_cons_next (modCutAccumulates _ v ?_),
    execAll_cons_next (modCutAccumulates _ w ?_)]
  · exact ⟨_, rfl, rfl⟩
  · exact hready
  · exact hready

/-- CLRMOD and two MOD.Q on a ready unit. -/
theorem execAll_two_modQ {s : State} (hready : ready s) (v w : Word32) :
    ∃ t, execAll [.clrmod, .modQ v, .modQ w] s = .next t ∧
      t.bfu = { s.bfu with cutmod := f32 0x00000000, qmod := fltAdd (fltAdd (f32 0x00000000) (f32 v)) (f32 w) } := by
  rw [execAll_cons_next (clrmodClearsAccumulators s hready), execAll_cons_next (modQAccumulates _ v ?_),
    execAll_cons_next (modQAccumulates _ w ?_)]
  · exact ⟨_, rfl, rfl⟩
  · exact hready
  · exact hready

/-- Settles O45: two operands taken to +0.0 commute in every format; the three amounts of C5, added in both orders, run. -/
theorem twoRoutesCommute : Obligations.TwoRoutesCommute := by
  refine ⟨fun s v w hready => ?_, ?_, ?_⟩
  · obtain ⟨t, ht, htb⟩ := execAll_two_modCut hready v w
    obtain ⟨u, hu, hub⟩ := execAll_two_modCut hready w v
    obtain ⟨t', ht', htb'⟩ := execAll_two_modQ hready v w
    obtain ⟨u', hu', hub'⟩ := execAll_two_modQ hready w v
    have hcomm : fltAdd (fltAdd (f32 0x00000000) (f32 v)) (f32 w) = fltAdd (fltAdd (f32 0x00000000) (f32 w)) (f32 v) := by
      rw [f32_zero, fltAdd_posZero_comm]
    exact ⟨t, u, t', u', ht, hu, by rw [htb, hub, hcomm], ht', hu', by rw [htb', hub', hcomm]⟩
  · decide +kernel
  · decide +kernel

end Sys2Proof.Machine
end

section
/-! SUPPORT. Proofs: designs and outputs worked out (spec/42_coefficient_design.md R80 to R85;
spec/70_reset_and_hazards.md R132). The cosine and sine of a cutoff's angle are evaluated once, and every design at that cutoff
from them. -/

namespace Sys2Proof.Machine

/-! ### A design from the cosine and sine of its angle -/

/-- The coefficients from the rounded cosine and sine of the angle (R80, R81, R82). -/
def designOf (ft : FilterType) (cw sw q : F) : Coeffs F :=
  let alpha := fltDiv sw (fltMul (f32 0x40000000) q)
  let a0u := fltAdd (f32 0x3F800000) alpha
  let t := numeratorBase cfg ft cw
  let b0 := fltDiv (fltDiv t (f32 0x40000000)) a0u
  { b0 := b0
    b1 := fltDiv (numeratorMid cfg ft t) a0u
    b2 := b0
    a1 := fltDiv (fltMul (f32 0xC0000000) cw) a0u
    a2 := fltDiv (fltSub (f32 0x3F800000) alpha) a0u }

/-- `cw` and `sw` are the rounded cosine and sine of the angle of a design at `fc`. -/
def HasTrig (fc cw sw : F) : Prop := cfg.num.fcos (designAngle fc) = cw ∧ cfg.num.fsin (designAngle fc) = sw

theorem design_of_trig {fc cw sw : F} (h : HasTrig fc cw sw) (ft : FilterType) (q : F) :
    design cfg ft fc q = designOf ft cw sw q := by
  obtain ⟨rfl, rfl⟩ := h
  rfl

theorem hasTrig_5 : HasTrig (f32 0x40A00000) (f32 0x3F7FFFFC) (f32 0x3A3ABEF6) := by
  constructor <;> decide +kernel

theorem hasTrig_1000 : HasTrig (f32 0x447A0000) (f32 0x3F7D67F4) (f32 0x3E1166F5) := by
  constructor <;> decide +kernel

theorem hasTrig_20000 : HasTrig (f32 0x469C4000) (f32 0xBF752872) (f32 0x3E936CE8) := by
  constructor <;> decide +kernel

/-! ### The default designs -/

/-- Settles O58: the coefficients from the cosine and sine at 1000 Hz. -/
theorem designVectors : Obligations.DesignVectors := by
  unfold Obligations.DesignVectors
  rw [design_of_trig hasTrig_1000, design_of_trig hasTrig_1000]
  constructor <;> decide +kernel

/-! ### Stability -/

/-- The test of R84 on a rounded denominator, in units of the format: |a2| < 1 and |a1| < 1 + a2. A NaN fails it,
and so does an infinity, whose rank is beyond every finite one. -/
def insideTriangle (a1 a2 : F) : Bool :=
  (rank a1).any fun x1 => (rank a2).any fun x2 =>
    -(2 ^ 149 : Int) < x2 ∧ x2 < 2 ^ 149 ∧ -(2 ^ 149 + x2) < x1 ∧ x1 < 2 ^ 149 + x2

theorem rank_of_insideTriangle {a1 a2 : F} (h : insideTriangle a1 a2 = true) :
    ∃ x1 x2 : Int, rank a1 = some x1 ∧ rank a2 = some x2 ∧
      -(2 ^ 149 : Int) < x2 ∧ x2 < 2 ^ 149 ∧ -(2 ^ 149 + x2) < x1 ∧ x1 < 2 ^ 149 + x2 := by
  obtain ⟨x1, h1, h⟩ := (Option.any_eq_true _ _).1 h
  obtain ⟨x2, h2, h⟩ := (Option.any_eq_true _ _).1 h
  exact ⟨x1, x2, h1, h2, of_decide_eq_true h⟩

/-- The denominator is the same for both filter types, whose rules differ in the numerator only (R81, R82). -/
theorem designOf_denominator (ft : FilterType) (cw sw q : F) :
    (designOf ft cw sw q).a1 = (designOf .lowPass cw sw q).a1 ∧ (designOf ft cw sw q).a2 = (designOf .lowPass cw sw q).a2 :=
  ⟨rfl, rfl⟩

/-- The low-pass denominator passes the test at one cutoff for every Q of a list. -/
def stableAt (qs : List F) (cw sw : F) : Bool :=
  qs.all fun q => insideTriangle (designOf .lowPass cw sw q).a1 (designOf .lowPass cw sw q).a2

theorem insideTriangle_of_stableAt {fc cw sw q : F} {qs : List F} (htrig : HasTrig fc cw sw)
    (h : stableAt qs cw sw = true) (ft : FilterType) (hq : q ∈ qs) :
    insideTriangle (design cfg ft fc q).a1 (design cfg ft fc q).a2 = true := by
  obtain ⟨h1, h2⟩ := designOf_denominator ft cw sw q
  rw [design_of_trig htrig, h1, h2]
  exact List.all_eq_true.1 h q hq

/-- Settles O59: the cosine and sine of each of the three cutoffs, then the three Q at once, for the denominator both types
share. -/
theorem cornerDesignsStable : Obligations.CornerDesignsStable := by
  intro ft fc hfc q hq
  apply rank_of_insideTriangle
  simp only [List.mem_cons, List.not_mem_nil, or_false] at hfc
  rcases hfc with rfl | rfl | rfl
  · exact insideTriangle_of_stableAt hasTrig_5 (by decide +kernel) ft hq
  · exact insideTriangle_of_stableAt hasTrig_1000 (by decide +kernel) ft hq
  · exact insideTriangle_of_stableAt hasTrig_20000 (by decide +kernel) ft hq

/-! ### Settled outputs -/

/-- A channel that holds a constant input and a constant output keeps its registers if it answers that output again (R90). -/
theorem biquadStep_settled {V : Type} {c : Config.Cfg V} {k : Coeffs V} {x y : V}
    (h : (biquadStep c k { x1 := x, x2 := x, y1 := y, y2 := y } x).1 = y) :
    biquadStep c k { x1 := x, x2 := x, y1 := y, y2 := y } x = (y, { x1 := x, x2 := x, y1 := y, y2 := y }) :=
  Prod.ext h (congrArg (fun z => ({ x1 := x, x2 := x, y1 := z, y2 := y } : Delay V)) h)

/-- Settles O60: under a constant 1.0 each default design answers its held output again, run on the coefficients of
`designVectors`. -/
theorem settledOutputsAreFixed : Obligations.SettledOutputsAreFixed := by
  obtain ⟨hlow, hhigh⟩ := designVectors
  intro ft
  apply biquadStep_settled
  cases ft with
  | lowPass =>
    rw [hlow]
    decide +kernel
  | highPass =>
    rw [hhigh]
    decide +kernel

end Sys2Proof.Machine
end

section
/-! SUPPORT. Proofs: the evaluation of a sample (spec/43_evaluation.md R90 to R92): what PROC and STEP answer on a ready unit,
what they leave unchanged in every state, and that PROC is a STEP of each channel, neither of which sees the other. -/

namespace Sys2Proof.Machine

open Sys2Proof.Config (Cfg)
open Sys2Proof.Safety (after ready execAll raOf rbOf samePattern)

variable {V : Type}

/-! ### The results of a response (R44) -/

@[simp] theorem raOf_append (st : BitVec 8) (ra rb : Word32) : raOf (st ++ ra ++ rb) = ra :=
  aField_assembleWord st ra rb

@[simp] theorem rbOf_append (st : BitVec 8) (ra rb : Word32) : rbOf (st ++ ra ++ rb) = rb :=
  bField_assembleWord st ra rb

/-- One value is answered as one pattern, up to the free pattern of a NaN (U7). -/
theorem samePattern_bits32 (free free' : Word32) (v : F) : samePattern (bits32 free v) (bits32 free' v) := by
  cases v with
  | nan => exact .inr ⟨isNanPattern_nanPattern free, isNanPattern_nanPattern free'⟩
  | inf neg => exact .inl rfl
  | fin neg e m => exact .inl rfl

/-! ### PROC and STEP on a ready unit (R91, R92) -/

/-- PROC on a ready unit, by the steps of its two channels. -/
theorem exec_proc_of_ready {s : State} (hready : ready s) (l r : Word32) :
    exec (.proc l r) s = .next (after s
      (setDelay (setDelay s.bfu (stepChannel cfg s.bfu .left (f32 l)).2 .left)
        (stepChannel cfg s.bfu .right (f32 r)).2 .right) 0x00
      (bits32 (Config.freeNan s.bfu (.proc l r) .ra) (stepChannel cfg s.bfu .left (f32 l)).1)
      (bits32 (Config.freeNan s.bfu (.proc l r) .rb) (stepChannel cfg s.bfu .right (f32 r)).1)) :=
  exec_of_ready hready rfl

/-- STEP on a ready unit, by the step of its channel. -/
theorem exec_step_of_ready {s : State} (hready : ready s) (ch : Channel) (x : Word32) :
    exec (.step ch x) s = .next (after s (setDelay s.bfu (stepChannel cfg s.bfu ch (f32 x)).2 ch) 0x00
      (bits32 (Config.freeNan s.bfu (.step ch x) .ra) (stepChannel cfg s.bfu ch (f32 x)).1) 0) :=
  exec_of_ready hready rfl

/-- Settles O29: the step of the selected channel, its registers written out. -/
theorem stepStepsOneChannel : Obligations.StepStepsOneChannel :=
  fun _ x hready => ⟨exec_step_of_ready hready .left x, exec_step_of_ready hready .right x⟩

/-! ### The design written out (R74, R81, R82) -/

theorem numeratorBase_cfg (ft : FilterType) (cw : F) :
    numeratorBase cfg ft cw =
      if ft = .lowPass then fltSub (f32 0x3F800000) cw else fltAdd (f32 0x3F800000) cw := by
  cases ft <;> rfl

theorem numeratorMid_cfg (ft : FilterType) (t : F) :
    numeratorMid cfg ft t = if ft = .lowPass then t else fltNeg t := by
  cases ft <;> rfl

/-- `fmin_ny` of the default configuration (R7). -/
theorem minNyquist_cfg (f ny : F) : minNyquist cfg f ny = if fltLt ny f = true then ny else f := rfl

/-- Settles O28: the effective parameters and then the coefficients are those the claim writes out, and each channel is
stepped with them. -/
theorem procStepsBothChannels : Obligations.ProcStepsBothChannels := by
  intro s l r hready n b f ny fn ecut qq eq w0 alpha a0u a1 a2 t b1 b0 biquad yl yr
  have hecut : effCut cfg s.bfu.cut s.bfu.cutmod = ecut := by
    rw [effCut_eq, ← nyquist_eq, minNyquist_cfg, clamp_cfg]
  have heq : effQ cfg s.bfu.q s.bfu.qmod = eq := by
    rw [effQ_eq, clamp_cfg]
  have hcoeffs : coeffsOf cfg s.bfu = { b0 := b0, b1 := b1, b2 := b0, a1 := a1, a2 := a2 } := by
    rw [coeffsOf, ecutOf, eqOf, hecut, heq, design_of_trig ⟨rfl, rfl⟩, designOf, numeratorBase_cfg, numeratorMid_cfg]
    rfl
  rw [exec_proc_of_ready hready, stepChannel, stepChannel, hcoeffs]
  rfl

/-! ### What PROC and STEP leave unchanged -/

/-- What an evaluation of samples leaves of unit `b` in `b'`: the parameters, the accumulators and CFG and FT, and the flags
but for the fault of an unfaulted unit that is not constructed. -/
structure EvaluationFrame (b b' : BfuOf V) : Prop where
  cut : b'.cut = b.cut
  q : b'.q = b.q
  cutmod : b'.cutmod = b.cutmod
  qmod : b'.qmod = b.qmod
  cfg : b'.cfg = b.cfg
  ft : b'.ft = b.ft
  fault : b.flt = true ∨ b.cfg = true → b'.flt = b.flt ∧ b'.cause = b.cause

theorem EvaluationFrame.refl (b : BfuOf V) : EvaluationFrame b b :=
  ⟨rfl, rfl, rfl, rfl, rfl, rfl, fun _ => ⟨rfl, rfl⟩⟩

/-- Writing a channel's registers is inside the frame. -/
theorem EvaluationFrame.setDelay {b b' : BfuOf V} (h : EvaluationFrame b b') (d : Delay V) (ch : Channel) :
    EvaluationFrame b (setDelay b' d ch) := by
  cases ch <;> exact ⟨h.cut, h.q, h.cutmod, h.qmod, h.cfg, h.ft, h.fault⟩

/-- The checks keep a command inside the frame: a refusal writes nothing, and NotConfigured nothing but FLT and CAUSE. -/
theorem EvaluationFrame.whenConfigured {b : BfuOf V} {run : Reply V} (h : EvaluationFrame b run.bfu) :
    EvaluationFrame b (whenConfigured b run).bfu :=
  whenConfigured_keeps_of_unbuilt (EvaluationFrame b) (.refl b)
    (fun hflt hcfg => { EvaluationFrame.refl b with fault := by simp [hflt, hcfg] }) h

theorem evaluationFrame_procUnder (c : Cfg V) (l r : Word32) (b : BfuOf V) :
    EvaluationFrame b (procUnder c l r b).bfu :=
  .whenConfigured (((EvaluationFrame.refl b).setDelay _ .left).setDelay _ .right)

theorem evaluationFrame_stepUnder (c : Cfg V) (ch : Channel) (x : Word32) (b : BfuOf V) :
    EvaluationFrame b (stepUnder c ch x b).bfu :=
  .whenConfigured ((EvaluationFrame.refl b).setDelay _ ch)

/-- STEP leaves the other channel's registers, in every state (R92). -/
theorem stepUnder_getDelay_other (c : Cfg V) {ch ch' : Channel} (hne : ch ≠ ch') (x : Word32) (b : BfuOf V) :
    getDelay (stepUnder c ch x b).bfu ch' = getDelay b ch' :=
  whenConfigured_getDelay (getDelay_setDelay_other b _ hne)

/-- Settles O35: the machine delivers what PROC or STEP does to its unit, which is inside the frame. -/
theorem evaluationFrame : Obligations.EvaluationFrame := by
  intro i s t hi hexec
  rw [exec_eq_instrUnder] at hexec
  obtain ⟨hbfu, hpending, -⟩ := deliver_next hexec
  rw [hbfu]
  rcases hi with ⟨l, r, rfl⟩ | ⟨ch, x, rfl⟩
  · obtain ⟨hcut, hq, hcutmod, hqmod, hcfg, hft, hfault⟩ := evaluationFrame_procUnder cfg l r s.bfu
    exact ⟨hcut, hq, hcutmod, hqmod, hcfg, hft, hfault, nofun, hpending⟩
  · obtain ⟨hcut, hq, hcutmod, hqmod, hcfg, hft, hfault⟩ := evaluationFrame_stepUnder cfg ch x s.bfu
    refine ⟨hcut, hq, hcutmod, hqmod, hcfg, hft, hfault, ?_, hpending⟩
    rintro _ _ ch' ⟨⟩ hne
    exact stepUnder_getDelay_other cfg hne.symm x s.bfu

/-! ### PROC and two STEPs (R92) -/

/-- A channel's step does not see what was written to the other channel (R20). -/
theorem stepChannel_setDelay_other (c : Cfg V) (b : BfuOf V) (d : Delay V) {ch ch' : Channel} (hne : ch ≠ ch') (x : V) :
    stepChannel c (setDelay b d ch) ch' x = stepChannel c b ch' x := by
  have hframe := (EvaluationFrame.refl b).setDelay d ch
  exact stepChannel_congr hframe.ft hframe.cut hframe.q hframe.cutmod hframe.qmod (getDelay_setDelay_other b d hne) x

/-- Stepping one channel of a ready unit and then the other: each by the step the unit gave it before, whichever is first. -/
theorem execAll_step_step {s : State} (hready : ready s) {ch ch' : Channel} (hne : ch ≠ ch') (x x' : Word32) :
    ∃ t p p', execAll [.step ch x, .step ch' x'] s = .next t ∧
      t.bfu = setDelay (setDelay s.bfu (stepChannel cfg s.bfu ch (f32 x)).2 ch) (stepChannel cfg s.bfu ch' (f32 x')).2 ch' ∧
      t.port.responses = p' :: p :: s.port.responses ∧
      (∀ free, samePattern (bits32 free (stepChannel cfg s.bfu ch (f32 x)).1) (raOf p)) ∧
      (∀ free, samePattern (bits32 free (stepChannel cfg s.bfu ch' (f32 x')).1) (raOf p')) := by
  have hready' : ready (after s (setDelay s.bfu (stepChannel cfg s.bfu ch (f32 x)).2 ch) 0x00
      (bits32 (Config.freeNan s.bfu (.step ch x) .ra) (stepChannel cfg s.bfu ch (f32 x)).1) 0) := by
    cases ch <;> exact hready
  rw [execAll_cons_next (exec_step_of_ready hready ch x), execAll_cons_next (exec_step_of_ready hready' ch' x')]
  refine ⟨_, _, _, rfl, ?_, rfl, fun free => ?_, fun free => ?_⟩
  · exact congrArg (fun y : F × Delay F => setDelay _ y.2 ch') (stepChannel_setDelay_other cfg s.bfu _ hne (f32 x'))
  · rw [raOf_append]
    exact samePattern_bits32 _ _ _
  · rw [raOf_append, ← stepChannel_setDelay_other cfg s.bfu _ hne (f32 x')]
    exact samePattern_bits32 _ _ _

/-- Settles O37: PROC writes the two channels' steps together, and two STEPs write them one after the other, in either order. -/
theorem procIsTwoSteps : Obligations.ProcIsTwoSteps := by
  intro s l r hready
  obtain ⟨u, ul, ur, hu, hubfu, huresp, hul, hur⟩ := execAll_step_step hready (ch := .left) (ch' := .right) nofun l r
  obtain ⟨v, vr, vl, hv, hvbfu, hvresp, hvr, hvl⟩ := execAll_step_step hready (ch := .right) (ch' := .left) nofun r l
  refine ⟨_, u, v, _, ul, ur, vl, vr, exec_proc_of_ready hready l r, hu, hv, hubfu.symm, ?_, rfl, huresp, hvresp, ?_⟩
  · rw [hvbfu, ← setDelay_comm]
    rfl
  · rw [raOf_append, rbOf_append]
    exact ⟨hul _, hur _, hvl _, hvr _⟩

/-! ### Independence of the channels (R91, R20) -/

/-- The next state of PROC on a ready unit, read channel by channel. -/
theorem proc_next {s t : State} {l r : Word32} (hready : ready s) (h : exec (.proc l r) s = .next t) :
    getDelay t.bfu .left = (stepChannel cfg s.bfu .left (f32 l)).2 ∧
    getDelay t.bfu .right = (stepChannel cfg s.bfu .right (f32 r)).2 ∧
    ∃ p, t.port.responses = p :: s.port.responses ∧
      raOf p = bits32 (Config.freeNan s.bfu (.proc l r) .ra) (stepChannel cfg s.bfu .left (f32 l)).1 ∧
      rbOf p = bits32 (Config.freeNan s.bfu (.proc l r) .rb) (stepChannel cfg s.bfu .right (f32 r)).1 := by
  rw [exec_proc_of_ready hready] at h
  cases h
  exact ⟨rfl, rfl, _, rfl, raOf_append _ _ _, rbOf_append _ _ _⟩

/-- Settles O38: a channel's step reads the shared parameters and that channel alone, so equal ones give equal steps. -/
theorem channelsAreIndependent : Obligations.ChannelsAreIndependent := by
  intro s s' t t' l r l' r' hready hready' hft hcut hq hcutmod hqmod hexec hexec'
  obtain ⟨hleft, hright, p, hp, hra, hrb⟩ := proc_next hready hexec
  obtain ⟨hleft', hright', p', hp', hra', hrb'⟩ := proc_next hready' hexec'
  have hstep (ch : Channel) := stepChannel_congr (c := cfg) (ch := ch) hft hcut hq hcutmod hqmod
  constructor
  · rintro rfl hdelay
    rw [hleft, hleft', hstep .left hdelay]
    refine ⟨rfl, p, p', hp, hp', ?_⟩
    rw [hra, hra', hstep .left hdelay]
    exact samePattern_bits32 _ _ _
  · rintro rfl hdelay
    rw [hright, hright', hstep .right hdelay]
    refine ⟨rfl, p, p', hp, hp', ?_⟩
    rw [hrb, hrb', hstep .right hdelay]
    exact samePattern_bits32 _ _ _

end Sys2Proof.Machine
end

section
/-! SUPPORT. Proofs: housekeeping (spec/44_housekeeping.md R95, R96): what NOP and RDREG answer in every state, and what they and
a refused INIT leave unchanged (spec/60_exceptions.md R107). -/

namespace Sys2Proof.Machine

/-! ### What NOP and RDREG answer -/

/-- Settles O20: NOP completes with the unit it was given, and makes none of the checks. -/
theorem nopAnswersOk : Obligations.NopAnswersOk :=
  fun s => deliver_complete s s.bfu 0 0

/-- Settles O30: register by register, the read of a constructed unit is the value the claim names (R22 to R24, R26). -/
theorem rdregAnswersRegister : Obligations.RdregAnswersRegister := by
  intro s i b out k built
  have hbuilt : configuredReg cfg (Config.freeNan b (.rdreg i) .ra) b i = built := by
    cases i <;> rfl
  rw [exec_rdreg, regRead, hbuilt]
  rfl

/-! ### What NOP, RDREG and a refused INIT leave unchanged -/

/-- What a next state of an instruction has: the unit the instruction leaves, and the host's acts still to come as they were. -/
theorem exec_next {i : Instr} {s t : State} (h : exec i s = .next t) :
    t.bfu = (instrUnder cfg i s.bfu).bfu ∧ t.port.pending = s.port.pending := by
  rw [exec_eq_instrUnder] at h
  obtain ⟨hbfu, hpending, -⟩ := deliver_next h
  exact ⟨hbfu, hpending⟩

/-- Settles O36: NOP and RDREG complete with the unit they were given, and a faulted unit is left by every instruction. -/
theorem housekeepingFrame : Obligations.HousekeepingFrame := by
  refine fun s t => ⟨fun hnop => exec_next hnop, fun i hrdreg => exec_next hrdreg, fun tag hinit => ?_⟩
  obtain ⟨hbfu, hpending⟩ := exec_next hinit
  exact ⟨hpending, fun hflt => hbfu.trans (instrUnder_bfu_of_faulted cfg (.init tag) hflt)⟩

end Sys2Proof.Machine
end

section
/-! SUPPORT. Proofs: the answers of a command word in every state (spec/60_exceptions.md R112): the three faults (R101 to R103),
what a faulted unit refuses (R107), and a run of well-formed commands that takes no fault (R104). -/

namespace Sys2Proof.Machine

open Sys2Proof.Config (Cfg)
open Sys2Proof.Safety (after ready harmless statusOf raOf rbOf)

variable {V : Type}

/-! ### An idle step (R109) -/

/-- Settles O8: with no act to fetch, the step answers the state it was given. -/
theorem idleStepChangesNothing : Obligations.IdleStepChangesNothing :=
  fun _ hpending => step_idle hpending

/-! ### A command word (R112) -/

/-- A command word taken from the port: the machine with it taken delivers what the configuration answers (R8). -/
theorem step_eq_deliver {s : State} {w : CmdWord} {rest : List HostAct} (h : s.port.pending = .command w :: rest) :
    step s = deliver (withPending s rest) (commandUnder cfg w s.bfu) := by
  rw [step_command h, runCommand_eq_commandUnder, withPending_bfu]

/-- A fault entry, delivered, is what claims write as `after` with the cause code as the status (R106). -/
theorem deliver_raise (s : State) (k : Cause) (b : Bfu) :
    deliver s (raise k b) = .next (after s { b with flt := true, cause := causeCode k } (causeCode k) 0 0) := rfl

/-- A refusal, delivered (R107). -/
theorem deliver_refuse (s : State) (b : Bfu) :
    deliver s (refuse b) = .next (after s b 0xFF (b.cause.setWidth 32) 0) := rfl

/-- The cause codes are the statuses 1 to 3 (R100, R44). -/
theorem causeCode_cases (k : Cause) : causeCode k = 0x01 ∨ causeCode k = 0x02 ∨ causeCode k = 0x03 := by
  cases k <;> decide

/-- Settles O11: the reply ends in one of the three ways, and its response is that way's. -/
theorem everyCommandAnswersOnce : Obligations.EveryCommandAnswersOnce := by
  intro s w rest hpending
  have hends := commandUnder_ends cfg w s.bfu
  rw [step_eq_deliver hpending]
  generalize commandUnder cfg w s.bfu = reply at hends
  refine ⟨_, _, rfl, rfl, rfl, ?_⟩
  cases hends with
  | ok b' ra rb hflt hcause _ => exact .inl ⟨statusOf_responseWord _ _ _, hflt, hcause⟩
  | fault k hflt =>
    have hstatus : statusOf (raise k s.bfu).word = causeCode k := statusOf_responseWord _ _ _
    rw [hstatus]
    exact .inr (.inl ⟨causeCode_cases k, hflt, raOf_append _ _ _, rbOf_append _ _ _, rfl⟩)
  | refused hflt =>
    exact .inr (.inr ⟨statusOf_responseWord _ _ _, hflt, raOf_append _ _ _, rbOf_append _ _ _, rfl⟩)

/-! ### The faults (R101 to R103) -/

/-- Settles O13: the common checks take the fault on an unfaulted unit, whatever made the word illegal. -/
theorem illegalWordTakesFault : Obligations.IllegalWordTakesFault := by
  intro s w why rest hpending hdecode hflt
  rw [step_eq_deliver hpending, commandUnder_illegal cfg hdecode, illegalWord_unfaulted hflt]
  exact deliver_raise _ .illegalCommand s.bfu

/-- Every instruction but NOP, INIT and RDREG is a command that makes both checks of R105. -/
theorem exists_instrUnder_eq_whenConfigured (c : Cfg V) (b : BfuOf V) {i : Instr} (hnop : i ≠ .nop)
    (hinit : ∀ tag, i ≠ .init tag) (hrdreg : ∀ r, i ≠ .rdreg r) :
    ∃ run, instrUnder c i b = whenConfigured b run := by
  cases i with
  | nop => exact absurd rfl hnop
  | init tag => exact absurd rfl (hinit tag)
  | rdreg r => exact absurd rfl (hrdreg r)
  | setcut | setq | modCut | modQ | modFwd | clrmod | proc | step => exact ⟨_, rfl⟩

/-- Settles O14: the second check stops the command before it reads an operand. -/
theorem unbuiltUnitTakesNotConfigured : Obligations.UnbuiltUnitTakesNotConfigured := by
  intro s i hflt hcfg hnop hinit hrdreg
  obtain ⟨run, hrun⟩ := exists_instrUnder_eq_whenConfigured cfg s.bfu hnop hinit hrdreg
  rw [exec_eq_instrUnder, hrun, whenConfigured_unbuilt hflt hcfg]
  exact deliver_raise s .notConfigured s.bfu

/-- A tag other than 0 and 1 names no filter type (R60). -/
theorem filterOf_unknown {tag : Word32} (h0 : tag ≠ 0) (h1 : tag ≠ 1) : filterOf tag = none := by
  rw [filterOf, if_neg h0, if_neg h1]

/-- Settles O15: the tag names no filter type, so the fault is taken in place of the construction. -/
theorem unknownFilterTagTakesConfigError : Obligations.UnknownFilterTagTakesConfigError := by
  intro s tag hflt h0 h1
  rw [exec_eq_instrUnder, instrUnder, initUnder, whenUnfaulted_unfaulted hflt, filterOf_unknown h0 h1]
  exact deliver_raise s .configError s.bfu

/-! ### A faulted unit (R107) -/

/-- A faulted unit refuses every instruction but NOP and RDREG, INIT too. -/
theorem instrUnder_of_faulted (c : Cfg V) {b : BfuOf V} {i : Instr} (hflt : b.flt = true) (hnop : i ≠ .nop)
    (hrdreg : ∀ r, i ≠ .rdreg r) : instrUnder c i b = refuse b := by
  by_cases hinit : ∃ tag, i = .init tag
  · obtain ⟨tag, rfl⟩ := hinit
    exact whenUnfaulted_faulted hflt _
  · obtain ⟨run, hrun⟩ := exists_instrUnder_eq_whenConfigured c b hnop (not_exists.mp hinit) hrdreg
    rw [hrun, whenConfigured_faulted hflt]

/-- A faulted unit refuses every word that decodes to neither NOP nor RDREG, illegal words too. -/
theorem commandUnder_of_faulted (c : Cfg V) {b : BfuOf V} {w : CmdWord} (hflt : b.flt = true) (hnop : decode w ≠ .ok .nop)
    (hrdreg : ∀ r, decode w ≠ .ok (.rdreg r)) : commandUnder c w b = refuse b := by
  cases hdecode : decode w with
  | ok i =>
    rw [commandUnder_ok c hdecode]
    refine instrUnder_of_faulted c hflt ?_ fun r => ?_
    · rintro rfl
      exact hnop hdecode
    · rintro rfl
      exact hrdreg r hdecode
  | illegal why => rw [commandUnder_illegal c hdecode, illegalWord_faulted hflt]

/-- Settles O12: NOP and RDREG make no check, and every other word is refused. -/
theorem faultedUnitRefuses : Obligations.FaultedUnitRefuses := by
  intro s w rest hpending hflt s'
  rw [step_eq_deliver hpending]
  refine ⟨fun hnop => ?_, fun i hread => ?_, fun hnop hrdreg => ?_⟩
  · rw [commandUnder_ok cfg hnop]
    exact deliver_complete s' s.bfu 0 0
  · rw [commandUnder_ok cfg hread]
    exact deliver_complete s' s.bfu _ 0
  · rw [commandUnder_of_faulted cfg hflt hnop hrdreg]
    exact deliver_refuse s' s.bfu

/-! ### A run of well-formed commands (R104) -/

/-- A run whose first step answers a next state goes on from that state. -/
theorem run_succ_of_step {s t : State} (h : step s = .next t) (k : Nat) :
    Host.Core.run Sys2Proof.core (k + 1) s = Host.Core.run Sys2Proof.core k t := by
  have hcore : Sys2Proof.core.step s = .next t := h
  simp only [Host.Core.run, hcore]

/-- A ready unit given a harmless command takes it, answers OK, and is ready for the next one. -/
theorem step_keeps_ready {s : State} {w : CmdWord} {i : Instr} {rest : List HostAct} (hready : ready s)
    (hpending : s.port.pending = .command w :: rest) (hdecode : decode w = .ok i) (hi : harmless i = true) :
    ∃ t r, step s = .next t ∧ ready t ∧ t.port.pending = rest ∧ t.port.responses = r :: s.port.responses ∧
      statusOf r = 0x00 := by
  obtain ⟨hcfg, hflt⟩ := hready
  obtain ⟨b', ra, rb, hreply, hcfg', hflt', -⟩ := instrUnder_completes cfg hcfg hflt hi
  rw [step_eq_deliver hpending, commandUnder_ok cfg hdecode, hreply]
  exact ⟨_, _, rfl, ⟨hcfg', hflt'.trans hflt⟩, rfl, rfl, statusOf_responseWord _ _ _⟩

/-- Settles O18, by induction on the words to come: each step leaves a ready unit and the rest of the words. -/
theorem readyRunNeverFaults : Obligations.ReadyRunNeverFaults := by
  intro ws
  induction ws with
  | nil =>
    intro s hready hpending _
    exact ⟨s, [], rfl, hready, hpending, rfl, rfl, List.forall_mem_nil _⟩
  | cons w ws ih =>
    intro s hready hpending hws
    obtain ⟨⟨i, hdecode, hi⟩, hrest⟩ := List.forall_mem_cons.mp hws
    obtain ⟨t, r, hstep, ht, htpending, htresponses, hr⟩ := step_keeps_ready hready hpending hdecode hi
    obtain ⟨u, rs, hrun, hu, hupending, huresponses, hlength, hrs⟩ := ih t ht htpending hrest
    refine ⟨u, rs ++ [r], ?_, hu, hupending, ?_, ?_, ?_⟩
    · rw [List.length_cons, run_succ_of_step hstep, hrun]
    · rw [huresponses, htresponses, List.append_assoc, List.singleton_append]
    · rw [List.length_append, List.length_singleton, hlength, List.length_cons]
    · exact List.forall_mem_append.mpr ⟨hrs, List.forall_mem_singleton.mpr hr⟩

end Sys2Proof.Machine
end

section
/-! SUPPORT. Proofs: reset as the host's act (spec/70_reset_and_hazards.md R120), and a base parameter written again with the
value it holds (R123). -/

namespace Sys2Proof.Machine

open Sys2Proof.Config (Cfg)
open Sys2Proof.Safety (within)

/-! ### Reset (R28, R120) -/

/-- Every index reads zero on a reset unit: STATUS is zero there, and the others read zero while CFG = 0 (R26, R96). -/
theorem regRead_reset (c : Cfg F) (free : Word32) (i : Reg) : regRead c free Bfu.reset i = 0 := by
  obtain ⟨hcfg, -, -, -, -, hstatus⟩ := resetStateIsAllZero
  by_cases hi : i = .status
  · exact (if_pos hi).trans hstatus
  · exact (if_neg hi).trans (if_neg (Bool.eq_false_iff.mp hcfg))

/-- Settles O9: the reset act is taken from the port and leaves the unit of the reset column, which reads zero everywhere. -/
theorem resetActClearsTheUnit : Obligations.ResetActClearsTheUnit := by
  intro s rest hpending
  obtain ⟨hcfg, hflt, hft, hcause, hregisters, -⟩ := resetStateIsAllZero
  exact ⟨_, step_reset hpending, rfl, rfl, hcfg, hflt, hft, hcause, hregisters, fun i free => regRead_reset cfg free i⟩

/-! ### A held parameter written again (R123) -/

/-- SETCUT with the value that CUT holds within its clamp completes with the unit it met, once the checks are passed. -/
theorem setcutUnder_held {b : Bfu} {v : Word32} (hv : f32 v = b.cut)
    (hin : within (f32 0x40A00000) (f32 0x469C4000) b.cut = true) :
    setcutUnder cfg v b = whenConfigured b (complete b 0 0) := by
  have hclamp : clamp cfg (cfg.num.f32 v) cfg.fLo cfg.fHi = b.cut := by
    rw [cfg_f32, hv]
    exact clamp_within hin
  rw [setcutUnder, hclamp]

/-- SETQ with the value that Q holds within its clamp, likewise. -/
theorem setqUnder_held {b : Bfu} {v : Word32} (hv : f32 v = b.q)
    (hin : within (f32 0x3DCCCCCD) (f32 0x41A00000) b.q = true) :
    setqUnder cfg v b = whenConfigured b (complete b 0 0) := by
  have hclamp : clamp cfg (cfg.num.f32 v) cfg.qMin cfg.qMax = b.q := by
    rw [cfg_f32, hv]
    exact clamp_within hin
  rw [setqUnder, hclamp]

/-- Settles O44: on a ready unit the checks are passed, and the clamp answers the held value. -/
theorem heldParameterReissued : Obligations.HeldParameterReissued :=
  fun _ _ hready => ⟨fun hv hin => exec_of_ready hready (setcutUnder_held hv hin),
    fun hv hin => exec_of_ready hready (setqUnder_held hv hin)⟩

end Sys2Proof.Machine
end

section
/-! SUPPORT. Proofs: values that stick (spec/70_reset_and_hazards.md R131): a NaN or an infinity that a biquad step reads comes
out of it and stays in its channel (spec/43_evaluation.md R90), and a NaN in a base parameter stays until it is written. -/

namespace Sys2Proof.Machine

open Sys2Proof.Config (Cfg)
open Sys2Proof.Safety (ready raOf rbOf stepReads isNan nonFinite)

/-! ### STEP on a ready unit (R92) -/

/-- The next state of STEP on a ready unit, read at its channel. -/
theorem step_next {s t : State} {ch : Channel} {x : Word32} (hready : ready s) (h : exec (.step ch x) s = .next t) :
    getDelay t.bfu ch = (stepChannel cfg s.bfu ch (f32 x)).2 ∧
    ∃ a, t.port.responses = a :: s.port.responses ∧
      raOf a = bits32 (Config.freeNan s.bfu (.step ch x) .ra) (stepChannel cfg s.bfu ch (f32 x)).1 := by
  rw [exec_step_of_ready hready] at h
  cases h
  exact ⟨getDelay_setDelay _ _ _, _, rfl, raOf_append _ _ _⟩

/-! ### Properties of a value that pass through the arithmetic (R5) -/

/-- A property that a sum and a difference have as soon as one operand has it, and a product as soon as its second factor has
it: a biquad step multiplies what it reads by a coefficient on the left. -/
structure Sticks (p : F → Bool) : Prop where
  add : ∀ {a b : F}, p a = true ∨ p b = true → p (fltAdd a b) = true
  sub : ∀ {a b : F}, p a = true ∨ p b = true → p (fltSub a b) = true
  mul : ∀ {a b : F}, p b = true → p (fltMul a b) = true

theorem isNan_iff {v : F} : isNan v = true ↔ v = .nan := beq_iff_eq

theorem nonFinite_iff {v : F} : nonFinite v = true ↔ fltFinite v = false := by simp [nonFinite]

theorem sticks_isNan : Sticks isNan where
  add h := by
    simp only [isNan_iff] at h ⊢
    rcases h with rfl | rfl
    · exact fltAdd_nan_left _
    · exact fltAdd_nan_right _
  sub h := by
    simp only [isNan_iff] at h ⊢
    rcases h with rfl | rfl
    · exact fltSub_nan_left _
    · exact fltSub_nan_right _
  mul h := by
    rw [isNan_iff] at h ⊢
    rw [h, fltMul_nan_right]

theorem sticks_nonFinite : Sticks nonFinite where
  add h := by
    simp only [nonFinite_iff] at h ⊢
    exact fltAdd_finite h
  sub h := by
    simp only [nonFinite_iff] at h ⊢
    exact fltSub_finite h
  mul h := by
    rw [nonFinite_iff] at h ⊢
    exact fltMul_finite (.inr h)

/-! ### A biquad step (R90) -/

section
variable {p : F → Bool} (hp : Sticks p)
include hp

/-- The output has the property if the input or one of the channel's four registers has it: its product enters one of the four
accumulations, and the ones after keep the property. -/
theorem Sticks.biquadStep_output (k : Coeffs F) {d : Delay F} {x : F} (h : stepReads p x d = true) :
    p (biquadStep cfg k d x).1 = true := by
  simp only [stepReads, Bool.or_eq_true] at h
  rcases h with (((hx | hx1) | hx2) | hy1) | hy2
  · exact hp.sub (.inl (hp.sub (.inl (hp.add (.inl (hp.add (.inl (hp.mul hx))))))))
  · exact hp.sub (.inl (hp.sub (.inl (hp.add (.inl (hp.add (.inr (hp.mul hx1))))))))
  · exact hp.sub (.inl (hp.sub (.inl (hp.add (.inr (hp.mul hx2))))))
  · exact hp.sub (.inl (hp.sub (.inr (hp.mul hy1))))
  · exact hp.sub (.inr (hp.mul hy2))

/-- Stepping a channel that reads the property: it is the output's, which is the channel's most recent one afterwards, and it
is read back from any pattern the output is answered as. -/
theorem Sticks.stepChannel_output {b : Bfu} {ch : Channel} {x : F} (h : stepReads p x (getDelay b ch) = true) :
    p (stepChannel cfg b ch x).2.y1 = true ∧ ∀ free, p (f32 (bits32 free (stepChannel cfg b ch x).1)) = true := by
  refine ⟨hp.biquadStep_output _ h, fun free => ?_⟩
  rw [f32_bits32]
  exact hp.biquadStep_output _ h

/-- Stepping a channel whose most recent output has the property. -/
theorem Sticks.stepChannel_y1 {b : Bfu} {ch : Channel} (x : F) (h : p (getDelay b ch).y1 = true) :
    p (stepChannel cfg b ch x).2.y1 = true :=
  (hp.stepChannel_output (by simp [stepReads, h])).1

/-! ### The commands -/

/-- STEP on a ready unit (R92). -/
theorem Sticks.exec_step {s : State} {ch : Channel} {x : Word32} (hready : ready s)
    (h : stepReads p (f32 x) (getDelay s.bfu ch) = true) :
    ∃ t a, exec (.step ch x) s = .next t ∧ p (getDelay t.bfu ch).y1 = true ∧ t.port.responses = a :: s.port.responses ∧
      p (f32 (raOf a)) = true := by
  have hexec := exec_step_of_ready hready ch x
  obtain ⟨hdelay, a, ha, hra⟩ := step_next hready hexec
  obtain ⟨hy1, hresult⟩ := hp.stepChannel_output h
  refine ⟨_, a, hexec, ?_, ha, ?_⟩
  · rw [hdelay]
    exact hy1
  · rw [hra]
    exact hresult _

/-- PROC on a ready unit (R91). -/
theorem Sticks.exec_proc {s : State} (hready : ready s) (l r : Word32) :
    ∃ t a, exec (.proc l r) s = .next t ∧ t.port.responses = a :: s.port.responses ∧
      (stepReads p (f32 l) (getDelay s.bfu .left) = true →
        p (getDelay t.bfu .left).y1 = true ∧ p (f32 (raOf a)) = true) ∧
      (stepReads p (f32 r) (getDelay s.bfu .right) = true →
        p (getDelay t.bfu .right).y1 = true ∧ p (f32 (rbOf a)) = true) := by
  have hexec := exec_proc_of_ready hready l r
  obtain ⟨hleft, hright, a, ha, hra, hrb⟩ := proc_next hready hexec
  refine ⟨_, a, hexec, ha, fun h => ?_, fun h => ?_⟩
  · obtain ⟨hy1, hresult⟩ := hp.stepChannel_output h
    rw [hleft, hra]
    exact ⟨hy1, hresult _⟩
  · obtain ⟨hy1, hresult⟩ := hp.stepChannel_output h
    rw [hright, hrb]
    exact ⟨hy1, hresult _⟩

/-- A channel's most recent output keeps the property through every instruction but INIT, in every state. -/
theorem Sticks.instrUnder_y1 {i : Instr} (hinit : ∀ tag, i ≠ .init tag) {b : Bfu} {ch : Channel}
    (h : p (getDelay b ch).y1 = true) : p (getDelay (instrUnder cfg i b).bfu ch).y1 = true := by
  cases i with
  | proc l r =>
    refine whenConfigured_keeps (fun b' => p (getDelay b' ch).y1 = true) h h fun _ => ?_
    cases ch
    · exact hp.stepChannel_y1 (f32 l) h
    · exact hp.stepChannel_y1 (f32 r) h
  | step ch' x =>
    by_cases hch : ch' = ch
    · subst hch
      refine whenConfigured_keeps (fun b' => p (getDelay b' ch').y1 = true) h h fun _ => ?_
      rw [complete_bfu, getDelay_setDelay]
      exact hp.stepChannel_y1 (f32 x) h
    · rw [instrUnder, stepUnder_getDelay_other cfg hch]
      exact h
  | nop | init | setcut | setq | modCut | modQ | modFwd | clrmod | rdreg =>
    rw [instrUnder_getDelay cfg hinit nofun nofun]
    exact h

end

/-! ### The base parameters -/

/-- CUT is written by SETCUT and INIT alone, and Q by SETQ and INIT alone, in every state and under every configuration (R15,
R16). -/
theorem instrUnder_base {V : Type} (c : Cfg V) {i : Instr} (hinit : ∀ tag, i ≠ .init tag) (b : BfuOf V) :
    ((∀ v, i ≠ .setcut v) → (instrUnder c i b).bfu.cut = b.cut) ∧
    ((∀ v, i ≠ .setq v) → (instrUnder c i b).bfu.q = b.q) := by
  cases i with
  | nop | rdreg => exact ⟨fun _ => rfl, fun _ => rfl⟩
  | init tag => exact absurd rfl (hinit tag)
  | proc l r =>
    have hframe := evaluationFrame_procUnder c l r b
    exact ⟨fun _ => hframe.cut, fun _ => hframe.q⟩
  | step ch x =>
    have hframe := evaluationFrame_stepUnder c ch x b
    exact ⟨fun _ => hframe.cut, fun _ => hframe.q⟩
  | setcut | setq | modCut | modQ | modFwd | clrmod =>
    suffices hframe : ParameterFrame _ b _ from ⟨hframe.cut, hframe.q⟩
    exact parameterFrame_instrUnder c (by simp [IsParameterCommand]) b

/-- Settles O39: both properties pass through the arithmetic, so a channel keeps them; a base parameter is kept by what does not
write it; and CLRMOD writes +0.0. -/
theorem nanSticksInChannel : Obligations.NanSticksInChannel := by
  have hsticks : ∀ p ∈ [isNan, nonFinite], Sticks p :=
    List.forall_mem_cons.mpr ⟨sticks_isNan, List.forall_mem_singleton.mpr sticks_nonFinite⟩
  refine ⟨fun p hmem => ?_, fun i s t hinit hexec => ?_, fun s hready => ?_⟩
  · have hp := hsticks p hmem
    refine ⟨fun s ch x => hp.exec_step, fun s l r hready => hp.exec_proc hready l r, fun i s t ch hinit hexec hy1 => ?_⟩
    rw [(exec_next hexec).1]
    exact hp.instrUnder_y1 hinit hy1
  · obtain ⟨hcut, hq⟩ := instrUnder_base cfg hinit s.bfu
    rw [(exec_next hexec).1]
    exact ⟨fun hset hnan => (hcut hset).trans hnan, fun hset hnan => (hq hset).trans hnan⟩
  · have hzero : f32 0x00000000 ≠ .nan := by decide
    exact ⟨_, clrmodClearsAccumulators s hready, hzero, hzero⟩

end Sys2Proof.Machine
end
